-- ==== Sys2Proof/Word.lean ====
section
/-! DEFINITION. The words, bytes and bit sequences of AIS-CORE (spec/00_scope.md R8 and R9). -/

namespace Sys2Proof

/-- A register, bus or binary32 word: 32 bits (R9). -/
abbrev Word := BitVec 32

/-- An 8-bit character or an 8-bit immediate. -/
abbrev Byte := BitVec 8

/-- A bit sequence, element 0 first (R8, R57). -/
abbrev Bits := List Bool

/-- A complex sample: the binary32 words of its real part I and its imaginary part Q (R60). -/
abbrev Sample := Word × Word

end Sys2Proof
end

