-- ==== Sys2Proof/Syntax.lean ====
section
/-! DEFINITION. The commands of AIS-CORE, one constructor per row of spec/opcode_table.json
(spec/30_encoding.md R75).  A command word carries at most one operand, the 8-bit immediate IMM8
(R74).  The modifier F selects between FIND_FLAG and FIND_FLAG.FUZZY, which are two rows. -/

namespace Sys2Proof

/-- The commands.  An `imm` operand is the whole IMM8 field as R73 lays it out: which of its bits must
be 0 is checked by `Instr.wf` (WellFormed.lean) and by the decoder. -/
inductive Instr where
  | nop
  | moveOutIn
  | moveSoutSin
  | packBytes
  | unpackBytes
  | reverseBytes
  | selftestLoopback
  | crcInit
  /-- The input bit is `imm[0]` (R74, CMD-B). -/
  | crcBit (imm : Byte)
  /-- The input byte (R74, CMD-I8). -/
  | crcByte (imm : Byte)
  | crcBuf
  | crcBufBytes
  | crcAppend
  | crcCheck
  | crcSelftest
  | stuffReset
  /-- The input bit is `imm[0]` (R74, CMD-B). -/
  | stuffBit (imm : Byte)
  /-- The input bit is `imm[0]` (R74, CMD-B). -/
  | destuffBit (imm : Byte)
  | stuffBuf
  | destuffBuf
  /-- FIND_FLAG with F = 0: exact match (R121). -/
  | findFlag
  /-- FIND_FLAG with F = 1: fuzzy match at FLAG_MIN_AGREE (R121). -/
  | findFlagFuzzy
  | buildFrame
  | extractPayload
  | deframe
  | nrziReset
  /-- The input bit is `imm[0]` (R74, CMD-B). -/
  | nrziEncBit (imm : Byte)
  /-- The input symbol is `imm[0]` (R74, CMD-B). -/
  | nrziDecBit (imm : Byte)
  | nrziEncBuf
  | nrziDecBuf
  | encodePos
  | decodePos
  /-- The 6-bit value is `imm[5:0]` (R74, CMD-I6). -/
  | six2ascii (imm : Byte)
  /-- The character code (R74, CMD-I8). -/
  | ascii2six (imm : Byte)
  | armor
  | dearmor
  | modulate
  | transmit
  | demodulate
  | recoverClock
  | receive
  deriving DecidableEq, Repr

end Sys2Proof
end

