-- ==== Sys2Proof/WellFormed.lean ====
section
/-! DEFINITION. Which commands are well formed: the immediate keeps to the bits its command uses
(spec/30_encoding.md R74). -/

namespace Sys2Proof

/-- The operand forms of R74: CMD-N (and CMD-F), CMD-B, CMD-I6, CMD-I8. -/
inductive ImmForm where
  | none
  | bit
  | six
  | byte
  deriving DecidableEq, Repr

/-- The IMM8 bits a form uses; every other IMM8 bit must be 0 (R74). -/
def ImmForm.used : ImmForm → Byte
  | .none => 0x00
  | .bit => 0x01
  | .six => 0x3F
  | .byte => 0xFF

/-- Whether every IMM8 bit that must be 0 in this form is 0 (R76, check 3). -/
def ImmForm.admits (f : ImmForm) (imm : Byte) : Bool :=
  imm &&& ~~~ f.used == 0

/-- The operand form of a command (R74). -/
def Instr.form : Instr → ImmForm
  | .nop | .moveOutIn | .moveSoutSin | .packBytes | .unpackBytes | .reverseBytes | .selftestLoopback => .none
  | .crcInit | .crcBuf | .crcBufBytes | .crcAppend | .crcCheck | .crcSelftest => .none
  | .crcBit _ | .stuffBit _ | .destuffBit _ | .nrziEncBit _ | .nrziDecBit _ => .bit
  | .crcByte _ | .ascii2six _ => .byte
  | .six2ascii _ => .six
  | .stuffReset | .stuffBuf | .destuffBuf | .findFlag | .findFlagFuzzy => .none
  | .buildFrame | .extractPayload | .deframe => .none
  | .nrziReset | .nrziEncBuf | .nrziDecBuf => .none
  | .encodePos | .decodePos | .armor | .dearmor => .none
  | .modulate | .transmit | .demodulate | .recoverClock | .receive => .none

/-- The IMM8 field of a command: its operand, or 0 where it has none (R74). -/
def Instr.imm : Instr → Byte
  | .crcBit b | .stuffBit b | .destuffBit b | .nrziEncBit b | .nrziDecBit b => b
  | .crcByte b | .ascii2six b | .six2ascii b => b
  | .nop | .moveOutIn | .moveSoutSin | .packBytes | .unpackBytes | .reverseBytes | .selftestLoopback => 0
  | .crcInit | .crcBuf | .crcBufBytes | .crcAppend | .crcCheck | .crcSelftest => 0
  | .stuffReset | .stuffBuf | .destuffBuf | .findFlag | .findFlagFuzzy => 0
  | .buildFrame | .extractPayload | .deframe => 0
  | .nrziReset | .nrziEncBuf | .nrziDecBuf => 0
  | .encodePos | .decodePos | .armor | .dearmor => 0
  | .modulate | .transmit | .demodulate | .recoverClock | .receive => 0

/-- A command is well formed when its immediate keeps to its form (R74). -/
def Instr.wf (i : Instr) : Bool := i.form.admits i.imm

end Sys2Proof
end

