-- ==== Sys2Proof/Decode.lean ====
section
/-! DEFINITION. The decoder and the encoder of command words (spec/30_encoding.md R73 to R77).
The decoder is total: every 32-bit word is one command or is illegal for one named reason (R76). -/

namespace Sys2Proof

/-- Why a word is no command, in the order of R76's checks. -/
inductive Illegal where
  /-- Check (1): OPC is not in the opcode map. -/
  | badOpcode
  /-- Check (2): the RSV field is not 0. -/
  | rsvNonzero
  /-- Check (3): an IMM8 bit that must be 0 is 1. -/
  | immNonzero
  /-- Check (4): F = 1 on a command other than FIND_FLAG. -/
  | fNonzero
  deriving DecidableEq, Repr

/-- OPC = w[7:0] (R73). -/
def fieldOpc (w : Word) : Byte := w.extractLsb' 0 8

/-- IMM8 = w[15:8] (R73). -/
def fieldImm (w : Word) : Byte := w.extractLsb' 8 8

/-- F = w[16] (R73). -/
def fieldF (w : Word) : Bool := w.getLsbD 16

/-- RSV = w[31:17] (R73). -/
def fieldRsv (w : Word) : BitVec 15 := w.extractLsb' 17 15

/-- The opcode map of R75: the command an opcode selects, given the IMM8 and F fields. -/
def opcodeMap (opc imm : Byte) (f : Bool) : Option Instr :=
  match opc with
  | 0x00 => some .nop
  | 0x01 => some .moveOutIn
  | 0x02 => some .moveSoutSin
  | 0x03 => some .packBytes
  | 0x04 => some .unpackBytes
  | 0x05 => some .reverseBytes
  | 0x0F => some .selftestLoopback
  | 0x10 => some .crcInit
  | 0x11 => some (.crcBit imm)
  | 0x12 => some (.crcByte imm)
  | 0x13 => some .crcBuf
  | 0x14 => some .crcBufBytes
  | 0x15 => some .crcAppend
  | 0x16 => some .crcCheck
  | 0x17 => some .crcSelftest
  | 0x20 => some .stuffReset
  | 0x21 => some (.stuffBit imm)
  | 0x22 => some (.destuffBit imm)
  | 0x23 => some .stuffBuf
  | 0x24 => some .destuffBuf
  | 0x25 => some (if f then .findFlagFuzzy else .findFlag)
  | 0x26 => some .buildFrame
  | 0x27 => some .extractPayload
  | 0x28 => some .deframe
  | 0x30 => some .nrziReset
  | 0x31 => some (.nrziEncBit imm)
  | 0x32 => some (.nrziDecBit imm)
  | 0x33 => some .nrziEncBuf
  | 0x34 => some .nrziDecBuf
  | 0x40 => some .encodePos
  | 0x41 => some .decodePos
  | 0x42 => some (.six2ascii imm)
  | 0x43 => some (.ascii2six imm)
  | 0x44 => some .armor
  | 0x45 => some .dearmor
  | 0x50 => some .modulate
  | 0x51 => some .transmit
  | 0x60 => some .demodulate
  | 0x61 => some .recoverClock
  | 0x62 => some .receive
  | _ => none

/-- The decoder: R76's four checks in their order, the first that fails named. -/
def decode (w : Word) : Except Illegal Instr :=
  match opcodeMap (fieldOpc w) (fieldImm w) (fieldF w) with
  | none => .error .badOpcode
  | some i =>
    if fieldRsv w ≠ 0 then .error .rsvNonzero
    else if i.form.admits (fieldImm w) = false then .error .immNonzero
    else if fieldF w = true ∧ fieldOpc w ≠ 0x25 then .error .fNonzero
    else .ok i

/-- The opcode of a command (R75). -/
def Instr.opc : Instr → Byte
  | .nop => 0x00
  | .moveOutIn => 0x01
  | .moveSoutSin => 0x02
  | .packBytes => 0x03
  | .unpackBytes => 0x04
  | .reverseBytes => 0x05
  | .selftestLoopback => 0x0F
  | .crcInit => 0x10
  | .crcBit _ => 0x11
  | .crcByte _ => 0x12
  | .crcBuf => 0x13
  | .crcBufBytes => 0x14
  | .crcAppend => 0x15
  | .crcCheck => 0x16
  | .crcSelftest => 0x17
  | .stuffReset => 0x20
  | .stuffBit _ => 0x21
  | .destuffBit _ => 0x22
  | .stuffBuf => 0x23
  | .destuffBuf => 0x24
  | .findFlag => 0x25
  | .findFlagFuzzy => 0x25
  | .buildFrame => 0x26
  | .extractPayload => 0x27
  | .deframe => 0x28
  | .nrziReset => 0x30
  | .nrziEncBit _ => 0x31
  | .nrziDecBit _ => 0x32
  | .nrziEncBuf => 0x33
  | .nrziDecBuf => 0x34
  | .encodePos => 0x40
  | .decodePos => 0x41
  | .six2ascii _ => 0x42
  | .ascii2six _ => 0x43
  | .armor => 0x44
  | .dearmor => 0x45
  | .modulate => 0x50
  | .transmit => 0x51
  | .demodulate => 0x60
  | .recoverClock => 0x61
  | .receive => 0x62

/-- The F bit of a command: 1 for FIND_FLAG.FUZZY only (R74). -/
def Instr.fuzzy (i : Instr) : Bool := decide (i = .findFlagFuzzy)

/-- The encoder: `w = OPC | (IMM8 << 8) | (F << 16)` (R73). -/
def encode (i : Instr) : Word :=
  i.opc.setWidth 32 ||| (i.imm.setWidth 32 <<< 8) ||| (if i.fuzzy then 0x00010000 else 0)

/-- The word of an instruction of spec/opcode_table.json given as `nbits` bits of `w`: every bit above
them is 0.  A command is one 32-bit word (R77), written whole to CMD. -/
def tableWord (nbits w : Nat) : Word := BitVec.ofNat 32 (w % 2 ^ nbits)

/-- The instruction the decoder reads from the `nbits` bits of `w`; none where it refuses. -/
def decodeTableWord (nbits w : Nat) : Option Instr :=
  match decode (tableWord nbits w) with
  | .ok i => some i
  | .error _ => none

/-- The rows of spec/opcode_table.json as (match, mask) pairs, in the table's order (R74). -/
def tableRows : List (Word × Word) :=
  [(0x00000000, 0xFFFFFFFF), (0x00000001, 0xFFFFFFFF), (0x00000002, 0xFFFFFFFF), (0x00000003, 0xFFFFFFFF),
   (0x00000004, 0xFFFFFFFF), (0x00000005, 0xFFFFFFFF), (0x0000000F, 0xFFFFFFFF)] ++
  [(0x00000010, 0xFFFFFFFF), (0x00000011, 0xFFFFFEFF), (0x00000012, 0xFFFF00FF), (0x00000013, 0xFFFFFFFF),
   (0x00000014, 0xFFFFFFFF), (0x00000015, 0xFFFFFFFF), (0x00000016, 0xFFFFFFFF), (0x00000017, 0xFFFFFFFF)] ++
  [(0x00000020, 0xFFFFFFFF), (0x00000021, 0xFFFFFEFF), (0x00000022, 0xFFFFFEFF), (0x00000023, 0xFFFFFFFF),
   (0x00000024, 0xFFFFFFFF), (0x00000025, 0xFFFFFFFF), (0x00010025, 0xFFFFFFFF), (0x00000026, 0xFFFFFFFF),
   (0x00000027, 0xFFFFFFFF), (0x00000028, 0xFFFFFFFF)] ++
  [(0x00000030, 0xFFFFFFFF), (0x00000031, 0xFFFFFEFF), (0x00000032, 0xFFFFFEFF), (0x00000033, 0xFFFFFFFF),
   (0x00000034, 0xFFFFFFFF)] ++
  [(0x00000040, 0xFFFFFFFF), (0x00000041, 0xFFFFFFFF), (0x00000042, 0xFFFFC0FF), (0x00000043, 0xFFFF00FF),
   (0x00000044, 0xFFFFFFFF), (0x00000045, 0xFFFFFFFF)] ++
  [(0x00000050, 0xFFFFFFFF), (0x00000051, 0xFFFFFFFF), (0x00000060, 0xFFFFFFFF), (0x00000061, 0xFFFFFFFF),
   (0x00000062, 0xFFFFFFFF)]

end Sys2Proof
end

