-- ==== Sys2Proof/Machine/Bits.lean ====
section
/-! DEFINITION. The notation of spec/00_scope.md over bit sequences: `ubits`, `uval`, `sval`, `agree`
and sub-sequences (R8, R10, R11, R12). -/

namespace Sys2Proof.Machine

/-- `ubits_n(v)`: the n bits of v modulo 2^n, most significant first (R10). -/
def ubits (n v : Nat) : Bits :=
  (List.range n).map (fun i => v.testBit (n - 1 - i))

/-- `ubits_n` of an integer: a negative value is taken modulo 2^n, its two's complement (R10, R135). -/
def ubitsInt (n : Nat) (v : Int) : Bits :=
  ubits n (v % (2 ^ n : Int)).toNat

/-- `uval(S)`: S read as an unsigned number, most significant bit first; `uval(ε) = 0` (R10). -/
def uval (S : Bits) : Nat :=
  S.foldl (fun acc b => 2 * acc + b.toNat) 0

/-- `sval(S)`: the two's-complement value of S (R10). -/
def sval (S : Bits) : Int :=
  if S.head? = some true then (uval S : Int) - 2 ^ S.length else (uval S : Int)

/-- `S[a..b)`, empty when a ≥ b (R8). -/
def slice {α : Type} (S : List α) (a b : Nat) : List α :=
  (S.drop a).take (b - a)

/-- `agree(S, T)`: the number of indices at which S and T hold the same bit (R12). -/
def agree (S T : Bits) : Nat :=
  (S.zip T).countP (fun p => p.1 == p.2)

/-- `byte_k(S)`: the k-th 8-bit group of S, its first bit the byte's bit 7 (R81). -/
def byteAt (S : Bits) (k : Nat) : Byte :=
  BitVec.ofNat 8 (uval (slice S (8 * k) (8 * k + 8)))

/-- The bytes of a bit sequence whose length is a multiple of 8 (R81). -/
def bytesOf (S : Bits) : List Byte :=
  (List.range (S.length / 8)).map (byteAt S)

/-- `bits(C)`: the bits of a byte string, each byte most significant bit first (R81). -/
def bitsOfBytes (C : List Byte) : Bits :=
  C.flatMap (fun c => ubits 8 c.toNat)

end Sys2Proof.Machine
end

