-- ==== Sys2Proof/Machine/Float.lean ====
section
/-! DEFINITION. IEEE 754 binary32 words as exact rationals: `val32`, finiteness and `rne32`
(spec/00_scope.md R16, spec/46_demod.md R157). -/

namespace Sys2Proof.Machine

/-- The biased exponent field of a binary32 word. -/
def expField (w : Word) : Nat := (w.extractLsb' 23 8).toNat

/-- The fraction field of a binary32 word. -/
def fracField (w : Word) : Nat := (w.extractLsb' 0 23).toNat

/-- Whether a binary32 word is neither a NaN nor an infinity (R157). -/
def finite32 (w : Word) : Bool := expField w != 255

/-- The magnitude of a finite binary32 word in units of 2^-149: the significand (with its hidden bit
when the exponent field is not 0) shifted by the exponent above the least one. -/
def magnitude149 (w : Word) : Nat :=
  if expField w = 0 then fracField w else (2 ^ 23 + fracField w) * 2 ^ (expField w - 1)

/-- `val32(w)`: the exact value of a finite binary32 word (R16).  On a NaN or an infinity the number is
meaningless and no rule uses it: R157 turns those words away first. -/
def val32 (w : Word) : ℚ :=
  ((if w.getLsbD 31 then -(magnitude149 w : ℤ) else (magnitude149 w : ℤ) : ℤ) : ℚ) / 2 ^ 149

/-- The natural number nearest to a rational q ≥ 0, ties to even. -/
def roundEven (q : ℚ) : Nat :=
  let f := q.floor.toNat
  let r := q - f
  if r < 1 / 2 then f
  else if 1 / 2 < r then f + 1
  else if f % 2 = 0 then f else f + 1

/-- The magnitude bits of `rne32` for y ≥ 0 in units of 2^-149.  The significand is rounded to 24 bits
(fewer below the least normal value); a carry out of it raises the exponent field by itself; a value
that rounds past the largest finite word gives the infinity's bits. -/
def roundMagnitude (y : ℚ) : Nat :=
  let k := Nat.log2 y.floor.toNat - 23
  min (k * 2 ^ 23 + roundEven (y / 2 ^ k)) 0x7F800000

/-- `rne32(x)`: the binary32 word nearest to x, ties to even (R16).  The sign bit is that of x, and 0
gives the positive zero (notes/assumptions/7.md). -/
def rne32 (x : ℚ) : Word :=
  BitVec.ofNat 32 (roundMagnitude (|x| * 2 ^ 149)) ||| (if x < 0 then 0x80000000 else 0)

end Sys2Proof.Machine
end

