-- ==== Sys2Proof/Machine/Signal.lean ====
section
/-! DEFINITION. The ideal signals of the modulator and the discriminator over exact reals
(spec/45_gmsk_mod.md R148 to R151, spec/46_demod.md R158 and R159, spec/00_scope.md R16).
These functions say what a drawn output word must be close to (R17); no step computes them. -/

namespace Sys2Proof.Machine

/-- `w ≈_ε y` (R17): w is a finite binary32 word with `|val32(w) − y| ≤ ε`. -/
def Near (ε y : ℝ) (w : Word) : Prop :=
  finite32 w = true ∧ |((val32 w : ℚ) : ℝ) - y| ≤ ε

/-- The words that may be put out for the ideal value y under the tolerance ε (R17): a finite word, and one with
`w ≈_ε y`.  R7 allows every ε > 0, so at some y there can be no such word at all; R17 then names no word, and the
output is any finite one (notes/assumptions/18.md). -/
def Within (ε y : ℝ) (w : Word) : Prop :=
  finite32 w = true ∧ ((∃ v, Near ε y v) → Near ε y w)

/-! ### The Gaussian filter (R149, R150) -/

/-- σ in symbol periods, for `BT = btX100 / 100` (R149). -/
noncomputable def gaussSigma (btX100 : Nat) : ℝ :=
  Real.sqrt (Real.log 2) / (2 * Real.pi * ((btX100 : ℝ) / 100))

/-- The number of taps `NT = Lg·S + 1` (R149). -/
def tapCount (S Lg : Nat) : Nat := Lg * S + 1

/-- `g_k`, the Gaussian at the tap time `t_k = (k − Lg·S/2) / S` (R149). -/
noncomputable def gaussRaw (S Lg btX100 k : Nat) : ℝ :=
  let t : ℝ := ((k : ℝ) - (Lg : ℝ) * S / 2) / S
  Real.exp (-t ^ 2 / (2 * gaussSigma btX100 ^ 2))

/-- `h_k`, the tap normalised to unit sum (R149). -/
noncomputable def tap (S Lg btX100 k : Nat) : ℝ :=
  gaussRaw S Lg btX100 k / ∑ j ∈ Finset.range (tapCount S Lg), gaussRaw S Lg btX100 j

/-- `x'[n + c − k]`: the input, 0 outside 0 … M−1 (R150). -/
noncomputable def padded (M : Nat) (x : Nat → ℝ) (n c k : Nat) : ℝ :=
  if k ≤ n + c ∧ n + c - k < M then x (n + c - k) else 0

/-- `conv_same(x, taps(S, Lg, BT))[n]` for an input of M samples (R150). -/
noncomputable def convSame (S Lg btX100 M : Nat) (x : Nat → ℝ) (n : Nat) : ℝ :=
  ∑ k ∈ Finset.range (tapCount S Lg), tap S Lg btX100 k * padded M x n ((tapCount S Lg - 1) / 2) k

/-! ### The modulator (R148, R151) -/

/-- What one run of the modulator depends on: the profile, the rate, filter and deviation registers,
and the bits. -/
structure ModJob where
  /-- CONFIG.PROFILE = 0 (R147). -/
  gmsk : Bool
  sampleRate : Word
  symbolRate : Word
  btX100 : Word
  gaussSpan : Word
  fskDevHz : Word
  bits : Bits
  deriving DecidableEq, Repr

/-- S, the samples per symbol (R146). -/
def ModJob.sps (j : ModJob) : Nat := j.sampleRate.toNat / j.symbolRate.toNat

/-- `nrz(B, S)[n]`: +1 for a 1 bit, −1 for a 0 bit, each held for S samples (R148). -/
noncomputable def nrz (B : Bits) (S n : Nat) : ℝ :=
  if B.getD (n / S) false then 1 else -1

/-- The waveform the phase integrates: the filtered levels in the GMSK profile, the levels in the FSK
profile (R147, R151). -/
noncomputable def ModJob.level (j : ModJob) (n : Nat) : ℝ :=
  if j.gmsk then
    convSame j.sps j.gaussSpan.toNat j.btX100.toNat (j.bits.length * j.sps) (nrz j.bits j.sps) n
  else nrz j.bits j.sps n

/-- The phase step per sample of a full-scale level: `π/(2·S)` in the GMSK profile,
`2π·FSK_DEV_HZ/SAMPLE_RATE` in the FSK profile (R151, R158). -/
noncomputable def fullStep (gmsk : Bool) (S fskDevHz sampleRate : Nat) : ℝ :=
  if gmsk then Real.pi / (2 * S) else 2 * Real.pi * fskDevHz / sampleRate

/-- `Δ[n]` (R151). -/
noncomputable def ModJob.delta (j : ModJob) (n : Nat) : ℝ :=
  fullStep j.gmsk j.sps j.fskDevHz.toNat j.sampleRate.toNat * j.level n

/-- `φ[n] = Δ[0] + … + Δ[n]` (R151). -/
noncomputable def ModJob.phase (j : ModJob) (n : Nat) : ℝ :=
  ∑ m ∈ Finset.range (n + 1), j.delta m

/-! ### The discriminator (R158, R159) -/

/-- What one run of the discriminator depends on. -/
structure DiscJob where
  /-- CONFIG.PROFILE = 0 (R147). -/
  gmsk : Bool
  dcRemove : Bool
  lpf : Bool
  sampleRate : Word
  symbolRate : Word
  btX100 : Word
  gaussSpan : Word
  fskDevHz : Word
  samples : List Sample
  deriving DecidableEq, Repr

/-- S, the samples per symbol (R146). -/
def DiscJob.sps (j : DiscJob) : Nat := j.sampleRate.toNat / j.symbolRate.toNat

/-- `z[k] = val32(I_k) + i·val32(Q_k)` (R159). -/
noncomputable def DiscJob.z (j : DiscJob) (k : Nat) : ℂ :=
  let p := j.samples.getD k (0, 0)
  ⟨((val32 p.1 : ℚ) : ℝ), ((val32 p.2 : ℚ) : ℝ)⟩

/-- `w[k]`: the sample, less the mean of the whole buffer when DC_REMOVE = 1 (R159). -/
noncomputable def DiscJob.w (j : DiscJob) (k : Nat) : ℂ :=
  if j.dcRemove then
    j.z k - (∑ m ∈ Finset.range j.samples.length, j.z m) / (j.samples.length : ℂ)
  else j.z k

/-- `dev`, the phase step per sample of the full deviation (R158). -/
noncomputable def DiscJob.dev (j : DiscJob) : ℝ :=
  fullStep j.gmsk j.sps j.fskDevHz.toNat j.sampleRate.toNat

/-- `D[k]` before the optional filter (R159). -/
noncomputable def DiscJob.raw (j : DiscJob) (k : Nat) : ℝ :=
  if k = 0 then 0 else Complex.arg (j.w k * (starRingEnd ℂ) (j.w (k - 1))) / j.dev

/-- `disc(z)[k]` (R159). -/
noncomputable def DiscJob.ideal (j : DiscJob) (k : Nat) : ℝ :=
  if j.lpf then
    convSame j.sps j.gaussSpan.toNat j.btX100.toNat j.samples.length j.raw k
  else j.raw k

/-! ### Bounds of the ideal signals, which show that a tolerance can be met -/

theorem tap_nonneg (S Lg bt k : Nat) : 0 ≤ tap S Lg bt k :=
  div_nonneg (Real.exp_pos _).le (Finset.sum_nonneg fun _ _ => (Real.exp_pos _).le)

theorem tap_sum (S Lg bt : Nat) : ∑ k ∈ Finset.range (tapCount S Lg), tap S Lg bt k = 1 := by
  have hpos : 0 < ∑ j ∈ Finset.range (tapCount S Lg), gaussRaw S Lg bt j :=
    Finset.sum_pos (fun _ _ => Real.exp_pos _) ⟨0, by simp [tapCount]⟩
  simp only [tap]
  rw [← Finset.sum_div, div_self hpos.ne']

theorem abs_convSame_le (S Lg bt M : Nat) (x : Nat → ℝ) (n : Nat) (b : ℝ) (hb : 0 ≤ b)
    (hx : ∀ m, |x m| ≤ b) : |convSame S Lg bt M x n| ≤ b := by
  have hterm : ∀ k ∈ Finset.range (tapCount S Lg),
      |tap S Lg bt k * padded M x n ((tapCount S Lg - 1) / 2) k| ≤ tap S Lg bt k * b := by
    intro k _
    rw [abs_mul, abs_of_nonneg (tap_nonneg S Lg bt k)]
    refine mul_le_mul_of_nonneg_left ?_ (tap_nonneg S Lg bt k)
    unfold padded
    split
    · exact hx _
    · simpa using hb
  calc |convSame S Lg bt M x n|
      ≤ ∑ k ∈ Finset.range (tapCount S Lg), tap S Lg bt k * b :=
        (Finset.abs_sum_le_sum_abs _ _).trans (Finset.sum_le_sum hterm)
    _ = b := by rw [← Finset.sum_mul, tap_sum, one_mul]

theorem pi_div_fullStep_le (gmsk : Bool) (S dev fs : Nat) (hS : S < 2 ^ 32) (hfs : fs < 2 ^ 32) :
    Real.pi / |fullStep gmsk S dev fs| ≤ 2 ^ 33 := by
  have hS' : (S : ℝ) ≤ 2 ^ 32 := by exact_mod_cast hS.le
  have hfs' : (fs : ℝ) ≤ 2 ^ 32 := by exact_mod_cast hfs.le
  have hpi := Real.pi_pos
  unfold fullStep
  cases gmsk
  · simp only [Bool.false_eq_true, if_false]
    rcases Nat.eq_zero_or_pos dev with h | h
    · simp [h]
    · have hd : (1 : ℝ) ≤ dev := by exact_mod_cast h
      rcases Nat.eq_zero_or_pos fs with h0 | h0
      · simp [h0]
      · have hf : (0 : ℝ) < fs := by exact_mod_cast h0
        rw [abs_of_nonneg (by positivity), div_le_iff₀ (by positivity)]
        rw [show (2 : ℝ) ^ 33 * (2 * Real.pi * dev / fs) = Real.pi * (2 ^ 34 * dev / fs) by ring]
        refine le_mul_of_one_le_right hpi.le ?_
        rw [le_div_iff₀ hf]
        nlinarith
  · simp only [if_true]
    rcases Nat.eq_zero_or_pos S with h | h
    · simp [h]
    · have hs : (0 : ℝ) < S := by exact_mod_cast h
      rw [abs_of_nonneg (by positivity), div_le_iff₀ (by positivity)]
      rw [show (2 : ℝ) ^ 33 * (Real.pi / (2 * S)) = Real.pi * (2 ^ 32 / S) by ring]
      refine le_mul_of_one_le_right hpi.le ?_
      rwa [le_div_iff₀ hs, one_mul]

theorem DiscJob.abs_raw_le (j : DiscJob) (k : Nat) : |j.raw k| ≤ 2 ^ 33 := by
  unfold DiscJob.raw
  split
  · simp
  · rw [abs_div]
    refine (div_le_div_of_nonneg_right (Complex.abs_arg_le_pi _) (abs_nonneg _)).trans ?_
    exact pi_div_fullStep_le _ _ _ _
      (lt_of_le_of_lt (Nat.div_le_self _ _) j.sampleRate.isLt) j.sampleRate.isLt

theorem DiscJob.abs_ideal_le (j : DiscJob) (k : Nat) : |j.ideal k| ≤ 2 ^ 33 := by
  unfold DiscJob.ideal
  split
  · exact abs_convSame_le _ _ _ _ _ _ _ (by positivity) j.abs_raw_le
  · exact j.abs_raw_le k

theorem Near.within {ε y : ℝ} {w : Word} (h : Near ε y w) : Within ε y w := ⟨h.1, fun _ => h⟩

/-- Some word may be put out, whatever the tolerance and the ideal value. -/
theorem exists_within (ε y : ℝ) : ∃ w, Within ε y w := by
  by_cases h : ∃ v, Near ε y v
  · exact h.imp fun _ hv => hv.within
  · exact ⟨0, by decide, fun h' => absurd h' h⟩

theorem near_zero_word (ε y : ℝ) (h : |y| ≤ ε) : Near ε y 0 := by
  refine ⟨by decide, ?_⟩
  have h0 : val32 (0 : Word) = 0 := by simp [val32, magnitude149, expField, fracField]
  rw [h0, Rat.cast_zero, zero_sub, abs_neg]
  exact h

end Sys2Proof.Machine
end

