-- ==== Sys2Proof/Config.lean ====
section
/-! DEFINITION. What an implementation fixes (spec/00_scope.md R7) and the free values
(R17, spec/93_implementation_defined.md rows 21 to 24). -/

namespace Sys2Proof

/-- `BIT_CAP` of the build the spec gives (R7, D12).  State holds the capacities, so that every claim
over all states is a claim about every build (notes/assumptions/1.md). -/
def Config.bitCap : Nat := 4096

/-- `CHR_CAP` of the build the spec gives (R7, D12). -/
def Config.chrCap : Nat := 1024

/-- `SMP_CAP` of the build the spec gives (R7, D12). -/
def Config.smpCap : Nat := 16384

/-- The analog side of an implementation: its three accuracy bounds, which the spec leaves open (R7,
D44), and the words it puts out, of which the spec says only that they lie within the bounds (R151,
R159; `Machine.Within`).  Every bound of R7's range is possible (`Config.exists_analog` in
Laws/Demod.lean).  A word is a function of the job, of the sample's index and of a count of the commands
run so far (`tick`), so that no two commands are bound to draw alike. -/
structure Config.Analog where
  /-- NUM_EPS_MOD. -/
  epsMod : ℝ
  epsMod_pos : 0 < epsMod
  /-- NUM_EPS_DISC. -/
  epsDisc : ℝ
  epsDisc_pos : 0 < epsDisc
  /-- NUM_EPS_TAP.  The outputs' bounds already cover what a tap table's error does (R149), so no rule
  reads it. -/
  epsTap : ℝ
  epsTap_nonneg : 0 ≤ epsTap
  /-- The I and Q words of sample n (R151). -/
  modWords : Machine.ModJob → (tick n : Nat) → Sample
  modWords_within : ∀ j tick n,
    Machine.Within epsMod (Real.cos (j.phase n)) (modWords j tick n).1 ∧
      Machine.Within epsMod (Real.sin (j.phase n)) (modWords j tick n).2
  /-- The discriminator word of sample k (R159). -/
  discWord : Machine.DiscJob → (tick k : Nat) → Word
  discWord_within : ∀ j tick k, Machine.Within epsDisc (j.ideal k) (discWord j tick k)

/-- One analog side that meets its own bounds.  It only shows that the type of `Config.analog` has an
element, as Lean asks of an opaque constant; nothing says that `Config.analog` is this one. -/
def Config.someAnalog : Config.Analog where
  epsMod := 1
  epsMod_pos := one_pos
  epsDisc := 2 ^ 33
  epsDisc_pos := by positivity
  epsTap := 0
  epsTap_nonneg := le_refl 0
  modWords := fun _ _ _ => (0, 0)
  modWords_within := fun _ _ _ =>
    ⟨(Machine.near_zero_word _ _ (Real.abs_cos_le_one _)).within,
      (Machine.near_zero_word _ _ (Real.abs_sin_le_one _)).within⟩
  discWord := fun _ _ _ => 0
  discWord_within := fun j _ k => (Machine.near_zero_word _ _ (j.abs_ideal_le k)).within

/-- FREE VALUE: the analog side of the implementation, of which nothing is known but what its type
says (notes/assumptions/2.md). -/
opaque Config.analog [Inhabited Config.Analog] : Config.Analog

/-- The implementation's analog side. -/
def Config.hw : Config.Analog := @Config.analog ⟨Config.someAnalog⟩

end Sys2Proof
end

