-- ==== Sys2Proof/Machine/State.lean ====
section
/-! DEFINITION. The state of AIS-CORE (spec/10_state.md R19 to R50, spec/20_memory.md R52, R53), its faults and
refusals, and the state after reset (spec/70_reset_and_hazards.md R189). -/

namespace Sys2Proof.Machine

/-- The six buffers (R53). -/
inductive BufferId where
  | inp
  | out
  | chr
  | sin
  | sout
  | disc
  deriving DecidableEq, Repr

/-- A buffer: the (index, value) pairs of its WRITTEN elements, indices strictly rising.  An element
whose written flag is clear (R22) is not listed and holds no value (R63). -/
abbrev Buf (α : Type) := List (Nat × α)

/-- The buffers (R53).  IN and OUT hold bits, CHR holds characters (its cells are `Host.Cell`s), DISC holds
binary32 words.  SIN and SOUT hold the words of their windows in order: word 2n is I of sample n, word
2n + 1 is Q (R60); sample n's written flag is set when both are listed. -/
structure Memory where
  inp : Buf Bool
  out : Buf Bool
  chr : Buf Byte
  sin : Buf Word
  sout : Buf Word
  disc : Buf Word
  deriving DecidableEq, Repr

/-- CAP_BITS, CAP_CHR and CAP_SMP: the build's capacities (R7, R25). -/
structure Caps where
  bits : Word
  chr : Word
  smp : Word
  deriving DecidableEq, Repr

/-- The configuration registers of R28 to R37. -/
structure Cfg where
  /-- CONFIG[4:0] (R28). -/
  config : BitVec 5
  /-- CRC_XOROUT[15:0] (R29). -/
  crcXorout : BitVec 16
  sampleRate : Word
  symbolRate : Word
  btX100 : Word
  gaussSpan : Word
  fskDevHz : Word
  trainSpan : Word
  trainMinAgree : Word
  flagMinAgree : Word
  acqThreshold : Word
  acqWindow : Word
  searchStart : Word
  deriving DecidableEq, Repr

/-- The vessel-state registers VS_MMSI … VS_TS (R49). -/
structure Vessel where
  mmsi : Word
  nav : Word
  sog : Word
  lon : Word
  lat : Word
  cog : Word
  hdg : Word
  ts : Word
  deriving DecidableEq, Repr

/-- The acquisition results ACQ_LAG, ACQ_SCORE, ACQ_OFFSET, ACQ_POLARITY[0] (R48). -/
structure Acq where
  lag : Word
  score : Word
  offset : Word
  polarity : Bool
  deriving DecidableEq, Repr

/-- FRAME_START, PAYLOAD_START and PAYLOAD_END (R46). -/
structure FramePos where
  frameStart : Word
  payloadStart : Word
  payloadEnd : Word
  deriving DecidableEq, Repr

/-- The registers RX_TYPE … RX_RADIO (R50). -/
structure Report where
  type : Word
  repeatInd : Word
  mmsi : Word
  nav : Word
  rot : Word
  sog : Word
  pa : Word
  lon : Word
  lat : Word
  cog : Word
  hdg : Word
  ts : Word
  man : Word
  spare : Word
  raim : Word
  radio : Word
  deriving DecidableEq, Repr

/-- What the outside does to the register port (R18, R54, R188): a read or a write of `width` bits at a
19-bit byte address (R52), or the platform's reset signal (R191). -/
inductive HostAction where
  | read (addr : BitVec 19) (width : Nat)
  | write (addr : BitVec 19) (width : Nat) (data : Word)
  | reset
  deriving DecidableEq, Repr

/-- The state of AIS-CORE.  Every field but the last three is the spec's.  ID is a constant and CRC_OUT a
view (R24, R41), so neither is a field. -/
structure State where
  caps : Caps
  /-- CMD: the last word written (R26). -/
  cmd : Word
  /-- STATUS: ERR 7:0, DETAIL 15:8, DONE 16, BUSY 17 (R27). -/
  status : Word
  cfg : Cfg
  inLen : Word
  outLen : Word
  chrLen : Word
  sinLen : Word
  soutLen : Word
  discLen : Word
  /-- FILL_BITS[2:0] (R39). -/
  fillBits : BitVec 3
  /-- CRC_REG[15:0] (R40). -/
  crcReg : BitVec 16
  /-- STUFF_CNT[2:0] (R42). -/
  stuffCnt : BitVec 3
  /-- DESTUFF_CNT[2:0] (R42). -/
  destuffCnt : BitVec 3
  /-- NRZI_ENC_LEVEL[0] (R43). -/
  nrziEncLevel : Bool
  /-- NRZI_DEC_PREV[0] (R43). -/
  nrziDecPrev : Bool
  /-- CRC_VALUE[15:0] (R45). -/
  crcValue : BitVec 16
  /-- CRC_RX[15:0] (R45). -/
  crcRx : BitVec 16
  /-- FLAG_POS (R46). -/
  flagPos : Word
  framePos : FramePos
  /-- RESULT (R47). -/
  result : Word
  acq : Acq
  vs : Vessel
  rx : Report
  mem : Memory
  /-- THE MODEL'S OWN: the host's accesses still to come, in the order the port serialises them (R66). -/
  port : List HostAction
  /-- THE MODEL'S OWN: the value the last host read returned to the host, if there was one. -/
  rdata : Option Word
  /-- THE MODEL'S OWN: how many words have been written to CMD; it keys the free values of Config. -/
  tick : Nat
  deriving DecidableEq, Repr

/-- Why the machine stops.  Each is a model fault of R177: it stands for host behaviour that the hardware
does not define, is never cleared, and the faulted run has no further meaning. -/
inductive Fault where
  /-- A host access that is not 32 bits wide (R54).  Raised by the port.  Safe: the machine stops. -/
  | busWidth (width : Nat)
  /-- A host access at an address that is not a multiple of 4 (R54).  Raised by the port.  Safe. -/
  | busMisaligned (addr : BitVec 19)
  /-- A host access to an unmapped address (R52, R55).  Raised by the port.  Safe. -/
  | busUnmapped (addr : BitVec 19)
  /-- A host window read, or a command's read, of the element `i` of a buffer whose written flag is clear
  (R63).  Raised by the port and by every command that reads a buffer.  Safe. -/
  | unwritten (b : BufferId) (i : Nat)
  deriving DecidableEq, Repr

/-- Why a command has no meaning.  Every legal command of the spec has one (R188), so no arm of exec uses
it; an illegal word is no refusal but an error in STATUS (R76). -/
inductive Refusal where
  /-- A command that the model gives no meaning yet.  Raised by exec's arms only.  Safe. -/
  | notModelled (mnemonic : String)
  deriving DecidableEq, Repr

/-- No buffer element written (R189.4). -/
def Memory.empty : Memory :=
  { inp := [], out := [], chr := [], sin := [], sout := [], disc := [] }

/-- The build parameters of the spec's build (R7). -/
def Caps.build : Caps :=
  { bits := BitVec.ofNat 32 Config.bitCap, chr := BitVec.ofNat 32 Config.chrCap,
    smp := BitVec.ofNat 32 Config.smpCap }

/-- The reset values of the configuration registers (R23). -/
def Cfg.reset : Cfg :=
  { config := 0x0D, crcXorout := 0, sampleRate := 48000, symbolRate := 9600, btX100 := 40, gaussSpan := 4,
    fskDevHz := 2400, trainSpan := 40, trainMinAgree := 21, flagMinAgree := 6, acqThreshold := 0x6000,
    acqWindow := 4096, searchStart := 0 }

/-- The state after reset (R189), of a build with the given capacities. -/
def State.resetOf (caps : Caps) : State :=
  { caps := caps, cmd := 0, status := 0, cfg := Cfg.reset,
    inLen := 0, outLen := 0, chrLen := 0, sinLen := 0, soutLen := 0, discLen := 0, fillBits := 0,
    crcReg := 0xFFFF, stuffCnt := 0, destuffCnt := 0, nrziEncLevel := true, nrziDecPrev := true,
    crcValue := 0, crcRx := 0, flagPos := 0,
    framePos := { frameStart := 0, payloadStart := 0, payloadEnd := 0 }, result := 0,
    acq := { lag := 0, score := 0, offset := 0, polarity := false },
    vs := { mmsi := 0, nav := 0, sog := 0, lon := 0, lat := 0, cog := 0, hdg := 0, ts := 0 },
    rx := { type := 0, repeatInd := 0, mmsi := 0, nav := 0, rot := 0, sog := 0, pa := 0, lon := 0, lat := 0,
            cog := 0, hdg := 0, ts := 0, man := 0, spare := 0, raim := 0, radio := 0 },
    mem := Memory.empty, port := [], rdata := none, tick := 0 }

/-- The machine right after reset (R189): no host access has been made (R191, R194). -/
def State.reset : State := State.resetOf Caps.build

end Sys2Proof.Machine
end

