-- ==== Sys2Proof/Machine/Flags.lean ====
section
/-! DEFINITION. The STATUS register and the typed errors it reports (spec/10_state.md R27,
spec/60_exceptions.md R168 to R171). -/

namespace Sys2Proof.Machine

/-- The errors of R170, one constructor per (ERR, DETAIL) row; `unsupportedType` carries the message type. -/
inductive CmdError where
  | spsNonInteger
  | btRange
  | spanRange
  | fskDevRange
  | vsMmsi
  | vsNav
  | vsLon
  | vsLat
  | vsCog
  | vsHdg
  | lenNotMult8
  | invalidChar
  | fillRange
  | thresholdRange
  | nonfiniteSample
  | belowMinimum
  | payloadTruncated
  | endFlagTruncated
  | inputTooShort
  | training
  | startFlag
  | endFlag
  | search
  | noPeak
  | tooShort
  | crcMismatch
  | destuffViolation
  | crcBitByte
  | loopback
  | unsupportedType (type : Byte)
  | capBits
  | capChr
  | capSamples
  | badOpcode
  | rsvNonzero
  | immNonzero
  | fNonzero
  deriving DecidableEq, Repr

/-- STATUS.ERR of an error (R169, R170). -/
def CmdError.err : CmdError → Byte
  | .spsNonInteger | .btRange | .spanRange | .fskDevRange => 1
  | .vsMmsi | .vsNav | .vsLon | .vsLat | .vsCog | .vsHdg => 1
  | .lenNotMult8 | .invalidChar | .fillRange | .thresholdRange | .nonfiniteSample => 1
  | .belowMinimum | .payloadTruncated | .endFlagTruncated | .inputTooShort => 2
  | .training | .startFlag | .endFlag | .search => 3
  | .noPeak | .tooShort => 4
  | .crcMismatch | .destuffViolation => 5
  | .crcBitByte | .loopback => 6
  | .unsupportedType _ => 7
  | .capBits | .capChr | .capSamples => 8
  | .badOpcode | .rsvNonzero | .immNonzero | .fNonzero => 9

/-- STATUS.DETAIL of an error (R170). -/
def CmdError.detail : CmdError → Byte
  | .spsNonInteger => 0x01
  | .btRange => 0x02
  | .spanRange => 0x03
  | .fskDevRange => 0x04
  | .vsMmsi => 0x05
  | .vsNav => 0x06
  | .vsLon => 0x07
  | .vsLat => 0x08
  | .vsCog => 0x09
  | .vsHdg => 0x0A
  | .lenNotMult8 => 0x0B
  | .invalidChar => 0x0C
  | .fillRange => 0x0D
  | .thresholdRange => 0x0E
  | .nonfiniteSample => 0x0F
  | .belowMinimum => 0x01
  | .payloadTruncated => 0x02
  | .endFlagTruncated => 0x03
  | .inputTooShort => 0x04
  | .training => 0x01
  | .startFlag => 0x02
  | .endFlag => 0x03
  | .search => 0x04
  | .noPeak => 0x01
  | .tooShort => 0x02
  | .crcMismatch => 0x01
  | .destuffViolation => 0x02
  | .crcBitByte => 0x01
  | .loopback => 0x02
  | .unsupportedType t => t
  | .capBits => 0x01
  | .capChr => 0x02
  | .capSamples => 0x03
  | .badOpcode => 0x01
  | .rsvNonzero => 0x02
  | .immNonzero => 0x03
  | .fNonzero => 0x04

/-- The STATUS word after a command that ends with (err, detail): DONE = 1, BUSY = 0, the reserved bits 0
(R27, R171, R172). -/
def statusWord (err detail : Byte) : Word :=
  err.setWidth 32 ||| (detail.setWidth 32 <<< 8) ||| 0x00010000

/-- STATUS after a command that completed without error (R171). -/
def statusOk : Word := statusWord 0 0

/-- STATUS after a command that raised an error (R172). -/
def CmdError.status (e : CmdError) : Word := statusWord e.err e.detail

/-- STATUS.ERR (R27). -/
def State.statusErr (s : State) : Byte := s.status.extractLsb' 0 8

/-- STATUS.DETAIL (R27). -/
def State.statusDetail (s : State) : Byte := s.status.extractLsb' 8 8

/-- STATUS.DONE (R27). -/
def State.statusDone (s : State) : Bool := s.status.getLsbD 16

/-- STATUS.BUSY (R27). -/
def State.statusBusy (s : State) : Bool := s.status.getLsbD 17

/-- The error of an illegal command word (R76). -/
def illegalError : Illegal → CmdError
  | .badOpcode => .badOpcode
  | .rsvNonzero => .rsvNonzero
  | .immNonzero => .immNonzero
  | .fNonzero => .fNonzero

end Sys2Proof.Machine
end

