-- ==== Sys2Proof/Machine/Ops.lean ====
section
/-! DEFINITION. The shared operations over buffers and registers, and how a command ends: by committing its
writes or by raising a typed error (spec/20_memory.md R63, R64; spec/60_exceptions.md R168 to R180). -/

namespace Sys2Proof.Machine

/-! ### Buffers (R22, R63, R64) -/

/-- The element i of a buffer, if its written flag is set. -/
def bufGet {α : Type} : Buf α → Nat → Option α
  | [], _ => none
  | (k, v) :: t, i => if k = i then some v else bufGet t i

/-- Write the elements `B[base..base+len)` and set their written flags; every other element stays as it was and
the indices stay strictly rising (R64). -/
def bufPut {α : Type} (b : Buf α) (base : Nat) (xs : List α) : Buf α :=
  b.filter (fun p => p.1 < base) ++ (List.range' base xs.length).zip xs ++
    b.filter (fun p => base + xs.length ≤ p.1)

/-- Write one element and set its written flag. -/
def bufSet {α : Type} (b : Buf α) (i : Nat) (v : α) : Buf α := bufPut b i [v]

/-- The canonical form of a buffer of `cap` elements: indices strictly rising, all below the capacity. -/
abbrev Buf.wf {α : Type} (cap : Nat) (b : Buf α) : Prop :=
  b.Pairwise (fun p q => p.1 < q.1) ∧ ∀ p ∈ b, p.1 < cap

/-- The canonical form of the six buffers; a sample buffer has two words for each sample. -/
abbrev Memory.wf (c : Caps) (m : Memory) : Prop :=
  Buf.wf c.bits.toNat m.inp ∧ Buf.wf c.bits.toNat m.out ∧ Buf.wf c.chr.toNat m.chr ∧
    Buf.wf (2 * c.smp.toNat) m.sin ∧ Buf.wf (2 * c.smp.toNat) m.sout ∧ Buf.wf c.smp.toNat m.disc

/-- Sample n of a sample buffer: it holds a value when both of its words are written (R60). -/
def sampleGet (b : Buf Word) (n : Nat) : Option Sample :=
  match bufGet b (2 * n), bufGet b (2 * n + 1) with
  | some i, some q => some (i, q)
  | _, _ => none

/-- Samples as the words of their window, I before Q (R60). -/
def interleave (zs : List Sample) : List Word :=
  zs.flatMap (fun z => [z.1, z.2])

/-! ### How a command runs -/

/-- Why a command ends before its writes: a typed error (R168), or a model fault (R177). -/
inductive Stop where
  | raise (e : CmdError)
  | fault (f : Fault)
  deriving DecidableEq, Repr

/-- A command's computation: its value, or why it ends early. -/
abbrev Cmd (α : Type) := Except Stop α

/-- `raise E(d)` (R15). -/
def raise {α : Type} (e : CmdError) : Cmd α := .error (.raise e)

/-- A check: raise e unless the condition holds (R175). -/
def require (c : Bool) (e : CmdError) : Cmd Unit :=
  if c then .ok () else raise e

/-- The element i of a buffer, or the model fault of an element that holds no value (R63). -/
def held {α : Type} (id : BufferId) (b : Buf α) (i : Nat) : Except Fault α :=
  match bufGet b i with
  | some v => .ok v
  | none => .error (.unwritten id i)

/-- Sample n of a sample buffer, or the model fault of a sample that holds no value (R60, R63). -/
def heldSample (id : BufferId) (b : Buf Word) (n : Nat) : Except Fault Sample :=
  match sampleGet b n with
  | some z => .ok z
  | none => .error (.unwritten id n)

/-- A read inside a command: its model fault ends the command without an outcome (R63). -/
def lift {α : Type} : Except Fault α → Cmd α
  | .ok v => .ok v
  | .error f => .error (.fault f)

/-- `MemRead(B, i)` (R14, R63). -/
def memRead {α : Type} (id : BufferId) (b : Buf α) (i : Nat) : Cmd α := lift (held id b i)

/-- `MemRead` of a whole sample (R60, R65). -/
def sampleRead (id : BufferId) (b : Buf Word) (n : Nat) : Cmd Sample := lift (heldSample id b n)

/-- The sequence `get i, …, get (i+n−1)`, read in order (R14). -/
def readSeq {ε α : Type} (get : Nat → Except ε α) (i : Nat) : Nat → Except ε (List α)
  | 0 => .ok []
  | n + 1 => do
    let v ← get i
    let vs ← readSeq get (i + 1) n
    .ok (v :: vs)

/-- What elements 0 … n−1 of a buffer hold, for the commands that read only some of them (R114). -/
def snapshot {α : Type} (b : Buf α) (n : Nat) : List (Option α) :=
  (List.range n).map (bufGet b)

/-! ### How a command ends -/

/-- Write STATUS (R27). -/
def State.setStatus (s : State) (w : Word) : State := { s with status := w }

/-- THE ENTRY OF AN ERROR (R168, R172, R179): the pair goes to STATUS, DONE becomes 1, and nothing else of
the state changes.  No state is saved, no handler is entered and there is nothing to return to (R180). -/
def raiseError (s : State) (e : CmdError) : Host.Outcome State Fault Refusal :=
  .next (s.setStatus e.status)

/-- THE RETURN FROM AN ERROR (R180): there is no return instruction; the next command that completes writes
STATUS with ERR = 0 and DETAIL = 0 (R171, R176), and that is the completion of every command. -/
def complete (s : State) : Host.Outcome State Fault Refusal :=
  .next (s.setStatus statusOk)

/-- All or nothing (R172): the command's whole result is committed, or only its error, or the model stops. -/
def commit (s : State) (r : Cmd State) : Host.Outcome State Fault Refusal :=
  match r with
  | .ok s' => complete s'
  | .error (.raise e) => raiseError s e
  | .error (.fault f) => .fault f

/-! ### Register writes of the buffer-producing commands (R64) -/

/-- Write the bits of OUT from `base` upward and set OUT_LEN to their end. -/
def State.putOut (s : State) (base : Nat) (bits : Bits) : State :=
  { s with mem := { s.mem with out := bufPut s.mem.out base bits },
           outLen := BitVec.ofNat 32 (base + bits.length) }

/-- Write the bits of IN from 0 and set IN_LEN. -/
def State.putIn (s : State) (bits : Bits) : State :=
  { s with mem := { s.mem with inp := bufPut s.mem.inp 0 bits }, inLen := BitVec.ofNat 32 bits.length }

/-- Write the characters of CHR from 0 and set CHR_LEN. -/
def State.putChr (s : State) (cs : List Byte) : State :=
  { s with mem := { s.mem with chr := bufPut s.mem.chr 0 cs }, chrLen := BitVec.ofNat 32 cs.length }

/-- Write the samples of SIN from 0 and set SIN_LEN. -/
def State.putSin (s : State) (zs : List Sample) : State :=
  { s with mem := { s.mem with sin := bufPut s.mem.sin 0 (interleave zs) },
           sinLen := BitVec.ofNat 32 zs.length }

/-- Write the samples of SOUT from 0 and set SOUT_LEN. -/
def State.putSout (s : State) (zs : List Sample) : State :=
  { s with mem := { s.mem with sout := bufPut s.mem.sout 0 (interleave zs) },
           soutLen := BitVec.ofNat 32 zs.length }

/-- Write the words of DISC from 0 and set DISC_LEN. -/
def State.putDisc (s : State) (ws : List Word) : State :=
  { s with mem := { s.mem with disc := bufPut s.mem.disc 0 ws }, discLen := BitVec.ofNat 32 ws.length }

/-! ### Capacities (R7, R174) -/

/-- BIT_CAP. -/
def State.bitCap (s : State) : Nat := s.caps.bits.toNat

/-- CHR_CAP. -/
def State.chrCap (s : State) : Nat := s.caps.chr.toNat

/-- SMP_CAP. -/
def State.smpCap (s : State) : Nat := s.caps.smp.toNat

/-- CapacityExceeded when a result of n elements does not fit (R174). -/
def fits (n cap : Nat) (e : CmdError) : Cmd Unit := require (n ≤ cap) e

end Sys2Proof.Machine
end

