-- ==== Sys2Proof/Machine/Operands.lean ====
section
/-! DEFINITION. The operand forms of the commands: the immediate forms of spec/30_encoding.md R74, the input
sequences of spec/20_memory.md R64, and the configuration values the rules name. -/

namespace Sys2Proof.Machine

/-! ### Immediates (R74) -/

/-- CMD-B: the input bit is IMM8[0]. -/
def immBit (imm : Byte) : Bool := imm.getLsbD 0

/-- CMD-I6: the value is IMM8[5:0]. -/
def immSix (imm : Byte) : Nat := (imm.extractLsb' 0 6).toNat

/-! ### Input buffers (R64): `B[0..B_LEN)` -/

/-- `IN[0..n)`. -/
def State.inFirst (s : State) (n : Nat) : Cmd Bits := readSeq (memRead .inp s.mem.inp) 0 n

/-- `IN[0..IN_LEN)`. -/
def State.inBits (s : State) : Cmd Bits := s.inFirst s.inLen.toNat

/-- `OUT[0..OUT_LEN)`. -/
def State.outBits (s : State) : Cmd Bits := readSeq (memRead .out s.mem.out) 0 s.outLen.toNat

/-- `CHR[0..CHR_LEN)`. -/
def State.chars (s : State) : Cmd (List Byte) := readSeq (memRead .chr s.mem.chr) 0 s.chrLen.toNat

/-- `SIN[0..SIN_LEN)`. -/
def State.sinSamples (s : State) : Cmd (List Sample) :=
  readSeq (sampleRead .sin s.mem.sin) 0 s.sinLen.toNat

/-- `SOUT[0..SOUT_LEN)`. -/
def State.soutSamples (s : State) : Cmd (List Sample) :=
  readSeq (sampleRead .sout s.mem.sout) 0 s.soutLen.toNat

/-- `DISC[0..DISC_LEN)`. -/
def State.discWords (s : State) : Cmd (List Word) :=
  readSeq (memRead .disc s.mem.disc) 0 s.discLen.toNat

/-- `IN[0..IN_LEN)` as it stands, for the searches that read only part of it (R114, R121). -/
def State.inSnapshot (s : State) : List (Option Bool) := snapshot s.mem.inp s.inLen.toNat

/-! ### Configuration fields (R28, R30) -/

/-- NI = CONFIG.NRZI_INIT. -/
def Cfg.nrziInit (c : Cfg) : Bool := c.config.getLsbD 0

/-- CONFIG.PROFILE = 0, the GMSK profile. -/
def Cfg.gmsk (c : Cfg) : Bool := !c.config.getLsbD 1

/-- CONFIG.BUFFER_BITS. -/
def Cfg.bufferBits (c : Cfg) : Bool := c.config.getLsbD 2

/-- CONFIG.DC_REMOVE. -/
def Cfg.dcRemove (c : Cfg) : Bool := c.config.getLsbD 3

/-- CONFIG.LPF_EN. -/
def Cfg.lpfEn (c : Cfg) : Bool := c.config.getLsbD 4

/-- `s32(w)` (R11). -/
def s32 (w : Word) : Int := w.toInt

/-- `sps_check()` (R146, R173). -/
def spsCheck (c : Cfg) : Cmd Nat := do
  require (c.symbolRate.toNat ≠ 0 && c.sampleRate.toNat % c.symbolRate.toNat = 0) .spsNonInteger
  let sps := c.sampleRate.toNat / c.symbolRate.toNat
  require (sps ≠ 0) .spsNonInteger
  .ok sps

/-- The checks of BT_X100 and GAUSS_SPAN, in this order (R147, R156). -/
def filterCheck (c : Cfg) : Cmd Unit := do
  require (1 ≤ c.btX100.toNat && c.btX100.toNat ≤ 100) .btRange
  require (c.gaussSpan.toNat = 3 || c.gaussSpan.toNat = 4) .spanRange

/-- The check of FSK_DEV_HZ (R33). -/
def fskCheck (c : Cfg) : Cmd Unit := require (c.fskDevHz.toNat ≠ 0) .fskDevRange

end Sys2Proof.Machine
end

