-- ==== Sys2Proof/Machine/Codec.lean ====
section
/-! DEFINITION. The AIS message codec: the Type 1/2/3 position report and the 6-bit armor
(spec/44_ais_codec.md). -/

namespace Sys2Proof.Machine

/-! ### The position report (R134 to R136) -/

/-- The sixteen fields of a report, longitude and latitude signed (R134). -/
structure PosFields where
  type : Nat
  repeatInd : Nat
  mmsi : Nat
  nav : Nat
  rot : Nat
  sog : Nat
  pa : Nat
  lon : Int
  lat : Int
  cog : Nat
  hdg : Nat
  ts : Nat
  man : Nat
  spare : Nat
  raim : Nat
  radio : Nat
  deriving DecidableEq, Repr

/-- The checks of `pos_encode()`, in their order (R135). -/
def posCheck (v : Vessel) : Cmd Unit := do
  require (100000000 ≤ v.mmsi.toNat && v.mmsi.toNat ≤ 999999999) .vsMmsi
  require (v.nav.toNat ≤ 15) .vsNav
  require (-108000000 ≤ s32 v.lon && s32 v.lon ≤ 108000000) .vsLon
  require (-54000000 ≤ s32 v.lat && s32 v.lat ≤ 54000000) .vsLat
  require (v.cog.toNat ≤ 3600) .vsCog
  require (v.hdg.toNat ≤ 359 || v.hdg.toNat = 511) .vsHdg

/-- The 168 bits that `pos_encode()` packs (R135). -/
def posBits (v : Vessel) : Bits :=
  ubits 6 1 ++ ubits 2 0 ++ ubits 30 v.mmsi.toNat ++ ubits 4 v.nav.toNat
    ++ ubits 8 128 ++ ubits 10 (min v.sog.toNat 1022) ++ ubits 1 0
    ++ ubitsInt 28 (s32 v.lon) ++ ubitsInt 27 (s32 v.lat)
    ++ ubits 12 v.cog.toNat ++ ubits 9 v.hdg.toNat ++ ubits 6 (v.ts.toNat % 60)
    ++ ubits 2 0 ++ ubits 3 0 ++ ubits 1 0 ++ ubits 19 0

/-- `pos_encode()` (R135). -/
def posEncode (v : Vessel) : Cmd Bits := do
  posCheck v
  .ok (posBits v)

/-- The unsigned field of first bit a and width w (R136). -/
def field (S : Bits) (a w : Nat) : Nat := uval (slice S a (a + w))

/-- The signed field of first bit a and width w (R136). -/
def sfield (S : Bits) (a w : Nat) : Int := sval (slice S a (a + w))

/-- `pos_fields(S)` (R134, R136). -/
def posFields (S : Bits) : PosFields :=
  { type := field S 0 6, repeatInd := field S 6 2, mmsi := field S 8 30, nav := field S 38 4,
    rot := field S 42 8, sog := field S 50 10, pa := field S 60 1, lon := sfield S 61 28,
    lat := sfield S 89 27, cog := field S 116 12, hdg := field S 128 9, ts := field S 137 6,
    man := field S 143 2, spare := field S 145 3, raim := field S 148 1, radio := field S 149 19 }

/-- `expected_fields()` (R88): the "value written" column of R134. -/
def expectedFields (v : Vessel) : PosFields :=
  { type := 1, repeatInd := 0, mmsi := v.mmsi.toNat, nav := v.nav.toNat, rot := 128,
    sog := min v.sog.toNat 1022, pa := 0, lon := s32 v.lon, lat := s32 v.lat, cog := v.cog.toNat,
    hdg := v.hdg.toNat, ts := v.ts.toNat % 60, man := 0, spare := 0, raim := 0, radio := 0 }

/-- The RX registers of the fields: zero-extended, longitude and latitude modulo 2^32 (R50, R141). -/
def PosFields.report (f : PosFields) : Report :=
  { type := BitVec.ofNat 32 f.type, repeatInd := BitVec.ofNat 32 f.repeatInd, mmsi := BitVec.ofNat 32 f.mmsi,
    nav := BitVec.ofNat 32 f.nav, rot := BitVec.ofNat 32 f.rot, sog := BitVec.ofNat 32 f.sog,
    pa := BitVec.ofNat 32 f.pa, lon := BitVec.ofInt 32 f.lon, lat := BitVec.ofInt 32 f.lat,
    cog := BitVec.ofNat 32 f.cog, hdg := BitVec.ofNat 32 f.hdg, ts := BitVec.ofNat 32 f.ts,
    man := BitVec.ofNat 32 f.man, spare := BitVec.ofNat 32 f.spare, raim := BitVec.ofNat 32 f.raim,
    radio := BitVec.ofNat 32 f.radio }

/-- The message-type check of DECODE_POS and RECEIVE (R141, R167). -/
def typeCheck (f : PosFields) : Cmd Unit :=
  require (f.type = 1 || f.type = 2 || f.type = 3) (.unsupportedType (BitVec.ofNat 8 f.type))

/-! ### The 6-bit armor (R138, R139) -/

/-- `six2ascii(v)` (R138). -/
def six2ascii (v : Nat) : Byte := BitVec.ofNat 8 (if v ≤ 39 then v + 48 else v + 56)

/-- `ascii2six(c)`, none where it is invalid (R138). -/
def ascii2six (c : Byte) : Option Nat :=
  if 48 ≤ c.toNat ∧ c.toNat ≤ 87 then some (c.toNat - 48)
  else if 96 ≤ c.toNat ∧ c.toNat ≤ 119 then some (c.toNat - 56)
  else none

/-- A character's 6-bit value, or ConfigurationError(INVALID_CHAR) (R143, R145). -/
def sixOf (c : Byte) : Cmd Nat :=
  match ascii2six c with
  | some v => .ok v
  | none => raise .invalidChar

/-- The fill count of `armor` (R139). -/
def fillOf (n : Nat) : Nat := (6 - n % 6) % 6

/-- The characters of `armor(S)` (R139). -/
def armorChars (S : Bits) : List Byte :=
  let P := S ++ List.replicate (fillOf S.length) false
  (List.range (P.length / 6)).map (fun k => six2ascii (uval (slice P (6 * k) (6 * k + 6))))

/-- `dearmor`'s bits of a list of 6-bit values, before the fill is dropped (R139). -/
def sixBits (vs : List Nat) : Bits := vs.flatMap (ubits 6)

/-- `dearmor(C, f)` over the 6-bit values of C (R139). -/
def dearmorBits (vs : List Nat) (f : Nat) : Bits := (sixBits vs).take (6 * vs.length - f)

/-! ### Commands (R140 to R145) -/

/-- ENCODE_POS (R140). -/
def execEncodePos (s : State) : Host.Outcome State Fault Refusal :=
  commit s do
    let m ← posEncode s.vs
    .ok (s.putOut 0 m)

/-- DECODE_POS (R141). -/
def execDecodePos (s : State) : Host.Outcome State Fault Refusal :=
  commit s do
    require (168 ≤ s.inLen.toNat) .inputTooShort
    let m ← s.inFirst 168
    let f := posFields m
    typeCheck f
    .ok { s with rx := f.report }

/-- SIX2ASCII (R142). -/
def execSix2ascii (imm : Byte) (s : State) : Host.Outcome State Fault Refusal :=
  commit s (.ok { s with result := (six2ascii (immSix imm)).setWidth 32 })

/-- ASCII2SIX (R143). -/
def execAscii2six (imm : Byte) (s : State) : Host.Outcome State Fault Refusal :=
  commit s do
    let v ← sixOf imm
    .ok { s with result := BitVec.ofNat 32 v }

/-- ARMOR (R144). -/
def execArmor (s : State) : Host.Outcome State Fault Refusal :=
  commit s do
    let x ← s.inBits
    let cs := armorChars x
    fits cs.length s.chrCap .capChr
    .ok { s.putChr cs with fillBits := BitVec.ofNat 3 (fillOf x.length) }

/-- The character k of CHR as a 6-bit value, read and checked in one pass (R145). -/
def chrSix (s : State) (k : Nat) : Cmd Nat := do
  let c ← memRead .chr s.mem.chr k
  sixOf c

/-- DEARMOR (R145). -/
def execDearmor (s : State) : Host.Outcome State Fault Refusal :=
  commit s do
    let n := s.chrLen.toNat
    let f := s.fillBits.toNat
    require (f ≤ 5 && !(n = 0 && 0 < f)) .fillRange
    let vs ← readSeq (chrSix s) 0 n
    fits (6 * n - f) s.bitCap .capBits
    .ok (s.putOut 0 (dearmorBits vs f))

end Sys2Proof.Machine
end

