-- ==== Sys2Proof/Machine/Crc.lean ====
section
/-! DEFINITION. The CRC-16-CCITT engine (spec/41_crc.md). -/

namespace Sys2Proof.Machine

/-! ### Functions (R89 to R93) -/

/-- One shift of the register: left by one, and XOR 0x1021 when bit 15 was 1 (R89, R93). -/
def crcShift (t : BitVec 16) : BitVec 16 :=
  if t.getLsbD 15 then (t <<< 1) ^^^ 0x1021 else t <<< 1

/-- `crc_step(r, b)` (R89). -/
def crcStep (r : BitVec 16) (b : Bool) : BitVec 16 :=
  crcShift (r ^^^ (if b then 0x8000 else 0))

/-- `crc_reg(S)` (R90). -/
def crcOfBits (S : Bits) : BitVec 16 := S.foldl crcStep 0xFFFF

/-- `crc16(S)` under a final XOR (R91). -/
def crc16 (xorout : BitVec 16) (S : Bits) : BitVec 16 := crcOfBits S ^^^ xorout

/-- `crc_bytestep(r, B)` (R93). -/
def crcByteStep (r : BitVec 16) (B : Byte) : BitVec 16 :=
  Nat.repeat crcShift 8 (r ^^^ (B.setWidth 16 <<< 8))

/-- The byte-oriented CRC of a byte string (R101, R104). -/
def crc16Bytes (xorout : BitVec 16) (C : List Byte) : BitVec 16 :=
  C.foldl crcByteStep 0xFFFF ^^^ xorout

/-- `m ‖ ubits_16(crc16(m))` (R92, R102, R111). -/
def withCrc (xorout : BitVec 16) (m : Bits) : Bits := m ++ ubits 16 (crc16 xorout m).toNat

/-- The check that a bit length is a multiple of 8 (R80). -/
def mult8Check (n : Nat) : Cmd Unit := require (n % 8 = 0) .lenNotMult8

/-! ### Commands (R97 to R104) -/

/-- CRC_INIT (R97). -/
def execCrcInit (s : State) : Host.Outcome State Fault Refusal :=
  commit s (.ok { s with crcReg := 0xFFFF })

/-- CRC_BIT (R98). -/
def execCrcBit (imm : Byte) (s : State) : Host.Outcome State Fault Refusal :=
  commit s (.ok { s with crcReg := crcStep s.crcReg (immBit imm) })

/-- CRC_BYTE (R99). -/
def execCrcByte (imm : Byte) (s : State) : Host.Outcome State Fault Refusal :=
  commit s (.ok { s with crcReg := crcByteStep s.crcReg imm })

/-- CRC_BUF (R100). -/
def execCrcBuf (s : State) : Host.Outcome State Fault Refusal :=
  commit s do
    let m ← s.inBits
    .ok { s with crcValue := crc16 s.cfg.crcXorout m }

/-- CRC_BUF_BYTES (R101). -/
def execCrcBufBytes (s : State) : Host.Outcome State Fault Refusal :=
  commit s do
    mult8Check s.inLen.toNat
    let m ← s.inBits
    .ok { s with crcValue := crc16Bytes s.cfg.crcXorout (bytesOf m) }

/-- CRC_APPEND (R102). -/
def execCrcAppend (s : State) : Host.Outcome State Fault Refusal :=
  commit s do
    fits (s.inLen.toNat + 16) s.bitCap .capBits
    let m ← s.inBits
    .ok { s.putOut 0 (withCrc s.cfg.crcXorout m) with crcValue := crc16 s.cfg.crcXorout m }

/-- CRC_CHECK (R103). -/
def execCrcCheck (s : State) : Host.Outcome State Fault Refusal :=
  commit s do
    require (16 ≤ s.inLen.toNat) .inputTooShort
    let x ← s.inBits
    let n := s.inLen.toNat - 16
    let c := crc16 s.cfg.crcXorout (x.take n)
    let rx := BitVec.ofNat 16 (uval (x.drop n))
    require (c = rx) .crcMismatch
    .ok { s with crcValue := c, crcRx := rx }

/-- CRC_SELFTEST (R104). -/
def execCrcSelftest (s : State) : Host.Outcome State Fault Refusal :=
  commit s do
    mult8Check s.inLen.toNat
    let m ← s.inBits
    let a := crc16 s.cfg.crcXorout m
    require (a = crc16Bytes s.cfg.crcXorout (bytesOf m)) .crcBitByte
    .ok { s with crcValue := a }

end Sys2Proof.Machine
end

