-- ==== Sys2Proof/Machine/Nrzi.lean ====
section
/-! DEFINITION. The NRZI coder (spec/43_nrzi.md). -/

namespace Sys2Proof.Machine

/-- The level after one encoder bit: a 0 toggles it, a 1 holds it (R125). -/
def nrziNext (level b : Bool) : Bool := if b then level else !level

/-- `nrzi_enc(S, l0)` (R125). -/
def nrziEnc (level : Bool) : Bits → Bits
  | [] => []
  | b :: t => nrziNext level b :: nrziEnc (nrziNext level b) t

/-- `nrzi_dec(Y, l0)` (R126). -/
def nrziDec (prev : Bool) : Bits → Bits
  | [] => []
  | y :: t => (y == prev) :: nrziDec y t

/-- NRZI_RESET (R129). -/
def execNrziReset (s : State) : Host.Outcome State Fault Refusal :=
  commit s (.ok { s with nrziEncLevel := s.cfg.nrziInit, nrziDecPrev := s.cfg.nrziInit })

/-- NRZI_ENC_BIT (R130). -/
def execNrziEncBit (imm : Byte) (s : State) : Host.Outcome State Fault Refusal :=
  commit s do
    fits (s.outLen.toNat + 1) s.bitCap .capBits
    let l := nrziNext s.nrziEncLevel (immBit imm)
    .ok { s.putOut s.outLen.toNat [l] with nrziEncLevel := l }

/-- NRZI_DEC_BIT (R131). -/
def execNrziDecBit (imm : Byte) (s : State) : Host.Outcome State Fault Refusal :=
  commit s do
    fits (s.outLen.toNat + 1) s.bitCap .capBits
    .ok { s.putOut s.outLen.toNat [immBit imm == s.nrziDecPrev] with nrziDecPrev := immBit imm }

/-- NRZI_ENC_BUF (R132). -/
def execNrziEncBuf (s : State) : Host.Outcome State Fault Refusal :=
  commit s do
    let x ← s.inBits
    .ok (s.putOut 0 (nrziEnc s.cfg.nrziInit x))

/-- NRZI_DEC_BUF (R133). -/
def execNrziDecBuf (s : State) : Host.Outcome State Fault Refusal :=
  commit s do
    let y ← s.inBits
    .ok (s.putOut 0 (nrziDec s.cfg.nrziInit y))

end Sys2Proof.Machine
end

