-- ==== Sys2Proof/Machine/Hdlc.lean ====
section
/-! DEFINITION. The HDLC framer: bit stuffing, flag search, frame assembly and disassembly
(spec/42_hdlc.md). -/

namespace Sys2Proof.Machine

/-! ### Constants (R105) -/

/-- TRAIN, the 24 alternating training bits, first bit 0. -/
def trainBits : Bits :=
  [false, true, false, true, false, true, false, true, false, true, false, true,
    false, true, false, true, false, true, false, true, false, true, false, true]

/-- FLAG = 01111110. -/
def flagBits : Bits := [false, true, true, true, true, true, true, false]

/-- BUFFER = 0^8. -/
def bufferBits8 : Bits := List.replicate 8 false

/-! ### Stuffing (R106, R107) -/

/-- `stuff` with the consecutive-ones counter at c (R106). -/
def stuffFrom (c : Nat) : Bits → Bits
  | [] => []
  | true :: t => if c + 1 = 5 then true :: false :: stuffFrom 0 t else true :: stuffFrom (c + 1) t
  | false :: t => false :: stuffFrom 0 t

/-- `stuff(S)` (R106). -/
def stuff (S : Bits) : Bits := stuffFrom 0 S

/-- `destuff` with the 1-run counter at c (R107). -/
def destuffFrom (c : Nat) : Bits → Cmd Bits
  | [] => .ok []
  | b :: t =>
    if c = 5 then
      if b then raise .destuffViolation else destuffFrom 0 t
    else do
      let r ← destuffFrom (if b then c + 1 else 0) t
      .ok (b :: r)

/-- `destuff(S)` (R107). -/
def destuff (S : Bits) : Cmd Bits := destuffFrom 0 S

/-! ### Frames (R110 to R115) -/

/-- `frame_cfg_check()` (R110). -/
def frameCfgCheck (c : Cfg) : Cmd Unit :=
  require
    (1 ≤ c.trainSpan.toNat && (21 ≤ c.trainMinAgree.toNat && c.trainMinAgree.toNat ≤ 24) &&
      (6 ≤ c.flagMinAgree.toNat && c.flagMinAgree.toNat ≤ 8)) .thresholdRange

/-- The coded payload of a frame: `nrzi_enc(stuff(m ‖ crc), NI)` (R111). -/
def frameBody (c : Cfg) (m : Bits) : Bits := nrziEnc c.nrziInit (stuff (withCrc c.crcXorout m))

/-- `frame_bits(m)` (R111). -/
def frameBits (c : Cfg) (m : Bits) : Bits :=
  trainBits ++ flagBits ++ frameBody c m ++ flagBits ++ (if c.bufferBits then bufferBits8 else [])

/-- The on-air bit of index i, a model fault where IN holds no value there (R63). -/
def onAir (i : Nat) : Option Bool → Cmd Bool
  | some b => .ok b
  | none => .error (.fault (.unwritten .inp i))

/-- Element i of an on-air sequence. -/
def airBit (B : List (Option Bool)) (i : Nat) : Cmd Bool := onAir i (B.getD i none)

/-- `B[i..i+n)` of an on-air sequence. -/
def airBits (B : List (Option Bool)) (i n : Nat) : Cmd Bits := readSeq (airBit B) i n

/-- How far the search for the frame start has come: whether some training window matched, and the best
candidate offset with its score (R114). -/
structure Scan where
  foundTrain : Bool
  best : Option (Nat × Nat)
  deriving DecidableEq, Repr

/-- The better of the best candidate so far and offset t of score sc; a tie keeps the smaller offset. -/
def better (best : Option (Nat × Nat)) (t sc : Nat) : Option (Nat × Nat) :=
  match best with
  | none => some (t, sc)
  | some (p, s) => if s < sc then some (t, sc) else some (p, s)

/-- One candidate offset of R114's search. -/
def scanStep (c : Cfg) (B : List (Option Bool)) (a : Scan) (t : Nat) : Cmd Scan := do
  let tr ← airBits B t 24
  if agree tr trainBits < c.trainMinAgree.toNat then .ok a
  else do
    let fl ← airBits B (t + 24) 8
    if agree fl flagBits < c.flagMinAgree.toNat then .ok { a with foundTrain := true }
    else .ok { foundTrain := true, best := better a.best t (agree (tr ++ fl) (trainBits ++ flagBits)) }

/-- R114's search over the offsets `0 … min(TRAIN_SPAN − 1, L − 32)`. -/
def scanFrame (c : Cfg) (B : List (Option Bool)) : Cmd Scan :=
  (List.range (min (c.trainSpan.toNat - 1) (B.length - 32) + 1)).foldlM (scanStep c B)
    { foundTrain := false, best := none }

/-- R114's payload loop from on-air index i, `rest` being the sequence from there: NRZI-decode, then
destuff, until `need` more payload bits are decoded and no stuffed 0 is due.  The result is those bits and
the index after the last bit consumed. -/
def takePayload (prev : Bool) (c need i : Nat) : List (Option Bool) → Cmd (Bits × Nat)
  | [] => if need = 0 ∧ c ≠ 5 then .ok ([], i) else raise .payloadTruncated
  | y :: rest =>
    if need = 0 ∧ c ≠ 5 then .ok ([], i)
    else do
      let y ← onAir i y
      let d := y == prev
      if c = 5 then
        if d then raise .destuffViolation else takePayload y 0 need (i + 1) rest
      else do
        let (pay, e) ← takePayload y (if d then c + 1 else 0) (need - 1) (i + 1) rest
        .ok (d :: pay, e)

/-- What `locate` finds (R114): p, q, e and the payload bits. -/
structure Located where
  p : Nat
  q : Nat
  e : Nat
  pay : Bits
  deriving DecidableEq, Repr

/-- `locate(B)` (R114).  B is given element by element, so that elements the rule never reads may hold no
value. -/
def locate (c : Cfg) (B : List (Option Bool)) : Cmd Located := do
  require (208 ≤ B.length) .belowMinimum
  let a ← scanFrame c B
  match a.best with
  | none => if a.foundTrain then raise .startFlag else raise .training
  | some (p, _) =>
    let q := p + 32
    let (pay, e) ← takePayload c.nrziInit 0 184 q (B.drop q)
    require (e + 8 ≤ B.length) .endFlagTruncated
    let fl ← airBits B e 8
    require (c.flagMinAgree.toNat ≤ agree fl flagBits) .endFlag
    .ok { p := p, q := q, e := e, pay := pay }

/-- What `deframe_fn` returns (R115). -/
structure Deframed where
  msg : Bits
  p : Nat
  q : Nat
  e : Nat
  crc : BitVec 16
  rx : BitVec 16
  deriving DecidableEq, Repr

/-- `deframe_fn(B)` (R115). -/
def deframeFn (c : Cfg) (B : List (Option Bool)) : Cmd Deframed := do
  let l ← locate c B
  let msg := l.pay.take 168
  let crc := crc16 c.crcXorout msg
  let rx := BitVec.ofNat 16 (uval (slice l.pay 168 184))
  require (crc = rx) .crcMismatch
  .ok { msg := msg, p := l.p, q := l.q, e := l.e, crc := crc, rx := rx }

/-- Write FRAME_START, PAYLOAD_START and PAYLOAD_END (R46). -/
def State.putFramePos (s : State) (p q e : Nat) : State :=
  { s with framePos := { frameStart := BitVec.ofNat 32 p, payloadStart := BitVec.ofNat 32 q,
                         payloadEnd := BitVec.ofNat 32 e } }

/-! ### Step commands (R116 to R118) -/

/-- STUFF_RESET (R116). -/
def execStuffReset (s : State) : Host.Outcome State Fault Refusal :=
  commit s (.ok { s with stuffCnt := 0, destuffCnt := 0 })

/-- What STUFF_BIT emits and the counter it leaves (R117). -/
def stuffStep (c : BitVec 3) (b : Bool) : Bits × BitVec 3 :=
  if b then (if c = 4 then ([true, false], 0) else ([true], c + 1)) else ([false], 0)

/-- STUFF_BIT (R117). -/
def execStuffBit (imm : Byte) (s : State) : Host.Outcome State Fault Refusal :=
  commit s do
    let (emit, c) := stuffStep s.stuffCnt (immBit imm)
    fits (s.outLen.toNat + emit.length) s.bitCap .capBits
    .ok { s.putOut s.outLen.toNat emit with stuffCnt := c }

/-- DESTUFF_BIT (R118). -/
def execDestuffBit (imm : Byte) (s : State) : Host.Outcome State Fault Refusal :=
  commit s do
    let b := immBit imm
    if s.destuffCnt = 5 then
      if b then raise .destuffViolation else .ok { s with destuffCnt := 0 }
    else do
      fits (s.outLen.toNat + 1) s.bitCap .capBits
      .ok { s.putOut s.outLen.toNat [b] with destuffCnt := if b then s.destuffCnt + 1 else 0 }

/-! ### Buffer commands (R119 to R124) -/

/-- STUFF_BUF (R119). -/
def execStuffBuf (s : State) : Host.Outcome State Fault Refusal :=
  commit s do
    let x ← s.inBits
    let y := stuff x
    fits y.length s.bitCap .capBits
    .ok (s.putOut 0 y)

/-- DESTUFF_BUF (R120). -/
def execDestuffBuf (s : State) : Host.Outcome State Fault Refusal :=
  commit s do
    let x ← s.inBits
    let y ← destuff x
    .ok (s.putOut 0 y)

/-- The scan of R121 from index i over `n` candidate positions: the first whose 8 bits agree with FLAG in at
least k places. -/
def flagScan (B : List (Option Bool)) (k i : Nat) : Nat → Cmd (Option Nat)
  | 0 => .ok none
  | n + 1 => do
    let w ← airBits B i 8
    if k ≤ agree w flagBits then .ok (some i) else flagScan B k (i + 1) n

/-- `find_flag` from SEARCH_START at k agreements (R121). -/
def findFlagFrom (s : State) (k : Nat) : Cmd (Option Nat) :=
  let start := s.cfg.searchStart.toNat
  flagScan s.inSnapshot k start (s.inLen.toNat + 1 - (start + 8))

/-- How a flag search ends: FLAG_POS takes the position found, or 0xFFFFFFFF together with
FlagNotFound(SEARCH), the one register a failing command writes besides STATUS (R121, R172). -/
def endSearch (s : State) (r : Cmd (Option Nat)) : Host.Outcome State Fault Refusal :=
  match r with
  | .ok (some i) => complete { s with flagPos := BitVec.ofNat 32 i }
  | .ok none => raiseError { s with flagPos := 0xFFFFFFFF } .search
  | .error (.raise e) => raiseError s e
  | .error (.fault f) => .fault f

/-- FIND_FLAG (R121, F = 0). -/
def execFindFlag (s : State) : Host.Outcome State Fault Refusal :=
  endSearch s (findFlagFrom s 8)

/-- FIND_FLAG.FUZZY (R121, F = 1). -/
def execFindFlagFuzzy (s : State) : Host.Outcome State Fault Refusal :=
  endSearch s do
    require (6 ≤ s.cfg.flagMinAgree.toNat && s.cfg.flagMinAgree.toNat ≤ 8) .thresholdRange
    findFlagFrom s s.cfg.flagMinAgree.toNat

/-- BUILD_FRAME (R122). -/
def execBuildFrame (s : State) : Host.Outcome State Fault Refusal :=
  commit s do
    let m ← s.inBits
    let f := frameBits s.cfg m
    fits f.length s.bitCap .capBits
    .ok (s.putOut 0 f)

/-- EXTRACT_PAYLOAD (R123). -/
def execExtractPayload (s : State) : Host.Outcome State Fault Refusal :=
  commit s do
    frameCfgCheck s.cfg
    let l ← locate s.cfg s.inSnapshot
    let body ← airBits s.inSnapshot l.q (l.e - l.q)
    .ok ((s.putOut 0 body).putFramePos l.p l.q l.e)

/-- DEFRAME (R124). -/
def execDeframe (s : State) : Host.Outcome State Fault Refusal :=
  commit s do
    frameCfgCheck s.cfg
    let d ← deframeFn s.cfg s.inSnapshot
    .ok { (s.putOut 0 d.msg).putFramePos d.p d.q d.e with crcValue := d.crc, crcRx := d.rx }

end Sys2Proof.Machine
end

