-- ==== Sys2Proof/Machine/Demod.lean ====
section
/-! DEFINITION. The discriminator, the clock recovery and the receive chain (spec/46_demod.md). -/

namespace Sys2Proof.Machine

/-! ### Discriminator (R156 to R159) -/

/-- `disc_cfg_check()` (R156). -/
def discCfgCheck (c : Cfg) : Cmd Nat := do
  let sps ← spsCheck c
  if c.gmsk then .ok () else fskCheck c
  if c.lpfEn then filterCheck c else .ok ()
  .ok sps

/-- Both words of a sample are finite (R157). -/
def finiteSample (z : Sample) : Bool := finite32 z.1 && finite32 z.2

/-- `finite_check` over the elements read (R157). -/
def finiteCheck {α : Type} (ok : α → Bool) (xs : List α) : Cmd Unit :=
  require (xs.all ok) .nonfiniteSample

/-- The job the discriminator runs on samples (R159). -/
def discJob (c : Cfg) (zs : List Sample) : DiscJob :=
  { gmsk := c.gmsk, dcRemove := c.dcRemove, lpf := c.lpfEn, sampleRate := c.sampleRate,
    symbolRate := c.symbolRate, btX100 := c.btX100, gaussSpan := c.gaussSpan, fskDevHz := c.fskDevHz,
    samples := zs }

/-- The exact value of a sample. -/
def sampleValue (z : Sample) : ℚ × ℚ := (val32 z.1, val32 z.2)

/-- Every sample has the value v. -/
def allValued (v : ℚ × ℚ) (zs : List Sample) : Bool := zs.all (fun z => sampleValue z == v)

/-- The inputs for which R165 states that the output is exactly zero: all samples zero, or constant under DC
removal (every w[k] is 0), or a single sample that no filter follows (D[0] = 0). -/
def quietInput (c : Cfg) (zs : List Sample) : Bool :=
  allValued (0, 0) zs || (c.dcRemove && allValued (sampleValue (zs.headD (0, 0))) zs)
    || (zs.length == 1 && !c.lpfEn)

/-- The N discriminator words that an analog side puts out (R159, R165): a finite word within its NUM_EPS_DISC of
the ideal for each sample, and the zero word where R165 states a zero. -/
def discriminated (hw : Config.Analog) (s : State) (zs : List Sample) : List Word :=
  if quietInput s.cfg zs then List.replicate zs.length 0
  else (List.range zs.length).map (hw.discWord (discJob s.cfg zs) s.tick)

/-! ### Clock recovery (R161 to R164) -/

/-- `acq_cfg_check()` (R161). -/
def acqCfgCheck (c : Cfg) : Cmd Nat := do
  let sps ← spsCheck c
  require (1 ≤ c.acqThreshold.toNat && c.acqThreshold.toNat ≤ 65536 && 1 ≤ c.acqWindow.toNat) .thresholdRange
  .ok sps

/-- The template T: the 32 symbols TRAIN ‖ FLAG, S samples each, 1 as +1 and 0 as −1 (R162). -/
def template (sps : Nat) : List ℚ :=
  (trainBits ++ flagBits).flatMap (fun b => List.replicate sps (if b then 1 else -1))

/-- `off(m)`: the mean of the discriminator over the training part of the window at lag m (R163). -/
def lagOffset (sps : Nat) (D : List ℚ) (m : Nat) : ℚ :=
  ((D.drop m).take (24 * sps)).sum / (24 * sps : Nat)

/-- `c(m)`: the correlation at lag m, less the baseline (R163). -/
def lagScore (sps : Nat) (D : List ℚ) (m : Nat) : ℚ :=
  let o := lagOffset sps D m
  (List.zipWith (fun t d => t * (d - o)) (template sps) (D.drop m)).sum / (32 * sps : Nat)

/-- The score of a polarity hypothesis: g = p·c(m) (R163). -/
def signed (inverted : Bool) (c : ℚ) : ℚ := if inverted then -c else c

/-- R163's test of lag m and a polarity: g passes the threshold, and no lag within one template length has a
larger magnitude.  `cs` lists the scores of the candidate lags. -/
def isPeak (sps : Nat) (θ : ℚ) (cs : List ℚ) (m : Nat) (inverted : Bool) : Bool :=
  let g := signed inverted (cs.getD m 0)
  decide (θ ≤ g) && (slice cs (m - 32 * sps) (m + 32 * sps + 1)).all (fun c => decide (|c| ≤ g))

/-- What `recover` returns (R163): b, m, p, g, o. -/
structure Acquired where
  bits : Bits
  lag : Nat
  inverted : Bool
  score : ℚ
  offset : ℚ
  deriving DecidableEq, Repr

/-- J, the number of symbol centres inside D from lag m on (R163). -/
def symbolCount (sps nd m : Nat) : Nat := (nd - 1 - m - sps / 2) / sps + 1

/-- The hard bits of `slice` (R163). -/
def sliceBits (sps : Nat) (D : List ℚ) (m : Nat) (inverted : Bool) (o : ℚ) : Bits :=
  (List.range (symbolCount sps D.length m)).map
    (fun j => decide (0 < signed inverted (D.getD (m + j * sps + sps / 2) 0 - o)))

/-- The candidates in the order of R163: the earliest lag first, normal polarity first. -/
def candidates (M : Nat) : List (Nat × Bool) :=
  (List.range M).flatMap (fun m => [(m, false), (m, true)])

/-- `recover(D)` (R163), after its configuration check gave S. -/
def recover (c : Cfg) (bitCap sps : Nat) (D : List ℚ) : Cmd Acquired := do
  require (32 * sps ≤ D.length) .tooShort
  let M := min c.acqWindow.toNat (D.length - 32 * sps + 1)
  let cs := (List.range M).map (lagScore sps D)
  let θ : ℚ := (c.acqThreshold.toNat : ℚ) / 65536
  match (candidates M).find? (fun mp => isPeak sps θ cs mp.1 mp.2) with
  | none => raise .noPeak
  | some (m, inverted) =>
    fits (symbolCount sps D.length m) bitCap .capBits
    let o := lagOffset sps D m
    .ok { bits := sliceBits sps D m inverted o, lag := m, inverted := inverted,
          score := signed inverted (cs.getD m 0), offset := o }

/-- ACQ_SCORE: `⌊g·65536⌋` clamped to 32 signed bits (R48, R166). -/
def scoreWord (g : ℚ) : Word := BitVec.ofInt 32 (max (-2 ^ 31) (min (g * 65536).floor (2 ^ 31 - 1)))

/-- The acquisition results (R48, R166). -/
def Acquired.acq (a : Acquired) : Acq :=
  { lag := BitVec.ofNat 32 a.lag, score := scoreWord a.score, offset := rne32 a.offset,
    polarity := a.inverted }

/-! ### Commands (R165 to R167) -/

/-- DEMODULATE (R165). -/
def execDemodulate (s : State) : Host.Outcome State Fault Refusal :=
  commit s do
    let _ ← discCfgCheck s.cfg
    let zs ← s.sinSamples
    finiteCheck finiteSample zs
    .ok (s.putDisc (discriminated Config.hw s zs))

/-- RECOVER_CLOCK (R166). -/
def execRecoverClock (s : State) : Host.Outcome State Fault Refusal :=
  commit s do
    let sps ← acqCfgCheck s.cfg
    let ws ← s.discWords
    finiteCheck finite32 ws
    let a ← recover s.cfg s.bitCap sps (ws.map val32)
    .ok { s.putOut 0 a.bits with acq := a.acq }

/-- The stages of RECEIVE behind the discriminator, and their commit, for the discriminator words ws
(R167). -/
def receiveFrom (s : State) (sps : Nat) (ws : List Word) : Cmd State := do
  let a ← recover s.cfg s.bitCap sps (ws.map val32)
  let d ← deframeFn s.cfg (a.bits.map some)
  let f := posFields d.msg
  typeCheck f
  .ok { (((s.putDisc ws).putOut 0 d.msg).putFramePos d.p d.q d.e) with
        acq := a.acq, crcValue := d.crc, crcRx := d.rx, rx := f.report }

/-- RECEIVE (R167). -/
def execReceive (s : State) : Host.Outcome State Fault Refusal :=
  commit s do
    let sps ← discCfgCheck s.cfg
    let _ ← acqCfgCheck s.cfg
    frameCfgCheck s.cfg
    let zs ← s.sinSamples
    finiteCheck finiteSample zs
    receiveFrom s sps (discriminated Config.hw s zs)

end Sys2Proof.Machine
end

