-- ==== Sys2Proof/Machine/Modulator.lean ====
section
/-! DEFINITION. The GMSK/FSK modulator (spec/45_gmsk_mod.md).  The ideal signal is in Machine/Signal.lean; the
words put out are the free values of Config (R17, R151). -/

namespace Sys2Proof.Machine

/-- `mod_cfg_check()` (R147): the samples per symbol, or the first configuration error. -/
def modCfgCheck (c : Cfg) : Cmd Nat := do
  let sps ← spsCheck c
  if c.gmsk then filterCheck c else fskCheck c
  .ok sps

/-- The job the modulator runs on the bits B (R151). -/
def modJob (c : Cfg) (B : Bits) : ModJob :=
  { gmsk := c.gmsk, sampleRate := c.sampleRate, symbolRate := c.symbolRate, btX100 := c.btX100,
    gaussSpan := c.gaussSpan, fskDevHz := c.fskDevHz, bits := B }

/-- The `N·S` samples of `modulate(B)` that an analog side puts out (R151): for each, a pair of words within
its NUM_EPS_MOD of (cos φ[n], sin φ[n]). -/
def modulated (hw : Config.Analog) (s : State) (B : Bits) (sps : Nat) : List Sample :=
  (List.range (B.length * sps)).map (hw.modWords (modJob s.cfg B) s.tick)

/-- MODULATE (R154). -/
def execModulate (s : State) : Host.Outcome State Fault Refusal :=
  commit s do
    let sps ← modCfgCheck s.cfg
    fits (s.inLen.toNat * sps) s.smpCap .capSamples
    let B ← s.inBits
    .ok (s.putSout (modulated Config.hw s B sps))

/-- TRANSMIT (R155). -/
def execTransmit (s : State) : Host.Outcome State Fault Refusal :=
  commit s do
    let sps ← modCfgCheck s.cfg
    let m ← posEncode s.vs
    let f := frameBits s.cfg m
    fits f.length s.bitCap .capBits
    fits (f.length * sps) s.smpCap .capSamples
    .ok ((s.putOut 0 f).putSout (modulated Config.hw s f sps))

end Sys2Proof.Machine
end

