-- ==== Sys2Proof/Machine/System.lean ====
section
/-! DEFINITION. The BitVector unit and the system commands (spec/40_bitvector_system.md). -/

namespace Sys2Proof.Machine

/-- NOP (R82). -/
def execNop (s : State) : Host.Outcome State Fault Refusal := commit s (.ok s)

/-- MOVE_OUT_IN (R83). -/
def execMoveOutIn (s : State) : Host.Outcome State Fault Refusal :=
  commit s do
    let t ← s.outBits
    .ok (s.putIn t)

/-- MOVE_SOUT_SIN (R84). -/
def execMoveSoutSin (s : State) : Host.Outcome State Fault Refusal :=
  commit s do
    let t ← s.soutSamples
    .ok (s.putSin t)

/-- PACK_BYTES (R85). -/
def execPackBytes (s : State) : Host.Outcome State Fault Refusal :=
  commit s do
    mult8Check s.inLen.toNat
    fits (s.inLen.toNat / 8) s.chrCap .capChr
    let x ← s.inBits
    .ok (s.putChr (bytesOf x))

/-- UNPACK_BYTES (R86). -/
def execUnpackBytes (s : State) : Host.Outcome State Fault Refusal :=
  commit s do
    fits (8 * s.chrLen.toNat) s.bitCap .capBits
    let cs ← s.chars
    .ok (s.putOut 0 (bitsOfBytes cs))

/-- The bits with each 8-bit group reversed: element `8k + j` is element `8k + 7 − j` (R87). -/
def reverseGroups (x : Bits) : Bits :=
  (List.range x.length).map (fun i => x.getD (8 * (i / 8) + (7 - i % 8)) false)

/-- REVERSE_BYTES (R87). -/
def execReverseBytes (s : State) : Host.Outcome State Fault Refusal :=
  commit s do
    mult8Check s.inLen.toNat
    let x ← s.inBits
    .ok (s.putOut 0 (reverseGroups x))

/-- The loopback comparison of R88: a deframing failure or a different report is
ProtocolInconsistency(LOOPBACK). -/
def loopbackCheck (c : Cfg) (v : Vessel) (fr : Bits) : Cmd Unit :=
  match deframeFn c (fr.map some) with
  | .error (.fault f) => .error (.fault f)
  | .error (.raise _) => raise .loopback
  | .ok d => require (posFields d.msg = expectedFields v) .loopback

/-- SELFTEST_LOOPBACK (R88). -/
def execSelftestLoopback (s : State) : Host.Outcome State Fault Refusal :=
  commit s do
    let m ← posEncode s.vs
    let fr := frameBits s.cfg m
    frameCfgCheck s.cfg
    loopbackCheck s.cfg s.vs fr
    .ok s

end Sys2Proof.Machine
end

