-- ==== Sys2Proof/Machine/Dispatch.lean ====
section
/-! DEFINITION. The dispatch of the commands to their meanings, in the order of spec/opcode_table.json. -/

namespace Sys2Proof.Machine

/-- What a legal command does (30_encoding.md R75). -/
def exec (i : Instr) (s : State) : Host.Outcome State Fault Refusal :=
  match i with
  | .nop => Sys2Proof.Machine.execNop s
  | .moveOutIn => Sys2Proof.Machine.execMoveOutIn s
  | .moveSoutSin => Sys2Proof.Machine.execMoveSoutSin s
  | .packBytes => Sys2Proof.Machine.execPackBytes s
  | .unpackBytes => Sys2Proof.Machine.execUnpackBytes s
  | .reverseBytes => Sys2Proof.Machine.execReverseBytes s
  | .selftestLoopback => Sys2Proof.Machine.execSelftestLoopback s
  | .crcInit => Sys2Proof.Machine.execCrcInit s
  | .crcBit imm => Sys2Proof.Machine.execCrcBit imm s
  | .crcByte imm => Sys2Proof.Machine.execCrcByte imm s
  | .crcBuf => Sys2Proof.Machine.execCrcBuf s
  | .crcBufBytes => Sys2Proof.Machine.execCrcBufBytes s
  | .crcAppend => Sys2Proof.Machine.execCrcAppend s
  | .crcCheck => Sys2Proof.Machine.execCrcCheck s
  | .crcSelftest => Sys2Proof.Machine.execCrcSelftest s
  | .stuffReset => Sys2Proof.Machine.execStuffReset s
  | .stuffBit imm => Sys2Proof.Machine.execStuffBit imm s
  | .destuffBit imm => Sys2Proof.Machine.execDestuffBit imm s
  | .stuffBuf => Sys2Proof.Machine.execStuffBuf s
  | .destuffBuf => Sys2Proof.Machine.execDestuffBuf s
  | .findFlag => Sys2Proof.Machine.execFindFlag s
  | .findFlagFuzzy => Sys2Proof.Machine.execFindFlagFuzzy s
  | .buildFrame => Sys2Proof.Machine.execBuildFrame s
  | .extractPayload => Sys2Proof.Machine.execExtractPayload s
  | .deframe => Sys2Proof.Machine.execDeframe s
  | .nrziReset => Sys2Proof.Machine.execNrziReset s
  | .nrziEncBit imm => Sys2Proof.Machine.execNrziEncBit imm s
  | .nrziDecBit imm => Sys2Proof.Machine.execNrziDecBit imm s
  | .nrziEncBuf => Sys2Proof.Machine.execNrziEncBuf s
  | .nrziDecBuf => Sys2Proof.Machine.execNrziDecBuf s
  | .encodePos => Sys2Proof.Machine.execEncodePos s
  | .decodePos => Sys2Proof.Machine.execDecodePos s
  | .six2ascii imm => Sys2Proof.Machine.execSix2ascii imm s
  | .ascii2six imm => Sys2Proof.Machine.execAscii2six imm s
  | .armor => Sys2Proof.Machine.execArmor s
  | .dearmor => Sys2Proof.Machine.execDearmor s
  | .modulate => Sys2Proof.Machine.execModulate s
  | .transmit => Sys2Proof.Machine.execTransmit s
  | .demodulate => Sys2Proof.Machine.execDemodulate s
  | .recoverClock => Sys2Proof.Machine.execRecoverClock s
  | .receive => Sys2Proof.Machine.execReceive s

end Sys2Proof.Machine
end

