-- ==== Sys2Proof/Machine/Registers.lean ====
section
/-! DEFINITION. The register map (spec/10_state.md R23 to R50): the registers, their offsets, what a host read
returns and what a host write stores. -/

namespace Sys2Proof.Machine

/-- The registers of R23's table, in its order; the RX registers one by one (R50). -/
inductive Reg where
  | id | capBits | capChr | capSmp | cmd | status | config | crcXorout | sampleRate | symbolRate
  | btX100 | gaussSpan | fskDevHz | trainSpan | trainMinAgree | flagMinAgree | acqThreshold | acqWindow
  | searchStart | inLen | outLen | chrLen | sinLen | soutLen | discLen | fillBits
  | crcReg | crcOut | stuffCnt | destuffCnt | nrziEncLevel | nrziDecPrev | crcValue | crcRx
  | flagPos | frameStart | payloadStart | payloadEnd | result | acqLag | acqScore | acqOffset | acqPolarity
  | vsMmsi | vsNav | vsSog | vsLon | vsLat | vsCog | vsHdg | vsTs
  | rxType | rxRepeat | rxMmsi | rxNav | rxRot | rxSog | rxPa | rxLon | rxLat | rxCog | rxHdg | rxTs | rxMan
  | rxSpare | rxRaim | rxRadio
  deriving DecidableEq, Repr

/-- The byte offset of a register (R23, R50). -/
def Reg.offset : Reg → Nat
  | .id => 0x000
  | .capBits => 0x004
  | .capChr => 0x008
  | .capSmp => 0x00C
  | .cmd => 0x010
  | .status => 0x014
  | .config => 0x018
  | .crcXorout => 0x01C
  | .sampleRate => 0x020
  | .symbolRate => 0x024
  | .btX100 => 0x028
  | .gaussSpan => 0x02C
  | .fskDevHz => 0x030
  | .trainSpan => 0x034
  | .trainMinAgree => 0x038
  | .flagMinAgree => 0x03C
  | .acqThreshold => 0x040
  | .acqWindow => 0x044
  | .searchStart => 0x048
  | .inLen => 0x050
  | .outLen => 0x054
  | .chrLen => 0x058
  | .sinLen => 0x05C
  | .soutLen => 0x060
  | .discLen => 0x064
  | .fillBits => 0x068
  | .crcReg => 0x070
  | .crcOut => 0x074
  | .stuffCnt => 0x078
  | .destuffCnt => 0x07C
  | .nrziEncLevel => 0x080
  | .nrziDecPrev => 0x084
  | .crcValue => 0x088
  | .crcRx => 0x08C
  | .flagPos => 0x090
  | .frameStart => 0x094
  | .payloadStart => 0x098
  | .payloadEnd => 0x09C
  | .result => 0x0A0
  | .acqLag => 0x0A4
  | .acqScore => 0x0A8
  | .acqOffset => 0x0AC
  | .acqPolarity => 0x0B0
  | .vsMmsi => 0x0C0
  | .vsNav => 0x0C4
  | .vsSog => 0x0C8
  | .vsLon => 0x0CC
  | .vsLat => 0x0D0
  | .vsCog => 0x0D4
  | .vsHdg => 0x0D8
  | .vsTs => 0x0DC
  | .rxType => 0x100
  | .rxRepeat => 0x104
  | .rxMmsi => 0x108
  | .rxNav => 0x10C
  | .rxRot => 0x110
  | .rxSog => 0x114
  | .rxPa => 0x118
  | .rxLon => 0x11C
  | .rxLat => 0x120
  | .rxCog => 0x124
  | .rxHdg => 0x128
  | .rxTs => 0x12C
  | .rxMan => 0x130
  | .rxSpare => 0x134
  | .rxRaim => 0x138
  | .rxRadio => 0x13C

/-- The identification, command, status and configuration registers. -/
def controlRegs : List Reg :=
  [.id, .capBits, .capChr, .capSmp, .cmd, .status, .config, .crcXorout, .sampleRate, .symbolRate,
    .btX100, .gaussSpan, .fskDevHz, .trainSpan, .trainMinAgree, .flagMinAgree, .acqThreshold, .acqWindow,
    .searchStart]

/-- The length, step and result registers. -/
def resultRegs : List Reg :=
  [.inLen, .outLen, .chrLen, .sinLen, .soutLen, .discLen, .fillBits, .crcReg, .crcOut, .stuffCnt,
    .destuffCnt, .nrziEncLevel, .nrziDecPrev, .crcValue, .crcRx, .flagPos, .frameStart, .payloadStart,
    .payloadEnd, .result, .acqLag, .acqScore, .acqOffset, .acqPolarity]

/-- The VS and RX registers. -/
def reportRegs : List Reg :=
  [.vsMmsi, .vsNav, .vsSog, .vsLon, .vsLat, .vsCog, .vsHdg, .vsTs, .rxType, .rxRepeat, .rxMmsi, .rxNav,
    .rxRot, .rxSog, .rxPa, .rxLon, .rxLat, .rxCog, .rxHdg, .rxTs, .rxMan, .rxSpare, .rxRaim, .rxRadio]

/-- Every register (R23). -/
def allRegs : List Reg := controlRegs ++ resultRegs ++ reportRegs

/-- The register at an offset of the register region, if the table lists one (R23). -/
def regAt (off : Nat) : Option Reg := allRegs.find? (fun r => r.offset == off)

/-- A bit as a register word: bit 0, the other bits 0. -/
def bitWord (b : Bool) : Word := if b then 1 else 0

/-- CRC_OUT, a view of CRC_REG and CRC_XOROUT (R41). -/
def State.crcOut (s : State) : BitVec 16 := s.crcReg ^^^ s.cfg.crcXorout

/-- What a host read of a register returns; bits above the bits used read 0 (R23 to R50). -/
def regRead (s : State) : Reg → Word
  | .id => 0x41495331
  | .capBits => s.caps.bits
  | .capChr => s.caps.chr
  | .capSmp => s.caps.smp
  | .cmd => s.cmd
  | .status => s.status
  | .config => s.cfg.config.setWidth 32
  | .crcXorout => s.cfg.crcXorout.setWidth 32
  | .sampleRate => s.cfg.sampleRate
  | .symbolRate => s.cfg.symbolRate
  | .btX100 => s.cfg.btX100
  | .gaussSpan => s.cfg.gaussSpan
  | .fskDevHz => s.cfg.fskDevHz
  | .trainSpan => s.cfg.trainSpan
  | .trainMinAgree => s.cfg.trainMinAgree
  | .flagMinAgree => s.cfg.flagMinAgree
  | .acqThreshold => s.cfg.acqThreshold
  | .acqWindow => s.cfg.acqWindow
  | .searchStart => s.cfg.searchStart
  | .inLen => s.inLen
  | .outLen => s.outLen
  | .chrLen => s.chrLen
  | .sinLen => s.sinLen
  | .soutLen => s.soutLen
  | .discLen => s.discLen
  | .fillBits => s.fillBits.setWidth 32
  | .crcReg => s.crcReg.setWidth 32
  | .crcOut => s.crcOut.setWidth 32
  | .stuffCnt => s.stuffCnt.setWidth 32
  | .destuffCnt => s.destuffCnt.setWidth 32
  | .nrziEncLevel => bitWord s.nrziEncLevel
  | .nrziDecPrev => bitWord s.nrziDecPrev
  | .crcValue => s.crcValue.setWidth 32
  | .crcRx => s.crcRx.setWidth 32
  | .flagPos => s.flagPos
  | .frameStart => s.framePos.frameStart
  | .payloadStart => s.framePos.payloadStart
  | .payloadEnd => s.framePos.payloadEnd
  | .result => s.result
  | .acqLag => s.acq.lag
  | .acqScore => s.acq.score
  | .acqOffset => s.acq.offset
  | .acqPolarity => bitWord s.acq.polarity
  | .vsMmsi => s.vs.mmsi
  | .vsNav => s.vs.nav
  | .vsSog => s.vs.sog
  | .vsLon => s.vs.lon
  | .vsLat => s.vs.lat
  | .vsCog => s.vs.cog
  | .vsHdg => s.vs.hdg
  | .vsTs => s.vs.ts
  | .rxType => s.rx.type
  | .rxRepeat => s.rx.repeatInd
  | .rxMmsi => s.rx.mmsi
  | .rxNav => s.rx.nav
  | .rxRot => s.rx.rot
  | .rxSog => s.rx.sog
  | .rxPa => s.rx.pa
  | .rxLon => s.rx.lon
  | .rxLat => s.rx.lat
  | .rxCog => s.rx.cog
  | .rxHdg => s.rx.hdg
  | .rxTs => s.rx.ts
  | .rxMan => s.rx.man
  | .rxSpare => s.rx.spare
  | .rxRaim => s.rx.raim
  | .rxRadio => s.rx.radio

/-- The legalised value of a length register write: `min(w, CAP)` (R38). -/
def legalLen (w cap : Word) : Word := if w ≤ cap then w else cap

/-- What a host write of w to a register stores (R23 to R49).  The write of CMD stores w; the command it
performs is the port's business (R26).  A write to a read-only register is ignored. -/
def regWrite (s : State) (w : Word) : Reg → State
  | .cmd => { s with cmd := w }
  | .config => { s with cfg := { s.cfg with config := w.extractLsb' 0 5 } }
  | .crcXorout => { s with cfg := { s.cfg with crcXorout := w.extractLsb' 0 16 } }
  | .sampleRate => { s with cfg := { s.cfg with sampleRate := w } }
  | .symbolRate => { s with cfg := { s.cfg with symbolRate := w } }
  | .btX100 => { s with cfg := { s.cfg with btX100 := w } }
  | .gaussSpan => { s with cfg := { s.cfg with gaussSpan := w } }
  | .fskDevHz => { s with cfg := { s.cfg with fskDevHz := w } }
  | .trainSpan => { s with cfg := { s.cfg with trainSpan := w } }
  | .trainMinAgree => { s with cfg := { s.cfg with trainMinAgree := w } }
  | .flagMinAgree => { s with cfg := { s.cfg with flagMinAgree := w } }
  | .acqThreshold => { s with cfg := { s.cfg with acqThreshold := w } }
  | .acqWindow => { s with cfg := { s.cfg with acqWindow := w } }
  | .searchStart => { s with cfg := { s.cfg with searchStart := w } }
  | .inLen => { s with inLen := legalLen w s.caps.bits }
  | .outLen => { s with outLen := legalLen w s.caps.bits }
  | .chrLen => { s with chrLen := legalLen w s.caps.chr }
  | .sinLen => { s with sinLen := legalLen w s.caps.smp }
  | .soutLen => { s with soutLen := legalLen w s.caps.smp }
  | .discLen => { s with discLen := legalLen w s.caps.smp }
  | .fillBits => { s with fillBits := w.extractLsb' 0 3 }
  | .vsMmsi => { s with vs := { s.vs with mmsi := w } }
  | .vsNav => { s with vs := { s.vs with nav := w } }
  | .vsSog => { s with vs := { s.vs with sog := w } }
  | .vsLon => { s with vs := { s.vs with lon := w } }
  | .vsLat => { s with vs := { s.vs with lat := w } }
  | .vsCog => { s with vs := { s.vs with cog := w } }
  | .vsHdg => { s with vs := { s.vs with hdg := w } }
  | .vsTs => { s with vs := { s.vs with ts := w } }
  | .id | .capBits | .capChr | .capSmp | .status => s
  | .crcReg | .crcOut | .stuffCnt | .destuffCnt | .nrziEncLevel | .nrziDecPrev | .crcValue | .crcRx => s
  | .flagPos | .frameStart | .payloadStart | .payloadEnd | .result => s
  | .acqLag | .acqScore | .acqOffset | .acqPolarity => s
  | .rxType | .rxRepeat | .rxMmsi | .rxNav | .rxRot | .rxSog | .rxPa | .rxLon | .rxLat | .rxCog | .rxHdg => s
  | .rxTs | .rxMan | .rxSpare | .rxRaim | .rxRadio => s

end Sys2Proof.Machine
end

