-- ==== Sys2Proof/Machine/Port.lean ====
section
/-! DEFINITION. The register port: the address map, the windows, and what each host action does
(spec/20_memory.md R52 to R66, spec/10_state.md R18 and R26). -/

namespace Sys2Proof.Machine

/-! ### Address map (R52) -/

/-- Where a host address leads: an offset in the register region, or the word w of a buffer's window (window
offset 4·w). -/
inductive Place where
  | register (off : Nat)
  | window (b : BufferId) (w : Nat)
  deriving DecidableEq, Repr

/-- The word of a window of base `base` and `used` bytes that address a leads to. -/
def windowWord (b : BufferId) (base used a : Nat) : Option Place :=
  if base ≤ a ∧ a < base + used then some (.window b ((a - base) / 4)) else none

/-- The mapped place of an aligned address, none where the address is unmapped (R52, R55). -/
def placeOf (c : Caps) (a : Nat) : Option Place :=
  if a < 0x1000 then some (.register a)
  else windowWord .inp 0x01000 (c.bits.toNat / 8) a
    <|> windowWord .out 0x02000 (c.bits.toNat / 8) a
    <|> windowWord .chr 0x03000 c.chr.toNat a
    <|> windowWord .sin 0x10000 (8 * c.smp.toNat) a
    <|> windowWord .sout 0x30000 (8 * c.smp.toNat) a
    <|> windowWord .disc 0x50000 (4 * c.smp.toNat) a

/-- An access's place, or the bus error of R54 and R55. -/
def access (c : Caps) (addr : BitVec 19) (width : Nat) : Except Fault Place :=
  if width ≠ 32 then .error (.busWidth width)
  else if addr.toNat % 4 ≠ 0 then .error (.busMisaligned addr)
  else match placeOf c addr.toNat with
    | some p => .ok p
    | none => .error (.busUnmapped addr)

/-! ### Window words (R58 to R61, R63) -/

/-- The 32 bits of a window word of IN or OUT: the first bit is the word's bit 31 (R58). -/
def wordOfBits (bs : Bits) : Word := BitVec.ofNat 32 (uval bs)

/-- The four characters of a window word of CHR: the first is the most significant byte (R59). -/
def wordOfChars (cs : List Byte) : Word := BitVec.ofNat 32 (uval (bitsOfBytes cs))

/-- The bits of a word, bit 31 first (R58). -/
def bitsOfWord (v : Word) : Bits := ubits 32 v.toNat

/-- The characters of a word, the most significant byte first (R59). -/
def charsOfWord (v : Word) : List Byte := bytesOf (bitsOfWord v)

/-- A host read of a word of a sample window: the part it names, if the sample's written flag is set
(R60, R63). -/
def samplePart (id : BufferId) (b : Buf Word) (w : Nat) : Except Fault Word := do
  let z ← heldSample id b (w / 2)
  .ok (if w % 2 = 0 then z.1 else z.2)

/-- A host read of the word w of a window (R58 to R61, R63). -/
def windowRead (m : Memory) (b : BufferId) (w : Nat) : Except Fault Word :=
  match b with
  | .inp => do
    let bs ← readSeq (held .inp m.inp) (32 * w) 32
    .ok (wordOfBits bs)
  | .out => do
    let bs ← readSeq (held .out m.out) (32 * w) 32
    .ok (wordOfBits bs)
  | .chr => do
    let cs ← readSeq (held .chr m.chr) (4 * w) 4
    .ok (wordOfChars cs)
  | .sin => samplePart .sin m.sin w
  | .sout => samplePart .sout m.sout w
  | .disc => held .disc m.disc w

/-- A host write of v to the word w of a window: it sets and marks every element it covers (R58 to R61). -/
def windowWrite (m : Memory) (b : BufferId) (w : Nat) (v : Word) : Memory :=
  match b with
  | .inp => { m with inp := bufPut m.inp (32 * w) (bitsOfWord v) }
  | .out => { m with out := bufPut m.out (32 * w) (bitsOfWord v) }
  | .chr => { m with chr := bufPut m.chr (4 * w) (charsOfWord v) }
  | .sin => { m with sin := bufSet m.sin w v }
  | .sout => { m with sout := bufSet m.sout w v }
  | .disc => { m with disc := bufSet m.disc w v }

/-! ### Host actions -/

/-- The command phase of a write of w to CMD: w is decoded and its command performed, or its
IllegalCommand error reported (R26, R76). -/
def runWord (w : Word) (s : State) : Host.Outcome State Fault Refusal :=
  match decode w with
  | .ok i => exec i s
  | .error e => raiseError s (illegalError e)

/-- A host write of w to CMD: w is stored, then its command is performed, as one transition (R18, R26).  The
model's own count of the CMD writes goes up by one. -/
def writeCmd (w : Word) (s : State) : Host.Outcome State Fault Refusal :=
  runWord w { regWrite s w .cmd with tick := s.tick + 1 }

/-- A host read (R54 to R56, R63): the value goes to the host, and nothing else changes. -/
def hostRead (addr : BitVec 19) (width : Nat) (s : State) : Host.Outcome State Fault Refusal :=
  match access s.caps addr width with
  | .error f => .fault f
  | .ok (.register off) =>
    match regAt off with
    | some r => .next { s with rdata := some (regRead s r) }
    | none => .next { s with rdata := some 0 }
  | .ok (.window b w) =>
    match windowRead s.mem b w with
    | .ok v => .next { s with rdata := some v }
    | .error f => .fault f

/-- A host write (R54 to R56): a register, a window word, or a command. -/
def hostWrite (addr : BitVec 19) (width : Nat) (v : Word) (s : State) : Host.Outcome State Fault Refusal :=
  match access s.caps addr width with
  | .error f => .fault f
  | .ok (.register off) =>
    match regAt off with
    | some .cmd => writeCmd v s
    | some r => .next (regWrite s v r)
    | none => .next s
  | .ok (.window b w) => .next { s with mem := windowWrite s.mem b w v }

/-- The platform's reset (R189, R191): the state after reset of the same build.  The accesses still to come
stay the host's, and the count that keys the free values goes on. -/
def platformReset (s : State) : State :=
  { State.resetOf s.caps with port := s.port, tick := s.tick }

/-- One host action. -/
def perform (a : HostAction) (s : State) : Host.Outcome State Fault Refusal :=
  match a with
  | .read addr width => hostRead addr width s
  | .write addr width v => hostWrite addr width v s
  | .reset => .next (platformReset s)

/-- One transition: the port takes the host's next action; with none to come the state is held unchanged
(R66, R187). -/
def portStep (s : State) : Host.Outcome State Fault Refusal :=
  match s.port with
  | [] => .next s
  | a :: rest => perform a { s with port := rest }

/-- The CMD register's address (R23). -/
def cmdAddr : BitVec 19 := 0x00010

/-- The host's next action becomes a write of w to CMD. -/
def State.queueCommand (s : State) (w : Word) : State :=
  { s with port := .write cmdAddr 32 w :: s.port }

end Sys2Proof.Machine
end

