-- ==== Sys2Proof/Machine/Step.lean ====
section
/-! DEFINITION. The step of AIS-CORE: one host action (spec/10_state.md R18, spec/20_memory.md R66). -/

namespace Sys2Proof.Machine

/-- One step: the port takes the host's next action (Machine/Port.lean). -/
def step (s : State) : Host.Outcome State Fault Refusal := portStep s

/-- The command given by the low `nbits` bits of `w` becomes the host's next action, so that the next step
performs it (notes/assumptions/3.md). -/
def State.withFetchWord (s : State) (nbits w : Nat) : State := s.queueCommand (tableWord nbits w)

end Sys2Proof.Machine
end

