-- ==== Sys2Proof/Safety.lean ====
section
/-! DEFINITION. The terms the statements use: what a buffer holds, what a command wrote and left alone, which
error pairs a command may report, the invariant of every step, and what the host owes for a run without model
faults. -/

namespace Sys2Proof.Machine

/-! ### What a buffer holds and what a command wrote -/

/-- The elements 0, 1, … of a buffer hold the values xs. -/
abbrev Holds {α : Type} (b : Buf α) (xs : List α) : Prop :=
  ∀ k, ∀ h : k < xs.length, bufGet b k = some xs[k]

/-- The samples 0, 1, … of a sample buffer hold the values zs. -/
abbrev HoldsSamples (b : Buf Word) (zs : List Sample) : Prop :=
  ∀ k, ∀ h : k < zs.length, sampleGet b k = some zs[k]

/-- `IN[0..IN_LEN)` holds x. -/
abbrev InputBits (s : State) (x : Bits) : Prop := s.inLen.toNat = x.length ∧ Holds s.mem.inp x

/-- `OUT[0..OUT_LEN)` holds x. -/
abbrev OutputBits (s : State) (x : Bits) : Prop := s.outLen.toNat = x.length ∧ Holds s.mem.out x

/-- `CHR[0..CHR_LEN)` holds cs. -/
abbrev InputChars (s : State) (cs : List Byte) : Prop := s.chrLen.toNat = cs.length ∧ Holds s.mem.chr cs

/-- `SIN[0..SIN_LEN)` holds zs. -/
abbrev InputSamples (s : State) (zs : List Sample) : Prop :=
  s.sinLen.toNat = zs.length ∧ HoldsSamples s.mem.sin zs

/-- `SOUT[0..SOUT_LEN)` holds zs. -/
abbrev OutputSamples (s : State) (zs : List Sample) : Prop :=
  s.soutLen.toNat = zs.length ∧ HoldsSamples s.mem.sout zs

/-- `DISC[0..DISC_LEN)` holds ws. -/
abbrev InputDisc (s : State) (ws : List Word) : Prop := s.discLen.toNat = ws.length ∧ Holds s.mem.disc ws

/-- b' is b with the elements `base, base + 1, …` written to xs, and every other element, written flag
included, as it was (R64). -/
def Writes {α : Type} (b : Buf α) (base : Nat) (xs : List α) (b' : Buf α) : Prop :=
  (∀ k, ∀ h : k < xs.length, bufGet b' (base + k) = some xs[k]) ∧
    ∀ j, j < base ∨ base + xs.length ≤ j → bufGet b' j = bufGet b j

/-- b' is the sample buffer b with the samples 0, 1, … written to zs, and every word of every other sample
as it was (R64). -/
def WritesSamples (b : Buf Word) (zs : List Sample) (b' : Buf Word) : Prop :=
  (∀ k, ∀ h : k < zs.length, sampleGet b' k = some zs[k]) ∧
    ∀ j, 2 * zs.length ≤ j → bufGet b' j = bufGet b j

/-- The command i ends in s with STATUS = st and nothing else changed: the form of every error but
FIND_FLAG's NotFound (R172). -/
def FailsWith (i : Instr) (s : State) (st : Word) : Prop :=
  exec i s = .next { s with status := st }

/-- A host read of 32 bits at `addr` returns v and changes nothing but the model's own record of it (R56). -/
def ReadsAs (s : State) (addr : Nat) (v : Word) : Prop :=
  perform (.read (BitVec.ofNat 19 addr) 32) s = .next { s with rdata := some v }

/-! ### Legal values -/

/-- The legal range of the build parameters (R7). -/
abbrev Caps.legal (c : Caps) : Prop :=
  (c.bits.toNat % 32 = 0 ∧ 512 ≤ c.bits.toNat ∧ c.bits.toNat ≤ 32768) ∧
    (c.chr.toNat % 4 = 0 ∧ 64 ≤ c.chr.toNat ∧ c.chr.toNat ≤ 4096) ∧
    (1024 ≤ c.smp.toNat ∧ c.smp.toNat ≤ 16384)

/-- The VS registers are legal at ENCODE_POS (R49, R135). -/
abbrev Vessel.legal (v : Vessel) : Prop :=
  (100000000 ≤ v.mmsi.toNat ∧ v.mmsi.toNat ≤ 999999999) ∧ v.nav.toNat ≤ 15 ∧
    (-108000000 ≤ v.lon.toInt ∧ v.lon.toInt ≤ 108000000) ∧
    (-54000000 ≤ v.lat.toInt ∧ v.lat.toInt ≤ 54000000) ∧
    v.cog.toNat ≤ 3600 ∧ (v.hdg.toNat ≤ 359 ∨ v.hdg.toNat = 511)

/-- The frame-search registers are legal (R34, R35, R110). -/
abbrev Cfg.searchLegal (c : Cfg) : Prop :=
  1 ≤ c.trainSpan.toNat ∧ (21 ≤ c.trainMinAgree.toNat ∧ c.trainMinAgree.toNat ≤ 24) ∧
    (6 ≤ c.flagMinAgree.toNat ∧ c.flagMinAgree.toNat ≤ 8)

/-- The acquisition registers are legal (R36, R161). -/
abbrev Cfg.acqLegal (c : Cfg) : Prop :=
  (1 ≤ c.acqThreshold.toNat ∧ c.acqThreshold.toNat ≤ 65536) ∧ 1 ≤ c.acqWindow.toNat

/-- The rates give a whole number S ≥ 1 of samples per symbol (R30, R146). -/
abbrev Cfg.hasSps (c : Cfg) (S : Nat) : Prop :=
  c.symbolRate.toNat ≠ 0 ∧ c.sampleRate.toNat = S * c.symbolRate.toNat ∧ 1 ≤ S

/-- BT_X100 and GAUSS_SPAN are legal (R31, R32). -/
abbrev Cfg.filterLegal (c : Cfg) : Prop :=
  (1 ≤ c.btX100.toNat ∧ c.btX100.toNat ≤ 100) ∧ (c.gaussSpan.toNat = 3 ∨ c.gaussSpan.toNat = 4)

/-- The registers that the modulator's profile uses are legal (R147). -/
abbrev Cfg.modLegal (c : Cfg) : Prop :=
  (c.gmsk = true → c.filterLegal) ∧ (c.gmsk = false → c.fskDevHz.toNat ≠ 0)

/-- The registers that the discriminator uses are legal (R156). -/
abbrev Cfg.discLegal (c : Cfg) : Prop :=
  (c.gmsk = false → c.fskDevHz.toNat ≠ 0) ∧ (c.lpfEn = true → c.filterLegal)

/-! ### Encoding and register tables, as the spec prints them -/

/-- The opcodes of R75. -/
def definedOpcodes : List Byte :=
  [0x00, 0x01, 0x02, 0x03, 0x04, 0x05, 0x0F, 0x10, 0x11, 0x12, 0x13, 0x14, 0x15, 0x16, 0x17,
    0x20, 0x21, 0x22, 0x23, 0x24, 0x25, 0x26, 0x27, 0x28, 0x30, 0x31, 0x32, 0x33, 0x34,
    0x40, 0x41, 0x42, 0x43, 0x44, 0x45, 0x50, 0x51, 0x60, 0x61, 0x62]

/-- The IMM8 bits that "must be 0" under an opcode (R74). -/
def immZero (opc : Byte) : Byte :=
  if opc ∈ [0x11, 0x21, 0x22, 0x31, 0x32] then 0xFE
  else if opc ∈ [0x12, 0x43] then 0x00
  else if opc = 0x42 then 0xC0
  else 0xFF

/-- R23's register table: offset and reset value; the CAP registers hold the build's parameters. -/
def resetTable (c : Caps) : List (Nat × Word) :=
  [(0x000, 0x41495331), (0x004, c.bits), (0x008, c.chr), (0x00C, c.smp), (0x010, 0), (0x014, 0),
    (0x018, 0x0000000D), (0x01C, 0), (0x020, 48000), (0x024, 9600), (0x028, 40), (0x02C, 4), (0x030, 2400),
    (0x034, 40), (0x038, 21), (0x03C, 6), (0x040, 0x00006000), (0x044, 4096), (0x048, 0)] ++
  [(0x050, 0), (0x054, 0), (0x058, 0), (0x05C, 0), (0x060, 0), (0x064, 0), (0x068, 0), (0x070, 0x0000FFFF),
    (0x074, 0x0000FFFF), (0x078, 0), (0x07C, 0), (0x080, 1), (0x084, 1), (0x088, 0), (0x08C, 0), (0x090, 0),
    (0x094, 0), (0x098, 0), (0x09C, 0), (0x0A0, 0), (0x0A4, 0), (0x0A8, 0), (0x0AC, 0), (0x0B0, 0)] ++
  [(0x0C0, 0), (0x0C4, 0), (0x0C8, 0), (0x0CC, 0), (0x0D0, 0), (0x0D4, 0), (0x0D8, 0), (0x0DC, 0),
    (0x100, 0), (0x104, 0), (0x108, 0), (0x10C, 0), (0x110, 0), (0x114, 0), (0x118, 0), (0x11C, 0),
    (0x120, 0), (0x124, 0), (0x128, 0), (0x12C, 0), (0x130, 0), (0x134, 0), (0x138, 0), (0x13C, 0)]

/-- R23's registers outside reset: each offset with the value that a host read returns, bits above the bits used
reading 0 (R24 to R50). -/
def registerFields (s : State) : List (Nat × Word) :=
  let bit := fun b : Bool => if b then (1 : Word) else 0
  [(0x000, 0x41495331), (0x004, s.caps.bits), (0x008, s.caps.chr), (0x00C, s.caps.smp), (0x010, s.cmd),
    (0x014, s.status), (0x018, s.cfg.config.setWidth 32), (0x01C, s.cfg.crcXorout.setWidth 32),
    (0x020, s.cfg.sampleRate), (0x024, s.cfg.symbolRate), (0x028, s.cfg.btX100), (0x02C, s.cfg.gaussSpan),
    (0x030, s.cfg.fskDevHz), (0x034, s.cfg.trainSpan), (0x038, s.cfg.trainMinAgree),
    (0x03C, s.cfg.flagMinAgree), (0x040, s.cfg.acqThreshold), (0x044, s.cfg.acqWindow),
    (0x048, s.cfg.searchStart)] ++
  [(0x050, s.inLen), (0x054, s.outLen), (0x058, s.chrLen), (0x05C, s.sinLen), (0x060, s.soutLen),
    (0x064, s.discLen), (0x068, s.fillBits.setWidth 32), (0x070, s.crcReg.setWidth 32),
    (0x074, (s.crcReg ^^^ s.cfg.crcXorout).setWidth 32), (0x078, s.stuffCnt.setWidth 32),
    (0x07C, s.destuffCnt.setWidth 32), (0x080, bit s.nrziEncLevel), (0x084, bit s.nrziDecPrev),
    (0x088, s.crcValue.setWidth 32), (0x08C, s.crcRx.setWidth 32), (0x090, s.flagPos),
    (0x094, s.framePos.frameStart), (0x098, s.framePos.payloadStart), (0x09C, s.framePos.payloadEnd),
    (0x0A0, s.result), (0x0A4, s.acq.lag), (0x0A8, s.acq.score), (0x0AC, s.acq.offset),
    (0x0B0, bit s.acq.polarity)] ++
  [(0x0C0, s.vs.mmsi), (0x0C4, s.vs.nav), (0x0C8, s.vs.sog), (0x0CC, s.vs.lon), (0x0D0, s.vs.lat),
    (0x0D4, s.vs.cog), (0x0D8, s.vs.hdg), (0x0DC, s.vs.ts),
    (0x100, s.rx.type), (0x104, s.rx.repeatInd), (0x108, s.rx.mmsi), (0x10C, s.rx.nav), (0x110, s.rx.rot),
    (0x114, s.rx.sog), (0x118, s.rx.pa), (0x11C, s.rx.lon), (0x120, s.rx.lat), (0x124, s.rx.cog),
    (0x128, s.rx.hdg), (0x12C, s.rx.ts), (0x130, s.rx.man), (0x134, s.rx.spare), (0x138, s.rx.raim),
    (0x13C, s.rx.radio)]

/-- The offsets of the registers that store the whole word written (R23: RW, but for CMD). -/
def rwOffsets : List Nat :=
  [0x020, 0x024, 0x028, 0x02C, 0x030, 0x034, 0x038, 0x03C, 0x040, 0x044, 0x048,
    0x0C0, 0x0C4, 0x0C8, 0x0CC, 0x0D0, 0x0D4, 0x0D8, 0x0DC]

/-- What a register of the region reads as after a host write of w to it: R23's RW and WARL rows with their
legalisation; none for the rows, and the unlisted offsets, that ignore the write. -/
def storedAs (c : Caps) (off : Nat) (w : Word) : Option Word :=
  if off ∈ rwOffsets then some w
  else if off = 0x018 then some (w &&& 0x1F)
  else if off = 0x01C then some (w &&& 0xFFFF)
  else if off = 0x050 ∨ off = 0x054 then some (BitVec.ofNat 32 (min w.toNat c.bits.toNat))
  else if off = 0x058 then some (BitVec.ofNat 32 (min w.toNat c.chr.toNat))
  else if off = 0x05C ∨ off = 0x060 ∨ off = 0x064 then some (BitVec.ofNat 32 (min w.toNat c.smp.toNat))
  else if off = 0x068 then some (w &&& 0x7)
  else none

/-- The mapped addresses (R52): the register region and the used part of each window. -/
abbrev Mapped (c : Caps) (a : Nat) : Prop :=
  a < 0x01000 ∨ (0x01000 ≤ a ∧ a < 0x01000 + c.bits.toNat / 8) ∨
    (0x02000 ≤ a ∧ a < 0x02000 + c.bits.toNat / 8) ∨ (0x03000 ≤ a ∧ a < 0x03000 + c.chr.toNat) ∨
    (0x10000 ≤ a ∧ a < 0x10000 + 8 * c.smp.toNat) ∨ (0x30000 ≤ a ∧ a < 0x30000 + 8 * c.smp.toNat) ∨
    (0x50000 ≤ a ∧ a < 0x50000 + 4 * c.smp.toNat)

/-! ### What each command writes -/

/-- The parts of the state that a command may write, STATUS apart. -/
inductive Target where
  | inp | out | chr | sin | sout | disc | fillBits
  | crcReg | stuffCnt | destuffCnt | nrziEncLevel | nrziDecPrev
  | crcValue | crcRx | flagPos | framePos | result | acq | rx
  deriving DecidableEq, Repr

/-- The part reads the same in s and in t; a buffer goes with its length register. -/
def Target.same (s t : State) : Target → Prop
  | .inp => t.mem.inp = s.mem.inp ∧ t.inLen = s.inLen
  | .out => t.mem.out = s.mem.out ∧ t.outLen = s.outLen
  | .chr => t.mem.chr = s.mem.chr ∧ t.chrLen = s.chrLen
  | .sin => t.mem.sin = s.mem.sin ∧ t.sinLen = s.sinLen
  | .sout => t.mem.sout = s.mem.sout ∧ t.soutLen = s.soutLen
  | .disc => t.mem.disc = s.mem.disc ∧ t.discLen = s.discLen
  | .fillBits => t.fillBits = s.fillBits
  | .crcReg => t.crcReg = s.crcReg
  | .stuffCnt => t.stuffCnt = s.stuffCnt
  | .destuffCnt => t.destuffCnt = s.destuffCnt
  | .nrziEncLevel => t.nrziEncLevel = s.nrziEncLevel
  | .nrziDecPrev => t.nrziDecPrev = s.nrziDecPrev
  | .crcValue => t.crcValue = s.crcValue
  | .crcRx => t.crcRx = s.crcRx
  | .flagPos => t.flagPos = s.flagPos
  | .framePos => t.framePos = s.framePos
  | .result => t.result = s.result
  | .acq => t.acq = s.acq
  | .rx => t.rx = s.rx

/-- The "Writes" line of each command's rule (R82 to R167). -/
def writeSet : Instr → List Target
  | .nop => []
  | .moveOutIn => [.inp]
  | .moveSoutSin => [.sin]
  | .packBytes => [.chr]
  | .unpackBytes | .reverseBytes => [.out]
  | .selftestLoopback => []
  | .crcInit | .crcBit _ | .crcByte _ => [.crcReg]
  | .crcBuf | .crcBufBytes | .crcSelftest => [.crcValue]
  | .crcAppend => [.out, .crcValue]
  | .crcCheck => [.crcValue, .crcRx]
  | .stuffReset => [.stuffCnt, .destuffCnt]
  | .stuffBit _ => [.out, .stuffCnt]
  | .destuffBit _ => [.out, .destuffCnt]
  | .stuffBuf | .destuffBuf => [.out]
  | .findFlag | .findFlagFuzzy => [.flagPos]
  | .buildFrame => [.out]
  | .extractPayload => [.out, .framePos]
  | .deframe => [.out, .framePos, .crcValue, .crcRx]
  | .nrziReset => [.nrziEncLevel, .nrziDecPrev]
  | .nrziEncBit _ => [.out, .nrziEncLevel]
  | .nrziDecBit _ => [.out, .nrziDecPrev]
  | .nrziEncBuf | .nrziDecBuf => [.out]
  | .encodePos => [.out]
  | .decodePos => [.rx]
  | .six2ascii _ | .ascii2six _ => [.result]
  | .armor => [.chr, .fillBits]
  | .dearmor => [.out]
  | .modulate => [.sout]
  | .transmit => [.out, .sout]
  | .demodulate => [.disc]
  | .recoverClock => [.out, .acq]
  | .receive => [.disc, .acq, .out, .framePos, .crcValue, .crcRx, .rx]

/-- t is s after a RECEIVE that drew the words ws, acquired q and deframed d: everything that R167 commits, and
nothing else changed. -/
def Receives (s t : State) (ws : List Word) (q : Acq) (d : Deframed) : Prop :=
  Writes s.mem.disc 0 ws t.mem.disc ∧ Writes s.mem.out 0 d.msg t.mem.out ∧
    t.framePos.frameStart.toNat = d.p ∧ t.framePos.payloadStart.toNat = d.q ∧ t.framePos.payloadEnd.toNat = d.e ∧
    t = { s with
      status := 0x00010000, discLen := s.sinLen, outLen := 168, framePos := t.framePos,
      crcValue := d.crc, crcRx := d.rx, acq := q, rx := (posFields d.msg).report,
      mem := { s.mem with disc := t.mem.disc, out := t.mem.out } }

/-! ### STATUS (R27, R170) -/

/-- The details of the six VS checks. -/
def vesselErrors : List (Byte × Byte) := [(1, 5), (1, 6), (1, 7), (1, 8), (1, 9), (1, 10)]

/-- The pairs that the deframer raises once its registers are legal. -/
def deframeErrors : List (Byte × Byte) := [(2, 1), (2, 2), (2, 3), (3, 1), (3, 2), (3, 3), (5, 1), (5, 2)]

/-- The pairs of an unsupported message type: the type is 0 or 4 to 63. -/
def typeErrors : List (Byte × Byte) :=
  (7, 0) :: (List.range 60).map (fun t => (7, BitVec.ofNat 8 (t + 4)))

/-- R170's column "raised by": the (ERR, DETAIL) pairs that a command may report. -/
def mayReport : Instr → List (Byte × Byte)
  | .nop | .moveOutIn | .moveSoutSin => []
  | .packBytes => [(1, 11), (8, 2)]
  | .unpackBytes => [(8, 1)]
  | .reverseBytes => [(1, 11)]
  | .selftestLoopback => vesselErrors ++ [(1, 14), (6, 2)]
  | .crcInit | .crcBit _ | .crcByte _ | .crcBuf => []
  | .crcBufBytes => [(1, 11)]
  | .crcAppend => [(8, 1)]
  | .crcCheck => [(2, 4), (5, 1)]
  | .crcSelftest => [(1, 11), (6, 1)]
  | .stuffReset => []
  | .stuffBit _ => [(8, 1)]
  | .destuffBit _ => [(5, 2), (8, 1)]
  | .stuffBuf => [(8, 1)]
  | .destuffBuf => [(5, 2)]
  | .findFlag => [(3, 4)]
  | .findFlagFuzzy => [(1, 14), (3, 4)]
  | .buildFrame => [(8, 1)]
  | .extractPayload => [(1, 14), (2, 1), (2, 2), (2, 3), (3, 1), (3, 2), (3, 3), (5, 2)]
  | .deframe => (1, 14) :: deframeErrors
  | .nrziReset => []
  | .nrziEncBit _ | .nrziDecBit _ => [(8, 1)]
  | .nrziEncBuf | .nrziDecBuf => []
  | .encodePos => vesselErrors
  | .decodePos => (2, 4) :: typeErrors
  | .six2ascii _ => []
  | .ascii2six _ => [(1, 12)]
  | .armor => [(8, 2)]
  | .dearmor => [(1, 12), (1, 13), (8, 1)]
  | .modulate => [(1, 1), (1, 2), (1, 3), (1, 4), (8, 3)]
  | .transmit => [(1, 1), (1, 2), (1, 3), (1, 4)] ++ vesselErrors ++ [(8, 1), (8, 3)]
  | .demodulate => [(1, 1), (1, 2), (1, 3), (1, 4), (1, 15)]
  | .recoverClock => [(1, 1), (1, 14), (1, 15), (4, 1), (4, 2), (8, 1)]
  | .receive =>
    [(1, 1), (1, 2), (1, 3), (1, 4), (1, 14), (1, 15), (4, 1), (4, 2), (8, 1)] ++ deframeErrors ++ typeErrors

/-- The pairs that R170 lists, and the success pair. -/
def legalPair (err detail : Byte) : Bool :=
  (err == 0 && detail == 0) || (err == 1 && 1 ≤ detail.toNat && detail.toNat ≤ 15)
    || ((err == 2 || err == 3) && 1 ≤ detail.toNat && detail.toNat ≤ 4)
    || ((err == 4 || err == 5 || err == 6) && 1 ≤ detail.toNat && detail.toNat ≤ 2)
    || (err == 7 && (detail == 0 || (4 ≤ detail.toNat && detail.toNat ≤ 63)))
    || (err == 8 && 1 ≤ detail.toNat && detail.toNat ≤ 3)
    || (err == 9 && 1 ≤ detail.toNat && detail.toNat ≤ 4)

/-- STATUS is 0, as before the first command, or has DONE = 1, BUSY = 0, its reserved bits 0 and a pair that
R170 lists. -/
def statusLegal (w : Word) : Bool :=
  w == 0 || (w.extractLsb' 16 16 == 1 && legalPair (w.extractLsb' 0 8) (w.extractLsb' 8 8))

/-! ### The invariant -/

/-- The length registers stay within the capacities (R38). -/
abbrev State.lengthsFit (s : State) : Prop :=
  s.inLen.toNat ≤ s.caps.bits.toNat ∧ s.outLen.toNat ≤ s.caps.bits.toNat ∧
    s.chrLen.toNat ≤ s.caps.chr.toNat ∧ s.sinLen.toNat ≤ s.caps.smp.toNat ∧
    s.soutLen.toNat ≤ s.caps.smp.toNat ∧ s.discLen.toNat ≤ s.caps.smp.toNat

/-- What every step keeps: a legal build (R7), the canonical form of the buffers with no element at or above
a capacity (R53), lengths within the capacities (R38), the ranges of the run counters (R42) and the form of
STATUS (R27, R170). -/
def State.Inv (s : State) : Prop :=
  s.caps.legal ∧ Memory.wf s.caps s.mem ∧ s.lengthsFit ∧
    s.stuffCnt.toNat ≤ 4 ∧ s.destuffCnt.toNat ≤ 5 ∧ statusLegal s.status = true

/-! ### Safe runs -/

/-- What the host owes before a command (R188, R201): every element below a length register is written. -/
def State.loaded (s : State) : Prop :=
  (∀ k, k < s.inLen.toNat → bufGet s.mem.inp k ≠ none) ∧
    (∀ k, k < s.outLen.toNat → bufGet s.mem.out k ≠ none) ∧
    (∀ k, k < s.chrLen.toNat → bufGet s.mem.chr k ≠ none) ∧
    (∀ k, k < s.sinLen.toNat → sampleGet s.mem.sin k ≠ none) ∧
    (∀ k, k < s.soutLen.toNat → sampleGet s.mem.sout k ≠ none) ∧
    (∀ k, k < s.discLen.toNat → bufGet s.mem.disc k ≠ none)

/-- The element that a model fault names is unwritten and lies below its length register: the host did not
load what it said it had loaded (R63, R201). -/
def State.missing (s : State) : BufferId → Nat → Prop
  | .inp, k => k < s.inLen.toNat ∧ bufGet s.mem.inp k = none
  | .out, k => k < s.outLen.toNat ∧ bufGet s.mem.out k = none
  | .chr, k => k < s.chrLen.toNat ∧ bufGet s.mem.chr k = none
  | .sin, k => k < s.sinLen.toNat ∧ sampleGet s.mem.sin k = none
  | .sout, k => k < s.soutLen.toNat ∧ sampleGet s.mem.sout k = none
  | .disc, k => k < s.discLen.toNat ∧ bufGet s.mem.disc k = none

/-- An outcome without a model fault and without a refusal. -/
def Safe (o : Host.Outcome State Fault Refusal) : Prop := ∃ t, o = .next t

end Sys2Proof.Machine
end

