-- ==== Sys2Proof/Certificates/Slice0/Obligations.lean ====
section
/-! DEFINITION. The statements for the provers.  STATUS words are written as the spec's vectors print them:
0x00010000 is success, 0x0001DDEE is the error pair (ERR = EE, DETAIL = DD) of R170. -/

open Sys2Proof Sys2Proof.Machine

/-! ### Encoding -/

/-- R73, R74, R76: no bit of an encoding is dropped. -/
def Obligations.DecodeOfEncodeIsTheInstruction : Prop :=
  ∀ i : Instr, i.wf = true → decode (encode i) = .ok i

/-- R73, R74, R76: each legal word is the word of the one command it decodes to, and the legal words are
those that `(w AND mask) = match` admits for some row of the table. -/
def Obligations.LegalWordsAreTheTableRows : Prop :=
  (∀ (w : Word) (i : Instr), decode w = .ok i → i.wf = true ∧ encode i = w) ∧
    ∀ w : Word, (∃ i, decode w = .ok i) ↔ ∃ r ∈ tableRows, w &&& r.2 = r.1

/-- R76, as a host write of w to CMD meets it: the four checks in their order, what an illegal word leaves
changed, and that a word which passes them all runs its command. -/
def Obligations.EveryCommandWordHasOneOutcome : Prop :=
  ∀ (s : State) (rest : List HostAction) (w : Word), s.port = .write 0x00010 32 w :: rest →
    let u : State := { s with port := rest, cmd := w, tick := s.tick + 1 }
    let opc := w.extractLsb' 0 8
    (opc ∉ definedOpcodes → step s = .next { u with status := 0x00010109 }) ∧
    (opc ∈ definedOpcodes → w.extractLsb' 17 15 ≠ 0 → step s = .next { u with status := 0x00010209 }) ∧
    (opc ∈ definedOpcodes → w.extractLsb' 17 15 = 0 → w.extractLsb' 8 8 &&& immZero opc ≠ 0 →
      step s = .next { u with status := 0x00010309 }) ∧
    (opc ∈ definedOpcodes → w.extractLsb' 17 15 = 0 → w.extractLsb' 8 8 &&& immZero opc = 0 →
      w.getLsbD 16 = true → opc ≠ 0x25 → step s = .next { u with status := 0x00010409 }) ∧
    (opc ∈ definedOpcodes → w.extractLsb' 17 15 = 0 → w.extractLsb' 8 8 &&& immZero opc = 0 →
      (w.getLsbD 16 = false ∨ opc = 0x25) → ∃ i, decode w = .ok i ∧ step s = exec i u)

/-- The example words of R78 and of the rules' Encoding lines. -/
def Obligations.PrintedWordsDecode : Prop :=
  decode 0x00000111 = .ok (.crcBit 1) ∧ decode 0x00004112 = .ok (.crcByte 0x41) ∧
    decode 0x00002842 = .ok (.six2ascii 40) ∧ decode 0x00006043 = .ok (.ascii2six 0x60) ∧
    decode 0x00010025 = .ok .findFlagFuzzy ∧ decode 0x00000025 = .ok .findFlag ∧
    decode 0x00000028 = .ok .deframe ∧ decode 0x00000003 = .ok .packBytes ∧
    decode 0x00000131 = .ok (.nrziEncBit 1) ∧ decode 0x00000050 = .ok .modulate ∧
    decode 0x00000062 = .ok .receive

/-- R18, R26: a step that takes a legal CMD write stores the word and is `exec` of its command; the model's
own count of CMD writes goes up.  With no access to come the state is held (R187). -/
def Obligations.CommandWriteRunsTheDecodedCommand : Prop :=
  (∀ (s : State) (rest : List HostAction) (w : Word) (i : Instr),
    s.port = .write 0x00010 32 w :: rest → decode w = .ok i →
      step s = exec i { s with port := rest, cmd := w, tick := s.tick + 1 }) ∧
    ∀ s : State, s.port = [] → step s = .next s

/-! ### Reset and the invariant -/

/-- R189, R191: after reset, at the start of a run or in its middle, each register reads as R23's reset column
says, an unlisted offset reads 0, and no buffer element holds a value.  A platform reset always completes and
leaves the build's capacities as they are (R25). -/
def Obligations.ResetValues : Prop :=
  (∀ t : State, (t = State.reset ∨ ∃ s, perform .reset s = .next t) →
    (∀ p ∈ resetTable t.caps, ReadsAs t p.1 p.2) ∧
    (∀ off, off < 0x1000 → off % 4 = 0 → off ∉ (resetTable t.caps).map Prod.fst → ReadsAs t off 0) ∧
    (∀ k, bufGet t.mem.inp k = none ∧ bufGet t.mem.out k = none ∧ bufGet t.mem.chr k = none ∧
      bufGet t.mem.sin k = none ∧ bufGet t.mem.sout k = none ∧ bufGet t.mem.disc k = none)) ∧
  ∀ s : State, ∃ t, perform .reset s = .next t ∧ t.caps = s.caps

/-- The machine right after reset meets the invariant. -/
def Obligations.ResetMeetsTheInvariant : Prop := State.reset.Inv

/-- Every step keeps the invariant: a legal build, buffers in canonical form and within their capacities,
lengths within the capacities, the run counters in their ranges, STATUS of the form of R27 with a pair of R170. -/
def Obligations.EveryStepKeepsTheInvariant : Prop :=
  ∀ s t : State, s.Inv → step s = .next t → t.Inv

/-! ### Host accesses -/

/-- R54, R55: an access of another width, misaligned or unmapped is a bus error and gives no state; an unlisted
offset of the register region reads 0 and ignores a write. -/
def Obligations.BusErrorsAndUnlistedOffsets : Prop :=
  ∀ (s : State) (addr : BitVec 19) (width : Nat) (v : Word),
    ((width ≠ 32 ∨ addr.toNat % 4 ≠ 0 ∨ ¬ Mapped s.caps addr.toNat) →
      ∃ f, (f = .busWidth width ∨ f = .busMisaligned addr ∨ f = .busUnmapped addr) ∧
        perform (.read addr width) s = .fault f ∧ perform (.write addr width v) s = .fault f) ∧
    (width = 32 → addr.toNat % 4 = 0 → addr.toNat < 0x1000 →
      addr.toNat ∉ (resetTable s.caps).map Prod.fst →
        perform (.read addr width) s = .next { s with rdata := some 0 } ∧
          perform (.write addr width v) s = .next s)

/-- R56: a read changes nothing but the model's own record of the value returned, and a second read of the same
place returns the same value.  R23, R24 to R50: in every state each register reads as its field, the read-only ones
among them. -/
def Obligations.HostReadsArePureAndIdempotent : Prop :=
  (∀ (s t : State) (addr : BitVec 19) (width : Nat), perform (.read addr width) s = .next t →
    ∃ v, t = { s with rdata := some v } ∧ perform (.read addr width) t = .next t) ∧
  ∀ (s : State), ∀ p ∈ registerFields s, ReadsAs s p.1 p.2

/-- R63: a host read of a window word that covers an unwritten element is a model fault of such an element. -/
def Obligations.UnwrittenWindowReadsFault : Prop :=
  ∀ (s : State) (w k : Nat), s.caps.legal →
    (32 * w + 32 ≤ s.caps.bits.toNat → k < 32 →
      (bufGet s.mem.inp (32 * w + k) = none → ∃ j, bufGet s.mem.inp j = none ∧
        perform (.read (BitVec.ofNat 19 (0x01000 + 4 * w)) 32) s = .fault (.unwritten .inp j)) ∧
      (bufGet s.mem.out (32 * w + k) = none → ∃ j, bufGet s.mem.out j = none ∧
        perform (.read (BitVec.ofNat 19 (0x02000 + 4 * w)) 32) s = .fault (.unwritten .out j))) ∧
    (4 * w + 4 ≤ s.caps.chr.toNat → k < 4 → bufGet s.mem.chr (4 * w + k) = none →
      ∃ j, bufGet s.mem.chr j = none ∧
        perform (.read (BitVec.ofNat 19 (0x03000 + 4 * w)) 32) s = .fault (.unwritten .chr j)) ∧
    (w < s.caps.smp.toNat → k < 2 →
      (sampleGet s.mem.sin w = none →
        perform (.read (BitVec.ofNat 19 (0x10000 + 8 * w + 4 * k)) 32) s = .fault (.unwritten .sin w)) ∧
      (sampleGet s.mem.sout w = none →
        perform (.read (BitVec.ofNat 19 (0x30000 + 8 * w + 4 * k)) 32) s = .fault (.unwritten .sout w)) ∧
      (bufGet s.mem.disc w = none →
        perform (.read (BitVec.ofNat 19 (0x50000 + 4 * w)) 32) s = .fault (.unwritten .disc w)))

/-- R23: a host write to the register region, CMD apart: an RW or WARL register reads back as R23 legalises the
value, every other register but the view CRC_OUT (R41) reads as before, and a write to a read-only register or
to an unlisted offset changes nothing. -/
def Obligations.RegisterWritesStoreLegalisedValues : Prop :=
  ∀ (s : State) (off : Nat) (w : Word), off < 0x1000 → off % 4 = 0 → off ≠ 0x010 →
    ∃ t, perform (.write (BitVec.ofNat 19 off) 32 w) s = .next t ∧
      (∀ v, storedAs s.caps off w = some v → ReadsAs t off v) ∧
      (storedAs s.caps off w = none → t = s) ∧
      (∀ off' v, off' < 0x1000 → off' % 4 = 0 → off' ≠ off → off' ≠ 0x074 →
        ReadsAs s off' v → ReadsAs t off' v) ∧
      ReadsAs t 0x074 ((t.crcReg ^^^ t.cfg.crcXorout).setWidth 32) ∧
      t.mem = s.mem ∧ t.port = s.port ∧ t.tick = s.tick

/-- R58, R59: the layout of the bit and character windows.  A host read returns the elements that its word
covers; a host write sets and marks every one of them and no other element, and changes nothing else. -/
def Obligations.BitAndCharWindowWrites : Prop :=
  ∀ (s : State) (w : Nat) (v : Word), s.caps.legal →
    (32 * w + 32 ≤ s.caps.bits.toNat →
      ((∀ j, j < 32 → bufGet s.mem.inp (32 * w + j) = some (v.getLsbD (31 - j))) →
        ReadsAs s (0x01000 + 4 * w) v) ∧
      ((∀ j, j < 32 → bufGet s.mem.out (32 * w + j) = some (v.getLsbD (31 - j))) →
        ReadsAs s (0x02000 + 4 * w) v) ∧
      (∃ t, perform (.write (BitVec.ofNat 19 (0x01000 + 4 * w)) 32 v) s = .next t ∧
        (∀ j, j < 32 → bufGet t.mem.inp (32 * w + j) = some (v.getLsbD (31 - j))) ∧
        (∀ k, k < 32 * w ∨ 32 * w + 32 ≤ k → bufGet t.mem.inp k = bufGet s.mem.inp k) ∧
        t = { s with mem := { s.mem with inp := t.mem.inp } }) ∧
      (∃ t, perform (.write (BitVec.ofNat 19 (0x02000 + 4 * w)) 32 v) s = .next t ∧
        (∀ j, j < 32 → bufGet t.mem.out (32 * w + j) = some (v.getLsbD (31 - j))) ∧
        (∀ k, k < 32 * w ∨ 32 * w + 32 ≤ k → bufGet t.mem.out k = bufGet s.mem.out k) ∧
        t = { s with mem := { s.mem with out := t.mem.out } })) ∧
    (4 * w + 4 ≤ s.caps.chr.toNat →
      ((∀ j, j < 4 → bufGet s.mem.chr (4 * w + j) = some (v.extractLsb' (24 - 8 * j) 8)) →
        ReadsAs s (0x03000 + 4 * w) v) ∧
      ∃ t, perform (.write (BitVec.ofNat 19 (0x03000 + 4 * w)) 32 v) s = .next t ∧
        (∀ j, j < 4 → bufGet t.mem.chr (4 * w + j) = some (v.extractLsb' (24 - 8 * j) 8)) ∧
        (∀ k, k < 4 * w ∨ 4 * w + 4 ≤ k → bufGet t.mem.chr k = bufGet s.mem.chr k) ∧
        t = { s with mem := { s.mem with chr := t.mem.chr } })

/-- R60, R61: the layout of the sample windows.  A sample holds a value once both its words are written, I at
offset 8·n and Q at 8·n + 4; with one of them missing a read of either faults (R63). -/
def Obligations.SampleWindowWrites : Prop :=
  ∀ (s : State) (n : Nat) (i q : Word), n < s.caps.smp.toNat → s.caps.legal →
    (∃ t u, perform (.write (BitVec.ofNat 19 (0x10000 + 8 * n)) 32 i) s = .next t ∧
      perform (.write (BitVec.ofNat 19 (0x10000 + 8 * n + 4)) 32 q) t = .next u ∧
      (bufGet s.mem.sin (2 * n + 1) = none →
        perform (.read (BitVec.ofNat 19 (0x10000 + 8 * n)) 32) t = .fault (.unwritten .sin n)) ∧
      sampleGet u.mem.sin n = some (i, q) ∧
      (∀ k, k ≠ n → sampleGet u.mem.sin k = sampleGet s.mem.sin k) ∧
      u = { s with mem := { s.mem with sin := u.mem.sin } } ∧
      ReadsAs u (0x10000 + 8 * n) i ∧ ReadsAs u (0x10000 + 8 * n + 4) q) ∧
    (∃ t u, perform (.write (BitVec.ofNat 19 (0x30000 + 8 * n)) 32 i) s = .next t ∧
      perform (.write (BitVec.ofNat 19 (0x30000 + 8 * n + 4)) 32 q) t = .next u ∧
      (bufGet s.mem.sout (2 * n + 1) = none →
        perform (.read (BitVec.ofNat 19 (0x30000 + 8 * n)) 32) t = .fault (.unwritten .sout n)) ∧
      sampleGet u.mem.sout n = some (i, q) ∧
      (∀ k, k ≠ n → sampleGet u.mem.sout k = sampleGet s.mem.sout k) ∧
      u = { s with mem := { s.mem with sout := u.mem.sout } } ∧
      ReadsAs u (0x30000 + 8 * n) i ∧ ReadsAs u (0x30000 + 8 * n + 4) q) ∧
    (∃ t, perform (.write (BitVec.ofNat 19 (0x50000 + 4 * n)) 32 i) s = .next t ∧
      bufGet t.mem.disc n = some i ∧ (∀ k, k ≠ n → bufGet t.mem.disc k = bufGet s.mem.disc k) ∧
      t = { s with mem := { s.mem with disc := t.mem.disc } } ∧ ReadsAs t (0x50000 + 4 * n) i)

/-! ### All commands -/

/-- The frame of every command: a part of the state that its rule's "Writes" line does not name is unchanged,
and so are the capacities, CMD, the configuration and VS registers (and the model's own fields). -/
def Obligations.CommandsWriteOnlyWhatTheirRulesList : Prop :=
  ∀ (i : Instr) (s t : State), exec i s = .next t →
    (∀ g : Target, g ∉ writeSet i → g.same s t) ∧
      t.caps = s.caps ∧ t.cmd = s.cmd ∧ t.cfg = s.cfg ∧ t.vs = s.vs ∧
      t.port = s.port ∧ t.rdata = s.rdata ∧ t.tick = s.tick

/-- R44, for every transition but reset: a step register changes only in a CMD write of a step command of its
unit or of that unit's reset command. -/
def Obligations.StepRegistersChangeOnlyInTheirUnit : Prop :=
  ∀ (s t : State) (a : HostAction) (rest : List HostAction),
    s.port = a :: rest → a ≠ .reset → step s = .next t →
    (t.crcReg ≠ s.crcReg → ∃ w, a = .write 0x00010 32 w ∧
      (decode w = .ok .crcInit ∨ (∃ b, decode w = .ok (.crcBit b)) ∨ ∃ b, decode w = .ok (.crcByte b))) ∧
    (t.stuffCnt ≠ s.stuffCnt → ∃ w, a = .write 0x00010 32 w ∧
      (decode w = .ok .stuffReset ∨ ∃ b, decode w = .ok (.stuffBit b))) ∧
    (t.destuffCnt ≠ s.destuffCnt → ∃ w, a = .write 0x00010 32 w ∧
      (decode w = .ok .stuffReset ∨ ∃ b, decode w = .ok (.destuffBit b))) ∧
    (t.nrziEncLevel ≠ s.nrziEncLevel → ∃ w, a = .write 0x00010 32 w ∧
      (decode w = .ok .nrziReset ∨ ∃ b, decode w = .ok (.nrziEncBit b))) ∧
    (t.nrziDecPrev ≠ s.nrziDecPrev → ∃ w, a = .write 0x00010 32 w ∧
      (decode w = .ok .nrziReset ∨ ∃ b, decode w = .ok (.nrziDecBit b)))

/-- R172, R179: a command that does not succeed commits STATUS only; FIND_FLAG's NotFound also writes FLAG_POS. -/
def Obligations.ErrorsCommitOnlyStatus : Prop :=
  ∀ (i : Instr) (s t : State), exec i s = .next t → t.status ≠ 0x00010000 →
    t = { s with status := t.status } ∨
      ((i = .findFlag ∨ i = .findFlagFuzzy) ∧
        t = { s with status := 0x00010403, flagPos := 0xFFFFFFFF })

/-- R27, R170, R171: after every command STATUS is the success word, or DONE with one of the pairs that R170
lists for that command. -/
def Obligations.StatusReportsOneListedOutcome : Prop :=
  ∀ (i : Instr) (s t : State), exec i s = .next t →
    t.status = 0x00010000 ∨
      ∃ p ∈ mayReport i, t.status = p.1.setWidth 32 ||| (p.2.setWidth 32 <<< 8) ||| 0x00010000

/-- R176: no command reads STATUS, so its outcome is the same whatever the last command reported; no other host
access writes STATUS; DONE stays 1 until reset. -/
def Obligations.CommandsDoNotReadStatus : Prop :=
  (∀ (i : Instr) (s : State) (w : Word), exec i { s with status := w } = exec i s) ∧
    ∀ (s t : State) (a : HostAction) (rest : List HostAction),
      s.port = a :: rest → a ≠ .reset → step s = .next t →
        ((∀ w, a ≠ .write 0x00010 32 w) → t.status = s.status) ∧
          (s.statusDone = true → t.statusDone = true)

/-- R63, R204: a command ends in a next state, unless it reads an element that the host left unwritten below a
length register; when the host has loaded what it said it loaded, no command stops. -/
def Obligations.EveryCommandEnds : Prop :=
  (∀ (i : Instr) (s : State), (∃ t, exec i s = .next t) ∨
    ∃ b k, exec i s = .fault (.unwritten b k) ∧ s.missing b k) ∧
    ∀ (i : Instr) (s : State), s.loaded → Safe (exec i s)

/-! ### BitVector unit and system commands -/

/-- R82. -/
def Obligations.NopWritesOnlyStatus : Prop :=
  decode 0x00000000 = .ok .nop ∧ ∀ s : State, exec .nop s = .next { s with status := 0x00010000 }

/-- R83, R84: the two buffer moves, and their model fault on an unwritten source element. -/
def Obligations.MovesCopyTheOutputBuffer : Prop :=
  decode 0x00000001 = .ok .moveOutIn ∧ decode 0x00000002 = .ok .moveSoutSin ∧
    (∀ (s : State) (x : Bits), OutputBits s x →
      ∃ t, exec .moveOutIn s = .next t ∧ Writes s.mem.inp 0 x t.mem.inp ∧
        t = { s with status := 0x00010000, inLen := s.outLen, mem := { s.mem with inp := t.mem.inp } }) ∧
    (∀ (s : State) (k : Nat), k < s.outLen.toNat → bufGet s.mem.out k = none →
      ∃ j, exec .moveOutIn s = .fault (.unwritten .out j)) ∧
    (∀ (s : State) (zs : List Sample), OutputSamples s zs →
      ∃ t, exec .moveSoutSin s = .next t ∧ WritesSamples s.mem.sin zs t.mem.sin ∧
        t = { s with status := 0x00010000, sinLen := s.soutLen, mem := { s.mem with sin := t.mem.sin } }) ∧
    (∀ (s : State) (k : Nat), k < s.soutLen.toNat → sampleGet s.mem.sout k = none →
      ∃ j, exec .moveSoutSin s = .fault (.unwritten .sout j))

/-- R85, R86: bits to bytes and back, most significant bit first, with their errors. -/
def Obligations.PackAndUnpackBytes : Prop :=
  (∀ (s : State) (x : Bits), InputBits s x → x.length % 8 = 0 → x.length / 8 ≤ s.caps.chr.toNat →
    ∃ t cs, exec .packBytes s = .next t ∧ cs.length = x.length / 8 ∧
      (∀ k j, k < cs.length → j < 8 → (cs.getD k 0).getLsbD (7 - j) = x.getD (8 * k + j) false) ∧
      Writes s.mem.chr 0 cs t.mem.chr ∧ t.chrLen.toNat = cs.length ∧
      t = { s with status := 0x00010000, chrLen := t.chrLen, mem := { s.mem with chr := t.mem.chr } }) ∧
  (∀ s : State, s.inLen.toNat % 8 ≠ 0 → FailsWith .packBytes s 0x00010B01) ∧
  (∀ s : State, s.inLen.toNat % 8 = 0 → s.caps.chr.toNat < s.inLen.toNat / 8 →
    FailsWith .packBytes s 0x00010208) ∧
  (∀ (s : State) (cs : List Byte), InputChars s cs → 8 * cs.length ≤ s.caps.bits.toNat →
    ∃ t x, exec .unpackBytes s = .next t ∧ x.length = 8 * cs.length ∧
      (∀ k j, k < cs.length → j < 8 → x.getD (8 * k + j) false = (cs.getD k 0).getLsbD (7 - j)) ∧
      Writes s.mem.out 0 x t.mem.out ∧ t.outLen.toNat = x.length ∧
      t = { s with status := 0x00010000, outLen := t.outLen, mem := { s.mem with out := t.mem.out } }) ∧
  (∀ s : State, s.caps.bits.toNat < 8 * s.chrLen.toNat → FailsWith .unpackBytes s 0x00010108)

/-- R87: the bits of each 8-bit group in reverse order. -/
def Obligations.ReverseBytesReversesEachGroup : Prop :=
  (∀ (s : State) (x : Bits), InputBits s x → x.length % 8 = 0 →
    ∃ t y, exec .reverseBytes s = .next t ∧ y.length = x.length ∧
      (∀ k j, 8 * k < x.length → j < 8 → y.getD (8 * k + j) false = x.getD (8 * k + 7 - j) false) ∧
      Writes s.mem.out 0 y t.mem.out ∧
      t = { s with status := 0x00010000, outLen := s.inLen, mem := { s.mem with out := t.mem.out } }) ∧
  (∀ s : State, s.inLen.toNat % 8 ≠ 0 → FailsWith .reverseBytes s 0x00010B01)

/-- R88: from legal registers the self-test succeeds, so ProtocolInconsistency(LOOPBACK) is never reached; the
errors of pos_encode come first, those of frame_cfg_check second. -/
def Obligations.LoopbackSelftestSucceeds : Prop :=
  (∀ s : State, s.vs.legal → s.cfg.searchLegal →
    exec .selftestLoopback s = .next { s with status := 0x00010000 }) ∧
  (∀ s : State, s.vs.legal → ¬ s.cfg.searchLegal → FailsWith .selftestLoopback s 0x00010E01) ∧
  (∀ (s : State) (st : Word), ¬ s.vs.legal → FailsWith .encodePos s st → FailsWith .selftestLoopback s st)

/-! ### CRC -/

/-- R89, R97, R98, R99: the step commands of the CRC engine.  CRC_BYTE equals eight CRC_BIT steps over the bits
of its byte, bit 7 first. -/
def Obligations.CrcStepCommands : Prop :=
  (∀ s : State, exec .crcInit s = .next { s with status := 0x00010000, crcReg := 0xFFFF }) ∧
  (∀ (s : State) (imm : Byte),
    let x : BitVec 16 := s.crcReg ^^^ (if imm.getLsbD 0 then 0x8000 else 0)
    exec (.crcBit imm) s = .next { s with
      status := 0x00010000, crcReg := if x.getLsbD 15 then (x <<< 1) ^^^ 0x1021 else x <<< 1 }) ∧
  (∀ (s : State) (B : Byte),
    exec (.crcByte B) s = .next { s with
      status := 0x00010000, crcReg := ((List.range 8).map (fun j => B.getLsbD (7 - j))).foldl crcStep s.crcReg })

/-- R90, R91, R100, R101, R104: the CRC of the input, by bits and by bytes; CRC_SELFTEST never reports a
difference (R94). -/
def Obligations.CrcBufferCommands : Prop :=
  (∀ (s : State) (x : Bits), InputBits s x →
    exec .crcBuf s = .next { s with
      status := 0x00010000, crcValue := x.foldl crcStep 0xFFFF ^^^ s.cfg.crcXorout }) ∧
  (∀ (s : State) (x : Bits), InputBits s x → x.length % 8 = 0 →
    exec .crcBufBytes s = .next { s with
      status := 0x00010000, crcValue := x.foldl crcStep 0xFFFF ^^^ s.cfg.crcXorout } ∧
    exec .crcSelftest s = .next { s with
      status := 0x00010000, crcValue := x.foldl crcStep 0xFFFF ^^^ s.cfg.crcXorout }) ∧
  (∀ s : State, s.inLen.toNat % 8 ≠ 0 →
    FailsWith .crcBufBytes s 0x00010B01 ∧ FailsWith .crcSelftest s 0x00010B01)

/-- R92, R102: the message followed by the 16 bits of its CRC, bit 15 first. -/
def Obligations.CrcAppendWritesMessageAndCrc : Prop :=
  (∀ (s : State) (x : Bits), InputBits s x → x.length + 16 ≤ s.caps.bits.toNat →
    let c := x.foldl crcStep 0xFFFF ^^^ s.cfg.crcXorout
    ∃ t, exec .crcAppend s = .next t ∧
      Writes s.mem.out 0 (x ++ (List.range 16).map (fun j => c.getLsbD (15 - j))) t.mem.out ∧
      t.outLen.toNat = x.length + 16 ∧
      t = { s with status := 0x00010000, crcValue := c, outLen := t.outLen,
                   mem := { s.mem with out := t.mem.out } }) ∧
  (∀ s : State, s.caps.bits.toNat < s.inLen.toNat + 16 → FailsWith .crcAppend s 0x00010108)

/-- R103: CRC_CHECK passes exactly when the last 16 bits of IN are the CRC of the bits before them. -/
def Obligations.CrcCheckComparesTheField : Prop :=
  (∀ (s : State) (m : Bits) (rx : BitVec 16),
    InputBits s (m ++ (List.range 16).map (fun j => rx.getLsbD (15 - j))) →
    (m.foldl crcStep 0xFFFF ^^^ s.cfg.crcXorout = rx →
      exec .crcCheck s = .next { s with status := 0x00010000, crcValue := rx, crcRx := rx }) ∧
    (m.foldl crcStep 0xFFFF ^^^ s.cfg.crcXorout ≠ rx → FailsWith .crcCheck s 0x00010105)) ∧
  (∀ s : State, s.inLen.toNat < 16 → FailsWith .crcCheck s 0x00010402)

/-- R94: the byte step equals eight bit steps, so both variants agree on every byte string. -/
def Obligations.ByteAndBitCrcAgree : Prop :=
  (∀ (r : BitVec 16) (B : Byte), crcByteStep r B = (ubits 8 B.toNat).foldl crcStep r) ∧
    ∀ C : List Byte, C.foldl crcByteStep 0xFFFF = crcOfBits (bitsOfBytes C)

/-- R96: a single flipped bit always changes the CRC. -/
def Obligations.EveryBitFlipChangesTheCrc : Prop :=
  ∀ (xorout : BitVec 16) (S : Bits) (i : Nat) (h : i < S.length),
    crc16 xorout (S.set i (!S[i])) ≠ crc16 xorout S

/-! ### HDLC -/

/-- R116, R129: the unit resets of the stuffer and of the NRZI coder. -/
def Obligations.UnitResetCommands : Prop :=
  decode 0x00000020 = .ok .stuffReset ∧ decode 0x00000030 = .ok .nrziReset ∧
    (∀ s : State, exec .stuffReset s = .next { s with status := 0x00010000, stuffCnt := 0, destuffCnt := 0 }) ∧
    ∀ s : State, exec .nrziReset s = .next { s with
      status := 0x00010000, nrziEncLevel := s.cfg.config.getLsbD 0, nrziDecPrev := s.cfg.config.getLsbD 0 }

/-- R117, R118: one bit of the stuffer and one of the destuffer, appended to OUT. -/
def Obligations.StuffAndDestuffOneBit : Prop :=
  (∀ (s : State) (imm : Byte) (emit : Bits) (c : BitVec 3),
    ((imm.getLsbD 0 = true ∧ s.stuffCnt = 4 ∧ emit = [true, false] ∧ c = 0) ∨
      (imm.getLsbD 0 = true ∧ s.stuffCnt ≠ 4 ∧ emit = [true] ∧ c = s.stuffCnt + 1) ∨
      (imm.getLsbD 0 = false ∧ emit = [false] ∧ c = 0)) →
    (s.outLen.toNat + emit.length ≤ s.caps.bits.toNat →
      ∃ t, exec (.stuffBit imm) s = .next t ∧ Writes s.mem.out s.outLen.toNat emit t.mem.out ∧
        t.outLen.toNat = s.outLen.toNat + emit.length ∧
        t = { s with status := 0x00010000, stuffCnt := c, outLen := t.outLen,
                     mem := { s.mem with out := t.mem.out } }) ∧
    (s.caps.bits.toNat < s.outLen.toNat + emit.length → FailsWith (.stuffBit imm) s 0x00010108)) ∧
  (∀ (s : State) (imm : Byte),
    (s.destuffCnt = 5 → imm.getLsbD 0 = false →
      exec (.destuffBit imm) s = .next { s with status := 0x00010000, destuffCnt := 0 }) ∧
    (s.destuffCnt = 5 → imm.getLsbD 0 = true → FailsWith (.destuffBit imm) s 0x00010205) ∧
    (s.destuffCnt ≠ 5 → s.outLen.toNat + 1 ≤ s.caps.bits.toNat →
      ∃ t, exec (.destuffBit imm) s = .next t ∧
        Writes s.mem.out s.outLen.toNat [imm.getLsbD 0] t.mem.out ∧
        t.outLen.toNat = s.outLen.toNat + 1 ∧
        t = { s with status := 0x00010000,
                     destuffCnt := if imm.getLsbD 0 then s.destuffCnt + 1 else 0, outLen := t.outLen,
                     mem := { s.mem with out := t.mem.out } }) ∧
    (s.destuffCnt ≠ 5 → s.caps.bits.toNat < s.outLen.toNat + 1 → FailsWith (.destuffBit imm) s 0x00010108))

/-- R119, R120: stuffing and destuffing of the whole input. -/
def Obligations.StuffAndDestuffBuffers : Prop :=
  (∀ (s : State) (x : Bits), InputBits s x →
    ((stuff x).length ≤ s.caps.bits.toNat →
      ∃ t, exec .stuffBuf s = .next t ∧ Writes s.mem.out 0 (stuff x) t.mem.out ∧
        t.outLen.toNat = (stuff x).length ∧
        t = { s with status := 0x00010000, outLen := t.outLen, mem := { s.mem with out := t.mem.out } }) ∧
    (s.caps.bits.toNat < (stuff x).length → FailsWith .stuffBuf s 0x00010108)) ∧
  (∀ (s : State) (x : Bits), InputBits s x →
    (∀ y, destuff x = .ok y →
      ∃ t, exec .destuffBuf s = .next t ∧ Writes s.mem.out 0 y t.mem.out ∧ t.outLen.toNat = y.length ∧
        y.length ≤ x.length ∧
        t = { s with status := 0x00010000, outLen := t.outLen, mem := { s.mem with out := t.mem.out } }) ∧
    ((∀ y, destuff x ≠ .ok y) → FailsWith .destuffBuf s 0x00010205))

/-- R108: `destuff(stuff(x))` never raises and is x. -/
def Obligations.DestuffInvertsStuff : Prop := ∀ x : Bits, destuff (stuff x) = .ok x

/-- R109: no run of six or more consecutive 1 bits before NRZI coding; after it such a run can occur
(90_conflicts.md C4). -/
def Obligations.StuffedBitsHaveNoSixOnes : Prop :=
  (∀ (x : Bits) (i : Nat), slice (stuff x) i (i + 6) ≠ List.replicate 6 true) ∧
    ∃ (x : Bits) (l : Bool) (i : Nat), slice (nrziEnc l (stuff x)) i (i + 6) = List.replicate 6 true

/-- R107: destuffing fails exactly on an input with six consecutive 1 bits, and then with
DESTUFF_VIOLATION. -/
def Obligations.DestuffFailsExactlyOnSixOnes : Prop :=
  ∀ x : Bits, ((∃ i, slice x i (i + 6) = List.replicate 6 true) ↔ destuff x = raise .destuffViolation) ∧
    ((∀ i, slice x i (i + 6) ≠ List.replicate 6 true) ↔ ∃ y, destuff x = .ok y)

/-- R121: FLAG_POS is the lowest index at or above SEARCH_START whose 8 bits agree with 01111110 in all 8 places
(FIND_FLAG) or in FLAG_MIN_AGREE places (FIND_FLAG.FUZZY); with none, FLAG_POS = 0xFFFFFFFF and
FlagNotFound(SEARCH); an illegal FLAG_MIN_AGREE stops the fuzzy search only. -/
def Obligations.FlagSearch : Prop :=
  (∀ (s : State) (x : Bits) (i : Instr) (k : Nat), InputBits s x →
    ((i = .findFlag ∧ k = 8) ∨ (i = .findFlagFuzzy ∧ k = s.cfg.flagMinAgree.toNat ∧ 6 ≤ k ∧ k ≤ 8)) →
    let flag : Bits := [false, true, true, true, true, true, true, false]
    let hit := fun n : Nat =>
      s.cfg.searchStart.toNat ≤ n ∧ n + 8 ≤ x.length ∧ k ≤ agree (slice x n (n + 8)) flag
    (∀ n, hit n → (∀ m, m < n → ¬ hit m) →
      exec i s = .next { s with status := 0x00010000, flagPos := BitVec.ofNat 32 n }) ∧
    ((∀ n, ¬ hit n) → exec i s = .next { s with status := 0x00010403, flagPos := 0xFFFFFFFF })) ∧
  (∀ s : State, (s.cfg.flagMinAgree.toNat < 6 ∨ 8 < s.cfg.flagMinAgree.toNat) →
    FailsWith .findFlagFuzzy s 0x00010E01)

/-- R105, R111, R122: training, flag, NRZI of the stuffed message and CRC, flag, and 8 zeros when BUFFER_BITS = 1;
the first 32 bits are those of R112. -/
def Obligations.BuildFrameAssemblesTheFrame : Prop :=
  ∀ (s : State) (x : Bits), InputBits s x →
    let train : Bits := (List.range 24).map (fun j => decide (j % 2 = 1))
    let flag : Bits := [false, true, true, true, true, true, true, false]
    let c := x.foldl crcStep 0xFFFF ^^^ s.cfg.crcXorout
    let p := x ++ (List.range 16).map (fun j => c.getLsbD (15 - j))
    let f := train ++ flag ++ nrziEnc (s.cfg.config.getLsbD 0) (stuff p) ++ flag ++
      (if s.cfg.config.getLsbD 2 then List.replicate 8 false else [])
    (f.length ≤ s.caps.bits.toNat →
      ∃ t, exec .buildFrame s = .next t ∧ Writes s.mem.out 0 f t.mem.out ∧ t.outLen.toNat = f.length ∧
        t = { s with status := 0x00010000, outLen := t.outLen, mem := { s.mem with out := t.mem.out } }) ∧
    (s.caps.bits.toNat < f.length → FailsWith .buildFrame s 0x00010108)

/-- R114: where `locate` finds a frame.  The start is the candidate whose 32 bits agree best with TRAIN and FLAG,
the first of the best; the payload region, NRZI-decoded, is the stuffing of the 184 payload bits; the end flag
agrees; and whatever meets this is found.  Too short an input, no training match, no start flag, a payload that
ends early, a sixth 1 in a row before the payload is whole, an end flag cut off and an end flag that does not agree
have their errors. -/
def Obligations.LocateFindsTheBestFrame : Prop :=
  ∀ (c : Cfg) (B : Bits), c.searchLegal →
    let trains := fun t : Nat => t < c.trainSpan.toNat ∧ t + 32 ≤ B.length ∧
      c.trainMinAgree.toNat ≤ agree (slice B t (t + 24)) trainBits
    let good := fun t : Nat => trains t ∧
      c.flagMinAgree.toNat ≤ agree (slice B (t + 24) (t + 32)) flagBits
    let score := fun t : Nat => agree (slice B t (t + 32)) (trainBits ++ flagBits)
    let best := fun p : Nat => good p ∧ ∀ t, good t → score t < score p ∨ (score t = score p ∧ p ≤ t)
    let coded := fun p : Nat => nrziDec c.nrziInit (B.drop (p + 32))
    (B.length < 208 → locate c (B.map some) = raise .belowMinimum) ∧
    (208 ≤ B.length → (∀ t, ¬ trains t) → locate c (B.map some) = raise .training) ∧
    (208 ≤ B.length → (∃ t, trains t) → (∀ t, ¬ good t) → locate c (B.map some) = raise .startFlag) ∧
    (∀ l, locate c (B.map some) = .ok l →
      best l.p ∧ l.q = l.p + 32 ∧ l.q ≤ l.e ∧ l.e + 8 ≤ B.length ∧
      c.flagMinAgree.toNat ≤ agree (slice B l.e (l.e + 8)) flagBits ∧
      l.pay.length = 184 ∧ nrziDec c.nrziInit (slice B l.q l.e) = stuff l.pay) ∧
    (∀ p, 208 ≤ B.length → best p →
      (∀ pay ext, pay.length = 184 → ext ≠ [] → stuff pay = coded p ++ ext →
        locate c (B.map some) = raise .payloadTruncated) ∧
      (∀ n y, n < (coded p).length → destuff ((coded p).take n) = .ok y → y.length ≤ 184 →
        destuff ((coded p).take (n + 1)) = raise .destuffViolation →
        locate c (B.map some) = raise .destuffViolation) ∧
      (∀ e pay, pay.length = 184 → p + 32 ≤ e → e ≤ B.length →
        nrziDec c.nrziInit (slice B (p + 32) e) = stuff pay →
        (B.length < e + 8 → locate c (B.map some) = raise .endFlagTruncated) ∧
        (e + 8 ≤ B.length → agree (slice B e (e + 8)) flagBits < c.flagMinAgree.toNat →
          locate c (B.map some) = raise .endFlag) ∧
        (e + 8 ≤ B.length → c.flagMinAgree.toNat ≤ agree (slice B e (e + 8)) flagBits →
          locate c (B.map some) = .ok { p := p, q := p + 32, e := e, pay := pay })))

/-- R115: deframing inverts framing, whatever follows the frame: for every 168-bit message the frame is found at
offset 0 and the message comes back with its CRC. -/
def Obligations.DeframeInvertsFrame : Prop :=
  ∀ (c : Cfg) (m tail : Bits), m.length = 168 → c.searchLegal →
    ∃ d, deframeFn c ((frameBits c m ++ tail).map some) = .ok d ∧
      d.msg = m ∧ d.p = 0 ∧ d.q = 32 ∧ d.e = 32 + (stuff (withCrc c.crcXorout m)).length ∧
      d.crc = crc16 c.crcXorout m ∧ d.rx = d.crc

/-- R123, R124: the commands over `locate` and `deframe_fn` (R114, R115): what they write and that their errors
are reported. -/
def Obligations.ExtractPayloadAndDeframe : Prop :=
  (∀ s : State, ¬ s.cfg.searchLegal →
    FailsWith .extractPayload s 0x00010E01 ∧ FailsWith .deframe s 0x00010E01) ∧
  (∀ (s : State) (x : Bits), InputBits s x → s.cfg.searchLegal →
    (∀ l, locate s.cfg (x.map some) = .ok l →
      ∃ t, exec .extractPayload s = .next t ∧ Writes s.mem.out 0 (slice x l.q l.e) t.mem.out ∧
        t.outLen.toNat = l.e - l.q ∧ t.framePos.frameStart.toNat = l.p ∧
        t.framePos.payloadStart.toNat = l.q ∧ t.framePos.payloadEnd.toNat = l.e ∧
        t = { s with status := 0x00010000, outLen := t.outLen, framePos := t.framePos,
                     mem := { s.mem with out := t.mem.out } }) ∧
    (∀ e, locate s.cfg (x.map some) = raise e → FailsWith .extractPayload s e.status) ∧
    (∀ d, deframeFn s.cfg (x.map some) = .ok d →
      ∃ t, exec .deframe s = .next t ∧ Writes s.mem.out 0 d.msg t.mem.out ∧
        t.outLen.toNat = 168 ∧ t.framePos.frameStart.toNat = d.p ∧
        t.framePos.payloadStart.toNat = d.q ∧ t.framePos.payloadEnd.toNat = d.e ∧
        t.crcRx = t.crcValue ∧ t.crcValue = d.msg.foldl crcStep 0xFFFF ^^^ s.cfg.crcXorout ∧
        t = { s with status := 0x00010000, outLen := t.outLen, framePos := t.framePos,
                     crcValue := t.crcValue, crcRx := t.crcRx, mem := { s.mem with out := t.mem.out } }) ∧
    (∀ e, deframeFn s.cfg (x.map some) = raise e → FailsWith .deframe s e.status))

/-! ### NRZI -/

/-- R125, R126, R130 to R133: the NRZI commands.  A 0 toggles the level and a 1 holds it; a symbol equal to the
one before decodes to 1; the whole-buffer commands start from CONFIG.NRZI_INIT. -/
def Obligations.NrziCommands : Prop :=
  (∀ (s : State) (imm : Byte),
    let level := if imm.getLsbD 0 then s.nrziEncLevel else !s.nrziEncLevel
    (s.outLen.toNat + 1 ≤ s.caps.bits.toNat →
      (∃ t, exec (.nrziEncBit imm) s = .next t ∧ Writes s.mem.out s.outLen.toNat [level] t.mem.out ∧
        t.outLen.toNat = s.outLen.toNat + 1 ∧
        t = { s with status := 0x00010000, nrziEncLevel := level, outLen := t.outLen,
                     mem := { s.mem with out := t.mem.out } }) ∧
      (∃ t, exec (.nrziDecBit imm) s = .next t ∧
        Writes s.mem.out s.outLen.toNat [decide (imm.getLsbD 0 = s.nrziDecPrev)] t.mem.out ∧
        t.outLen.toNat = s.outLen.toNat + 1 ∧
        t = { s with status := 0x00010000, nrziDecPrev := imm.getLsbD 0, outLen := t.outLen,
                     mem := { s.mem with out := t.mem.out } })) ∧
    (s.caps.bits.toNat < s.outLen.toNat + 1 →
      FailsWith (.nrziEncBit imm) s 0x00010108 ∧ FailsWith (.nrziDecBit imm) s 0x00010108)) ∧
  (∀ (s : State) (x : Bits), InputBits s x →
    let before := fun (y : Bits) (k : Nat) => (s.cfg.config.getLsbD 0 :: y).getD k false
    (∃ t y, exec .nrziEncBuf s = .next t ∧ y.length = x.length ∧
      (∀ k, k < x.length → y.getD k false = if x.getD k false then before y k else !before y k) ∧
      Writes s.mem.out 0 y t.mem.out ∧
      t = { s with status := 0x00010000, outLen := s.inLen, mem := { s.mem with out := t.mem.out } }) ∧
    (∃ t y, exec .nrziDecBuf s = .next t ∧ y.length = x.length ∧
      (∀ k, k < x.length → y.getD k false = decide (x.getD k false = before x k)) ∧
      Writes s.mem.out 0 y t.mem.out ∧
      t = { s with status := 0x00010000, outLen := s.inLen, mem := { s.mem with out := t.mem.out } }))

/-- R127: decoding inverts encoding and encoding inverts decoding, at either initial level. -/
def Obligations.NrziRoundTrip : Prop :=
  ∀ (x : Bits) (l : Bool), nrziDec l (nrziEnc l x) = x ∧ nrziEnc l (nrziDec l x) = x

/-- R128: initial levels that differ, or an input inverted throughout, corrupt bit 0 only. -/
def Obligations.NrziMismatchCorruptsOneBit : Prop :=
  ∀ (b : Bool) (x : Bits) (l : Bool),
    nrziDec (!l) (nrziEnc l (b :: x)) = (!b) :: x ∧
      ∀ y : Bool, nrziDec l ((y :: x).map (!·)) = (!(nrziDec l (y :: x)).headD false) :: (nrziDec l (y :: x)).tail

/-! ### AIS codec -/

/-- R134, R135, R140: the report that ENCODE_POS packs, field by field, and the first failing check. -/
def Obligations.EncodePosPacksTheReport : Prop :=
  (∀ s : State, s.vs.legal →
    ∃ t m, exec .encodePos s = .next t ∧ m.length = 168 ∧ Writes s.mem.out 0 m t.mem.out ∧
      uval (slice m 0 6) = 1 ∧ uval (slice m 6 8) = 0 ∧ uval (slice m 8 38) = s.vs.mmsi.toNat ∧
      uval (slice m 38 42) = s.vs.nav.toNat ∧ uval (slice m 42 50) = 128 ∧
      uval (slice m 50 60) = min s.vs.sog.toNat 1022 ∧ uval (slice m 60 61) = 0 ∧
      sval (slice m 61 89) = s.vs.lon.toInt ∧ sval (slice m 89 116) = s.vs.lat.toInt ∧
      uval (slice m 116 128) = s.vs.cog.toNat ∧ uval (slice m 128 137) = s.vs.hdg.toNat ∧
      uval (slice m 137 143) = s.vs.ts.toNat % 60 ∧ uval (slice m 143 168) = 0 ∧
      t = { s with status := 0x00010000, outLen := 168, mem := { s.mem with out := t.mem.out } }) ∧
  (∀ s : State,
    let okMmsi := 100000000 ≤ s.vs.mmsi.toNat ∧ s.vs.mmsi.toNat ≤ 999999999
    let okNav := s.vs.nav.toNat ≤ 15
    let okLon := -108000000 ≤ s.vs.lon.toInt ∧ s.vs.lon.toInt ≤ 108000000
    let okLat := -54000000 ≤ s.vs.lat.toInt ∧ s.vs.lat.toInt ≤ 54000000
    let okCog := s.vs.cog.toNat ≤ 3600
    let okHdg := s.vs.hdg.toNat ≤ 359 ∨ s.vs.hdg.toNat = 511
    (¬ okMmsi → FailsWith .encodePos s 0x00010501) ∧
    (okMmsi → ¬ okNav → FailsWith .encodePos s 0x00010601) ∧
    (okMmsi → okNav → ¬ okLon → FailsWith .encodePos s 0x00010701) ∧
    (okMmsi → okNav → okLon → ¬ okLat → FailsWith .encodePos s 0x00010801) ∧
    (okMmsi → okNav → okLon → okLat → ¬ okCog → FailsWith .encodePos s 0x00010901) ∧
    (okMmsi → okNav → okLon → okLat → okCog → ¬ okHdg → FailsWith .encodePos s 0x00010A01))

/-- R50, R136, R141: the sixteen fields that DECODE_POS extracts from the first 168 bits, whatever follows them;
a type other than 1, 2, 3 and a short input have their errors. -/
def Obligations.DecodePosExtractsTheFields : Prop :=
  (∀ (s : State) (x : Bits), InputBits s x → 168 ≤ x.length →
    let u := fun a b : Nat => BitVec.ofNat 32 (uval (slice x a b))
    let type := uval (slice x 0 6)
    ((type = 1 ∨ type = 2 ∨ type = 3) →
      exec .decodePos s = .next { s with
        status := 0x00010000
        rx := { type := u 0 6, repeatInd := u 6 8, mmsi := u 8 38, nav := u 38 42, rot := u 42 50,
                sog := u 50 60, pa := u 60 61, lon := BitVec.ofInt 32 (sval (slice x 61 89)),
                lat := BitVec.ofInt 32 (sval (slice x 89 116)), cog := u 116 128, hdg := u 128 137,
                ts := u 137 143, man := u 143 145, spare := u 145 148, raim := u 148 149,
                radio := u 149 168 } }) ∧
    (¬ (type = 1 ∨ type = 2 ∨ type = 3) →
      FailsWith .decodePos s (0x00010007 ||| (BitVec.ofNat 32 type <<< 8)))) ∧
  (∀ s : State, s.inLen.toNat < 168 → FailsWith .decodePos s 0x00010402)

/-- R138, R142, R143: the armor mapping, one value at a time. -/
def Obligations.SixBitMappingCommands : Prop :=
  (∀ (s : State) (imm : Byte),
    let v := imm.toNat % 64
    exec (.six2ascii imm) s = .next { s with
      status := 0x00010000, result := BitVec.ofNat 32 (if v ≤ 39 then v + 48 else v + 56) }) ∧
  (∀ (s : State) (c : Byte),
    (48 ≤ c.toNat → c.toNat ≤ 87 →
      exec (.ascii2six c) s = .next { s with
        status := 0x00010000, result := BitVec.ofNat 32 (c.toNat - 48) }) ∧
    (96 ≤ c.toNat → c.toNat ≤ 119 →
      exec (.ascii2six c) s = .next { s with
        status := 0x00010000, result := BitVec.ofNat 32 (c.toNat - 56) }) ∧
    ((c.toNat < 48 ∨ (87 < c.toNat ∧ c.toNat < 96) ∨ 119 < c.toNat) →
      FailsWith (.ascii2six c) s 0x00010C01))

/-- R139, R144: ARMOR writes one character for each six bits of the zero-filled input and the fill count. -/
def Obligations.ArmorWritesTheText : Prop :=
  ∀ (s : State) (x : Bits), InputBits s x →
    let f := (6 - x.length % 6) % 6
    let P := x ++ List.replicate f false
    (P.length / 6 ≤ s.caps.chr.toNat →
      ∃ t cs, exec .armor s = .next t ∧ cs.length = P.length / 6 ∧
        (∀ k, k < cs.length → cs.getD k 0 = six2ascii (uval (slice P (6 * k) (6 * k + 6)))) ∧
        Writes s.mem.chr 0 cs t.mem.chr ∧ t.chrLen.toNat = cs.length ∧ t.fillBits.toNat = f ∧
        t = { s with status := 0x00010000, chrLen := t.chrLen, fillBits := t.fillBits,
                     mem := { s.mem with chr := t.mem.chr } }) ∧
    (s.caps.chr.toNat < P.length / 6 → FailsWith .armor s 0x00010208)

/-- R139, R145: DEARMOR writes the six bits of each character, less the fill bits; its errors come in the order of
the rule. -/
def Obligations.DearmorWritesTheBits : Prop :=
  (∀ s : State, (5 < s.fillBits.toNat ∨ (s.chrLen.toNat = 0 ∧ 0 < s.fillBits.toNat)) →
    FailsWith .dearmor s 0x00010D01) ∧
  (∀ (s : State) (cs : List Byte), InputChars s cs → s.fillBits.toNat ≤ 5 →
    (0 < cs.length ∨ s.fillBits.toNat = 0) →
    ((∃ c ∈ cs, ascii2six c = none) → FailsWith .dearmor s 0x00010C01) ∧
    (∀ vs : List Nat, cs.map ascii2six = vs.map some →
      (6 * cs.length - s.fillBits.toNat ≤ s.caps.bits.toNat →
        ∃ t, exec .dearmor s = .next t ∧
          Writes s.mem.out 0 ((vs.flatMap (ubits 6)).take (6 * cs.length - s.fillBits.toNat)) t.mem.out ∧
          t.outLen.toNat = 6 * cs.length - s.fillBits.toNat ∧
          t = { s with status := 0x00010000, outLen := t.outLen,
                       mem := { s.mem with out := t.mem.out } }) ∧
      (s.caps.bits.toNat < 6 * cs.length - s.fillBits.toNat → FailsWith .dearmor s 0x00010108)))

/-- R136: for every legal VS state, `pos_fields(pos_encode())` gives back the values written. -/
def Obligations.PosFieldsInvertPosEncode : Prop :=
  ∀ v : Vessel, v.legal → ∃ m, posEncode v = .ok m ∧ m.length = 168 ∧ posFields m = expectedFields v

/-- R138, R139: the two maps are inverse bijections between 0 … 63 and the 64 valid codes; dearmoring inverts
armoring, and the converse holds whenever the dropped fill bits are zero. -/
def Obligations.DearmorInvertsArmor : Prop :=
  (∀ v : Nat, v < 64 → ascii2six (six2ascii v) = some v) ∧
  (∀ (c : Byte) (v : Nat), ascii2six c = some v → v < 64 ∧ six2ascii v = c) ∧
  (∀ S : Bits, ∃ vs : List Nat, (armorChars S).map ascii2six = vs.map some ∧
    dearmorBits vs (fillOf S.length) = S) ∧
  (∀ (cs : List Byte) (vs : List Nat) (f : Nat), cs.map ascii2six = vs.map some → f ≤ 5 →
    (0 < cs.length ∨ f = 0) → (sixBits vs).drop (6 * cs.length - f) = List.replicate f false →
    armorChars (dearmorBits vs f) = cs ∧ fillOf (dearmorBits vs f).length = f)

/-! ### Modulator -/

/-- R151, R154: MODULATE writes N·S samples, each pair of words within NUM_EPS_MOD of (cos φ[n], sin φ[n]); its
errors in the order of the rule.  The words are free within that bound (log entries 2 and 18). -/
def Obligations.ModulateWritesTheBaseband : Prop :=
  (∀ s : State, (∀ S, ¬ s.cfg.hasSps S) → FailsWith .modulate s 0x00010101) ∧
  (∀ (s : State) (S : Nat), s.cfg.hasSps S →
    (s.cfg.gmsk = true → ¬ (1 ≤ s.cfg.btX100.toNat ∧ s.cfg.btX100.toNat ≤ 100) →
      FailsWith .modulate s 0x00010201) ∧
    (s.cfg.gmsk = true → 1 ≤ s.cfg.btX100.toNat → s.cfg.btX100.toNat ≤ 100 →
      ¬ (s.cfg.gaussSpan.toNat = 3 ∨ s.cfg.gaussSpan.toNat = 4) → FailsWith .modulate s 0x00010301) ∧
    (s.cfg.gmsk = false → s.cfg.fskDevHz.toNat = 0 → FailsWith .modulate s 0x00010401) ∧
    (s.cfg.modLegal → s.caps.smp.toNat < s.inLen.toNat * S → FailsWith .modulate s 0x00010308) ∧
    (∀ x, InputBits s x → s.cfg.modLegal → x.length * S ≤ s.caps.smp.toNat →
      ∃ t zs, exec .modulate s = .next t ∧ zs.length = x.length * S ∧ WritesSamples s.mem.sout zs t.mem.sout ∧
        (∀ n, ∀ h : n < zs.length,
          Within Config.hw.epsMod (Real.cos ((modJob s.cfg x).phase n)) zs[n].1 ∧
            Within Config.hw.epsMod (Real.sin ((modJob s.cfg x).phase n)) zs[n].2) ∧
        t.soutLen.toNat = zs.length ∧
        t = { s with status := 0x00010000, soutLen := t.soutLen,
                     mem := { s.mem with sout := t.mem.sout } }))

/-- R155: TRANSMIT leaves the frame of the report in OUT and its baseband in SOUT (log entries 2 and 18).  Its errors
in the order of the rule: those of the modulator's registers (R147), those of ENCODE_POS, and
CapacityExceeded(SAMPLES).  A legal build has room for every frame, so CapacityExceeded(BITS) is not reached. -/
def Obligations.TransmitWritesFrameAndBaseband : Prop :=
  (∀ s : State, (∀ S, ¬ s.cfg.hasSps S) → FailsWith .transmit s 0x00010101) ∧
  (∀ (s : State) (S : Nat), s.cfg.hasSps S →
    (s.cfg.gmsk = true → ¬ (1 ≤ s.cfg.btX100.toNat ∧ s.cfg.btX100.toNat ≤ 100) →
      FailsWith .transmit s 0x00010201) ∧
    (s.cfg.gmsk = true → 1 ≤ s.cfg.btX100.toNat → s.cfg.btX100.toNat ≤ 100 →
      ¬ (s.cfg.gaussSpan.toNat = 3 ∨ s.cfg.gaussSpan.toNat = 4) → FailsWith .transmit s 0x00010301) ∧
    (s.cfg.gmsk = false → s.cfg.fskDevHz.toNat = 0 → FailsWith .transmit s 0x00010401) ∧
    (∀ st, s.cfg.modLegal → ¬ s.vs.legal → FailsWith .encodePos s st → FailsWith .transmit s st) ∧
    (s.caps.legal → s.cfg.modLegal → s.vs.legal →
      let f := frameBits s.cfg (posBits s.vs)
      (s.caps.smp.toNat < f.length * S → FailsWith .transmit s 0x00010308) ∧
      (f.length * S ≤ s.caps.smp.toNat →
        ∃ t zs, exec .transmit s = .next t ∧ Writes s.mem.out 0 f t.mem.out ∧ t.outLen.toNat = f.length ∧
          224 ≤ f.length ∧ f.length ≤ 268 ∧
          zs.length = f.length * S ∧ WritesSamples s.mem.sout zs t.mem.sout ∧ t.soutLen.toNat = zs.length ∧
          (∀ n, ∀ h : n < zs.length,
            Within Config.hw.epsMod (Real.cos ((modJob s.cfg f).phase n)) zs[n].1 ∧
              Within Config.hw.epsMod (Real.sin ((modJob s.cfg f).phase n)) zs[n].2) ∧
          t = { s with status := 0x00010000, outLen := t.outLen, soutLen := t.soutLen,
                       mem := { s.mem with out := t.mem.out, sout := t.mem.sout } })))

/-- R150, R152: the filtered level is at most 1 in magnitude, so the ideal phase never steps by more than π/(2S)
in the GMSK profile, and by exactly 2π·FSK_DEV_HZ/SAMPLE_RATE in the FSK profile. -/
def Obligations.PhaseStepsAreBounded : Prop :=
  ∀ (j : ModJob) (n : Nat),
    |j.level n| ≤ 1 ∧
    (j.gmsk = true → |j.phase (n + 1) - j.phase n| ≤ Real.pi / (2 * j.sps)) ∧
    (j.gmsk = false →
      |j.phase (n + 1) - j.phase n| = 2 * Real.pi * j.fskDevHz.toNat / j.sampleRate.toNat)

/-! ### Demodulator and clock recovery -/

/-- R160: the loopback property over exact values: with DC removal and the filter off, the phase difference of
adjacent ideal samples divided by the expected deviation is the level that was modulated. -/
def Obligations.IdealLoopbackReturnsTheLevel : Prop :=
  ∀ (j : ModJob) (k : Nat), 1 ≤ k → 1 ≤ j.sps →
    (j.gmsk = false → 0 < j.fskDevHz.toNat ∧ 2 * j.fskDevHz.toNat < j.sampleRate.toNat) →
    let z := fun n : Nat => Complex.exp (j.phase n * Complex.I)
    Complex.arg (z k * (starRingEnd ℂ) (z (k - 1))) /
      fullStep j.gmsk j.sps j.fskDevHz.toNat j.sampleRate.toNat = j.level k

/-- R157, R159, R165: DEMODULATE writes one finite word for each sample, within NUM_EPS_DISC of the ideal
discriminator (log entries 2 and 18), and exact zeros where R165 states them; its errors in the order of the rule. -/
def Obligations.DemodulateWritesTheDiscriminator : Prop :=
  (∀ s : State, (∀ S, ¬ s.cfg.hasSps S) → FailsWith .demodulate s 0x00010101) ∧
  (∀ (s : State) (S : Nat), s.cfg.hasSps S →
    (s.cfg.gmsk = false → s.cfg.fskDevHz.toNat = 0 → FailsWith .demodulate s 0x00010401) ∧
    ((s.cfg.gmsk = false → s.cfg.fskDevHz.toNat ≠ 0) → s.cfg.lpfEn = true →
      (¬ (1 ≤ s.cfg.btX100.toNat ∧ s.cfg.btX100.toNat ≤ 100) → FailsWith .demodulate s 0x00010201) ∧
      (1 ≤ s.cfg.btX100.toNat → s.cfg.btX100.toNat ≤ 100 →
        ¬ (s.cfg.gaussSpan.toNat = 3 ∨ s.cfg.gaussSpan.toNat = 4) → FailsWith .demodulate s 0x00010301)) ∧
    (∀ zs, InputSamples s zs → s.cfg.discLegal →
      ((∃ z ∈ zs, finite32 z.1 = false ∨ finite32 z.2 = false) → FailsWith .demodulate s 0x00010F01) ∧
      ((∀ z ∈ zs, finite32 z.1 = true ∧ finite32 z.2 = true) →
        ∃ t ws, exec .demodulate s = .next t ∧ ws.length = zs.length ∧ Writes s.mem.disc 0 ws t.mem.disc ∧
          (∀ k, ∀ h : k < ws.length, Within Config.hw.epsDisc ((discJob s.cfg zs).ideal k) ws[k]) ∧
          ((∀ z ∈ zs, val32 z.1 = 0 ∧ val32 z.2 = 0) → ∀ w ∈ ws, val32 w = 0) ∧
          (s.cfg.dcRemove = true → (∀ z ∈ zs, ∀ z' ∈ zs, z = z') → ∀ w ∈ ws, val32 w = 0) ∧
          (zs.length = 1 → s.cfg.lpfEn = false → ∀ w ∈ ws, val32 w = 0) ∧
          t = { s with status := 0x00010000, discLen := s.sinLen,
                       mem := { s.mem with disc := t.mem.disc } })))

/-- R163: `recover` takes the earliest lag, normal polarity first, whose score passes the threshold and is not
beaten within one template length, and slices the symbol centres there. -/
def Obligations.RecoverTakesTheEarliestPeak : Prop :=
  ∀ (c : Cfg) (cap S : Nat) (D : List ℚ), c.hasSps S → c.acqLegal →
    let K := 32 * S
    let M := min c.acqWindow.toNat (D.length - K + 1)
    let off : Nat → ℚ := fun m => (∑ k ∈ Finset.range (24 * S), D.getD (m + k) 0) / (24 * S : Nat)
    let T : Nat → ℚ := fun k => if (trainBits ++ flagBits).getD (k / S) false then 1 else -1
    let cor : Nat → ℚ := fun m => (∑ k ∈ Finset.range K, T k * (D.getD (m + k) 0 - off m)) / (K : Nat)
    let g : Nat → Bool → ℚ := fun m p => if p then -cor m else cor m
    let peak := fun (m : Nat) (p : Bool) => m < M ∧ (c.acqThreshold.toNat : ℚ) / 65536 ≤ g m p ∧
      ∀ m', m' < M → m ≤ m' + K → m' ≤ m + K → |cor m'| ≤ g m p
    let J := fun m : Nat => (D.length - 1 - m - S / 2) / S + 1
    (D.length < K → recover c cap S D = raise .tooShort) ∧
    (K ≤ D.length → (∀ m p, ¬ peak m p) → recover c cap S D = raise .noPeak) ∧
    (∀ m p, K ≤ D.length → peak m p →
      (∀ m' p', peak m' p' → m < m' ∨ (m = m' ∧ (p = p' ∨ p = false))) →
      (cap < J m → recover c cap S D = raise .capBits) ∧
      (J m ≤ cap → ∃ a, recover c cap S D = .ok a ∧ a.lag = m ∧ a.inverted = p ∧ a.score = g m p ∧
        a.offset = off m ∧ a.bits.length = J m ∧
        ∀ j, j < J m → a.bits.getD j false =
          decide (0 < (if p then -1 else 1) * (D.getD (m + j * S + S / 2) 0 - off m))))

/-- R48, R166: RECOVER_CLOCK writes the recovered bits and the acquisition registers; its errors in the order of
the rule.  The exact word of ACQ_OFFSET at a zero, underflowing or overflowing offset is the model's choice (log
entry 7, PRESUMED): R16 does not say what rne32 gives there. -/
def Obligations.RecoverClockWritesBitsAndAcquisition : Prop :=
  (∀ s : State, (∀ S, ¬ s.cfg.hasSps S) → FailsWith .recoverClock s 0x00010101) ∧
  (∀ (s : State) (S : Nat), s.cfg.hasSps S →
    (¬ s.cfg.acqLegal → FailsWith .recoverClock s 0x00010E01) ∧
    (∀ ws, s.cfg.acqLegal → InputDisc s ws →
      ((∃ w ∈ ws, finite32 w = false) → FailsWith .recoverClock s 0x00010F01) ∧
      ((∀ w ∈ ws, finite32 w = true) →
        (∀ e, recover s.cfg s.caps.bits.toNat S (ws.map val32) = raise e →
          FailsWith .recoverClock s e.status) ∧
        (∀ a, recover s.cfg s.caps.bits.toNat S (ws.map val32) = .ok a →
          ∃ t, exec .recoverClock s = .next t ∧ Writes s.mem.out 0 a.bits t.mem.out ∧
            t.outLen.toNat = a.bits.length ∧ t.acq.lag.toNat = a.lag ∧
            t.acq.score.toInt = max (-2 ^ 31) (min ⌊a.score * 65536⌋ (2 ^ 31 - 1)) ∧
            1 ≤ t.acq.score.toInt ∧ t.acq.offset = rne32 a.offset ∧ t.acq.polarity = a.inverted ∧
            t = { s with status := 0x00010000, outLen := t.outLen, acq := t.acq,
                         mem := { s.mem with out := t.mem.out } }))))

/-- R167: RECEIVE.  Its errors in the order of the rule: the configuration errors of R156, R161 and R110 and
NONFINITE_SAMPLE before the discriminator, those of the later stages behind it.  The discriminator words ws are a
function of the state, of which only R159's bound is known (log entries 2 and 18).  RECEIVE completes when the later
stages decode ws to a report of type 1, 2 or 3; and, whatever words are drawn, when every word that R159 admits lies
within 1/4 of the levels of a frame that begins at lag 0, the one candidate lag.  The exact word of ACQ_OFFSET at a zero,
underflowing or overflowing offset is the model's choice (log entry 7, PRESUMED). -/
def Obligations.ReceiveRunsTheChain : Prop :=
  (∀ s : State, (∀ S, ¬ s.cfg.hasSps S) → FailsWith .receive s 0x00010101) ∧
  (∀ (s : State) (S : Nat), s.cfg.hasSps S →
    (s.cfg.gmsk = false → s.cfg.fskDevHz.toNat = 0 → FailsWith .receive s 0x00010401) ∧
    ((s.cfg.gmsk = false → s.cfg.fskDevHz.toNat ≠ 0) → s.cfg.lpfEn = true →
      (¬ (1 ≤ s.cfg.btX100.toNat ∧ s.cfg.btX100.toNat ≤ 100) → FailsWith .receive s 0x00010201) ∧
      (1 ≤ s.cfg.btX100.toNat → s.cfg.btX100.toNat ≤ 100 →
        ¬ (s.cfg.gaussSpan.toNat = 3 ∨ s.cfg.gaussSpan.toNat = 4) → FailsWith .receive s 0x00010301)) ∧
    (s.cfg.discLegal → ¬ (s.cfg.acqLegal ∧ s.cfg.searchLegal) → FailsWith .receive s 0x00010E01) ∧
    (∀ zs, s.cfg.discLegal → s.cfg.acqLegal → s.cfg.searchLegal → InputSamples s zs →
      ((∃ z ∈ zs, finite32 z.1 = false ∨ finite32 z.2 = false) → FailsWith .receive s 0x00010F01) ∧
      ((∀ z ∈ zs, finite32 z.1 = true ∧ finite32 z.2 = true) →
        let ws := discriminated Config.hw s zs
        (ws.length = zs.length ∧
          ∀ k, ∀ h : k < ws.length, Within Config.hw.epsDisc ((discJob s.cfg zs).ideal k) ws[k]) ∧
        (∀ e, recover s.cfg s.caps.bits.toNat S (ws.map val32) = raise e → FailsWith .receive s e.status) ∧
        (∀ a, recover s.cfg s.caps.bits.toNat S (ws.map val32) = .ok a →
          (∀ e, deframeFn s.cfg (a.bits.map some) = raise e → FailsWith .receive s e.status) ∧
          (∀ d, deframeFn s.cfg (a.bits.map some) = .ok d →
            let type := (posFields d.msg).type
            (¬ (type = 1 ∨ type = 2 ∨ type = 3) →
              FailsWith .receive s (0x00010007 ||| (BitVec.ofNat 32 type <<< 8))) ∧
            ((type = 1 ∨ type = 2 ∨ type = 3) →
              ∃ t, exec .receive s = .next t ∧ Receives s t ws a.acq d))) ∧
        (∀ (B : Bits) (d : Deframed), 2 ≤ S → s.cfg.acqWindow.toNat = 1 → s.cfg.acqThreshold.toNat ≤ 0x8000 →
          zs.length = B.length * S → B.length ≤ s.caps.bits.toNat → B.take 32 = trainBits ++ flagBits →
          deframeFn s.cfg (B.map some) = .ok d →
          ((posFields d.msg).type = 1 ∨ (posFields d.msg).type = 2 ∨ (posFields d.msg).type = 3) →
          (∀ k w, k < zs.length → Within Config.hw.epsDisc ((discJob s.cfg zs).ideal k) w →
            |val32 w - (if B.getD (k / S) false then 1 else -1)| ≤ if k = 0 then 9 / 4 else 1 / 4) →
          ∃ t q, exec .receive s = .next t ∧ Receives s t ws q d ∧ q.lag = 0 ∧ q.polarity = false))))
end

