-- ==== Sys2Proof/Laws/Bits.lean ====
section
/-! SUPPORT. What `ubits`, `uval`, `sval` and `slice` do (R8, R10). -/

namespace Sys2Proof.Machine

/-! ### Numbers as bits -/

theorem uval_foldl (S : Bits) (a : Nat) :
    S.foldl (fun acc b => 2 * acc + b.toNat) a = a * 2 ^ S.length + uval S := by
  induction S generalizing a with
  | nil => simp [uval]
  | cons b t ih =>
    simp only [List.foldl_cons, uval, List.length_cons] at ih ⊢
    rw [ih, ih (2 * 0 + b.toNat)]; ring

theorem uval_append (S T : Bits) : uval (S ++ T) = uval S * 2 ^ T.length + uval T := by
  rw [uval, List.foldl_append, uval_foldl]; rfl

@[simp] theorem ubits_length (n v : Nat) : (ubits n v).length = n := by simp [ubits]

theorem ubits_succ (n v : Nat) : ubits (n + 1) v = ubits n (v / 2) ++ [v.testBit 0] := by
  simp only [ubits, List.range_succ, List.map_append, List.map_cons, List.map_nil]
  congr 1
  · apply List.map_congr_left
    intro i hi
    have : i < n := by simpa using hi
    rw [Nat.testBit_div_two]; congr 1; omega
  · simp

theorem uval_ubits (n v : Nat) : uval (ubits n v) = v % 2 ^ n := by
  induction n generalizing v with
  | zero => simp [ubits, uval, Nat.mod_one]
  | succ n ih =>
    rw [ubits_succ, uval_append, ih]
    simp only [List.length_singleton, pow_one, uval, List.foldl_cons, List.foldl_nil, Nat.testBit_zero]
    rw [Nat.pow_succ]
    have h1 := Nat.mod_add_div v 2
    have h2 : v % (2 ^ n * 2) = v % 2 + 2 * (v / 2 % 2 ^ n) := by
      rw [Nat.mul_comm, Nat.mod_mul]
    rw [h2]
    rcases Nat.mod_two_eq_zero_or_one v with h | h <;> simp [h] <;> omega

theorem uval_lt (S : Bits) : uval S < 2 ^ S.length := by
  induction S using List.reverseRecOn with
  | nil => simp [uval]
  | append_singleton t b ih =>
    rw [uval_append]; cases b <;> (simp [uval] at ih ⊢; rw [pow_succ]; omega)

theorem ubits_uval (S : Bits) : ubits S.length (uval S) = S := by
  induction S using List.reverseRecOn with
  | nil => simp [ubits]
  | append_singleton t b ih =>
    rw [List.length_append, List.length_singleton, ubits_succ, uval_append]
    have h : uval [b] = b.toNat := by cases b <;> rfl
    rw [h, List.length_singleton, pow_one]
    have h1 : (uval t * 2 + b.toNat) / 2 = uval t := by cases b <;> simp <;> omega
    rw [h1, ih]
    congr 2
    cases b <;> simp [Nat.testBit_zero]

/-- A two's-complement field gives back every value in its range. -/
theorem sval_ubitsInt (n : Nat) (v : Int) (h1 : -2 ^ n ≤ v) (h2 : v < 2 ^ n) :
    sval (ubitsInt (n+1) v) = v := by
  have hu : uval (ubitsInt (n+1) v) = (v % (2^(n+1) : Int)).toNat := by
    rw [ubitsInt, uval_ubits]
    apply Nat.mod_eq_of_lt
    have : v % (2^(n+1) : Int) < 2^(n+1) := Int.emod_lt_of_pos _ (by positivity)
    have h0 : 0 ≤ v % (2^(n+1) : Int) := Int.emod_nonneg _ (by positivity)
    zify
    rw [Int.toNat_of_nonneg h0]; exact_mod_cast this
  have hl : (ubitsInt (n+1) v).length = n+1 := by simp [ubitsInt]
  have hh : (ubitsInt (n+1) v).head? = some ((v % (2^(n+1) : Int)).toNat.testBit n) := by
    simp [ubitsInt, ubits, List.range_succ_eq_map]
  rw [sval, hh, hu, hl]
  have hp : (2:Int)^(n+1) = 2 * 2^n := by rw [pow_succ]; ring
  have hpos : (0:Int) < 2^n := by positivity
  by_cases hv : 0 ≤ v
  · have : v % (2^(n+1) : Int) = v := Int.emod_eq_of_lt hv (by omega)
    rw [this]
    have : v.toNat.testBit n = false := by
      apply Nat.testBit_lt_two_pow; zify; rw [Int.toNat_of_nonneg hv]; exact_mod_cast h2
    rw [this]; simp [hv]
  · have : v % (2^(n+1) : Int) = v + 2^(n+1) := by
      rw [← Int.add_emod_right]; exact Int.emod_eq_of_lt (by omega) (by omega)
    rw [this]
    have : (v + 2^(n+1)).toNat.testBit n = true := by
      obtain ⟨k, hk, hk2⟩ : ∃ k : Nat, (v + 2^(n+1)).toNat = 2^n + k ∧ k < 2^n := by
        refine ⟨(v + 2^n).toNat, ?_, ?_⟩
        · zify; rw [Int.toNat_of_nonneg (by omega), Int.toNat_of_nonneg (by omega)]; omega
        · zify; rw [Int.toNat_of_nonneg (by omega)]; omega
      rw [hk, Nat.testBit_two_pow_add_eq, Nat.testBit_lt_two_pow hk2]; rfl
    rw [this]; simp; omega

/-! ### Sub-sequences -/

theorem slice_left {α} (A B : List α) (a b : Nat) (h : b ≤ A.length) : slice (A ++ B) a b = slice A a b := by
  simp only [slice]
  by_cases hab : a ≤ b
  · rw [List.drop_append_of_le_length (by omega), List.take_append_of_le_length (by simp; omega)]
  · simp [show b - a = 0 by omega]

theorem slice_right {α} (A B : List α) (a b n : Nat) (h : A.length = n) (ha : n ≤ a) :
    slice (A ++ B) a b = slice B (a - n) (b - n) := by
  subst h
  simp only [slice]
  rw [List.drop_append, List.drop_of_length_le ha, List.nil_append]
  congr 1; omega

theorem slice_all {α} (A : List α) (n : Nat) (h : A.length = n) : slice A 0 n = A := by
  subst h; simp [slice]

theorem slice_app {α} (A B : List α) (a b : Nat) : slice (A ++ B) a b =
    if A.length ≤ a then slice B (a - A.length) (b - A.length)
    else if b ≤ A.length then slice A a b else slice A a b ++ slice B 0 (b - A.length) := by
  split_ifs with h h2
  · exact slice_right _ _ _ _ _ rfl h
  · exact slice_left _ _ _ _ h2
  · simp only [slice, List.drop_zero, Nat.sub_zero]
    rw [List.drop_append_of_le_length (by omega), List.take_append, List.length_drop,
      show b - a - (A.length - a) = b - A.length by omega]

end Sys2Proof.Machine
end

