-- ==== Sys2Proof/Laws/State.lean ====
section
/-! SUPPORT. One lemma per field per named update of the state, so that no later proof unfolds a record
update. -/

namespace Sys2Proof.Machine

variable (s : State)

/-! ### setStatus -/

@[simp] theorem State.setStatus_caps (w : Word) : (s.setStatus w).caps = s.caps := rfl
@[simp] theorem State.setStatus_cmd (w : Word) : (s.setStatus w).cmd = s.cmd := rfl
@[simp] theorem State.setStatus_status (w : Word) : (s.setStatus w).status = w := rfl
@[simp] theorem State.setStatus_cfg (w : Word) : (s.setStatus w).cfg = s.cfg := rfl
@[simp] theorem State.setStatus_inLen (w : Word) : (s.setStatus w).inLen = s.inLen := rfl
@[simp] theorem State.setStatus_outLen (w : Word) : (s.setStatus w).outLen = s.outLen := rfl
@[simp] theorem State.setStatus_chrLen (w : Word) : (s.setStatus w).chrLen = s.chrLen := rfl
@[simp] theorem State.setStatus_sinLen (w : Word) : (s.setStatus w).sinLen = s.sinLen := rfl
@[simp] theorem State.setStatus_soutLen (w : Word) : (s.setStatus w).soutLen = s.soutLen := rfl
@[simp] theorem State.setStatus_discLen (w : Word) : (s.setStatus w).discLen = s.discLen := rfl
@[simp] theorem State.setStatus_fillBits (w : Word) : (s.setStatus w).fillBits = s.fillBits := rfl
@[simp] theorem State.setStatus_crcReg (w : Word) : (s.setStatus w).crcReg = s.crcReg := rfl
@[simp] theorem State.setStatus_stuffCnt (w : Word) : (s.setStatus w).stuffCnt = s.stuffCnt := rfl
@[simp] theorem State.setStatus_destuffCnt (w : Word) : (s.setStatus w).destuffCnt = s.destuffCnt := rfl
@[simp] theorem State.setStatus_nrziEncLevel (w : Word) : (s.setStatus w).nrziEncLevel = s.nrziEncLevel := rfl
@[simp] theorem State.setStatus_nrziDecPrev (w : Word) : (s.setStatus w).nrziDecPrev = s.nrziDecPrev := rfl
@[simp] theorem State.setStatus_crcValue (w : Word) : (s.setStatus w).crcValue = s.crcValue := rfl
@[simp] theorem State.setStatus_crcRx (w : Word) : (s.setStatus w).crcRx = s.crcRx := rfl
@[simp] theorem State.setStatus_flagPos (w : Word) : (s.setStatus w).flagPos = s.flagPos := rfl
@[simp] theorem State.setStatus_framePos (w : Word) : (s.setStatus w).framePos = s.framePos := rfl
@[simp] theorem State.setStatus_result (w : Word) : (s.setStatus w).result = s.result := rfl
@[simp] theorem State.setStatus_acq (w : Word) : (s.setStatus w).acq = s.acq := rfl
@[simp] theorem State.setStatus_vs (w : Word) : (s.setStatus w).vs = s.vs := rfl
@[simp] theorem State.setStatus_rx (w : Word) : (s.setStatus w).rx = s.rx := rfl
@[simp] theorem State.setStatus_port (w : Word) : (s.setStatus w).port = s.port := rfl
@[simp] theorem State.setStatus_rdata (w : Word) : (s.setStatus w).rdata = s.rdata := rfl
@[simp] theorem State.setStatus_tick (w : Word) : (s.setStatus w).tick = s.tick := rfl
@[simp] theorem State.setStatus_mem (w : Word) : (s.setStatus w).mem = s.mem := rfl

/-! ### putOut -/

@[simp] theorem State.putOut_caps (base : Nat) (bits : Bits) : (s.putOut base bits).caps = s.caps := rfl
@[simp] theorem State.putOut_cmd (base : Nat) (bits : Bits) : (s.putOut base bits).cmd = s.cmd := rfl
@[simp] theorem State.putOut_status (base : Nat) (bits : Bits) : (s.putOut base bits).status = s.status := rfl
@[simp] theorem State.putOut_cfg (base : Nat) (bits : Bits) : (s.putOut base bits).cfg = s.cfg := rfl
@[simp] theorem State.putOut_inLen (base : Nat) (bits : Bits) : (s.putOut base bits).inLen = s.inLen := rfl
@[simp] theorem State.putOut_outLen (base : Nat) (bits : Bits) : (s.putOut base bits).outLen = BitVec.ofNat 32 (base + bits.length) := rfl
@[simp] theorem State.putOut_chrLen (base : Nat) (bits : Bits) : (s.putOut base bits).chrLen = s.chrLen := rfl
@[simp] theorem State.putOut_sinLen (base : Nat) (bits : Bits) : (s.putOut base bits).sinLen = s.sinLen := rfl
@[simp] theorem State.putOut_soutLen (base : Nat) (bits : Bits) : (s.putOut base bits).soutLen = s.soutLen := rfl
@[simp] theorem State.putOut_discLen (base : Nat) (bits : Bits) : (s.putOut base bits).discLen = s.discLen := rfl
@[simp] theorem State.putOut_fillBits (base : Nat) (bits : Bits) : (s.putOut base bits).fillBits = s.fillBits := rfl
@[simp] theorem State.putOut_crcReg (base : Nat) (bits : Bits) : (s.putOut base bits).crcReg = s.crcReg := rfl
@[simp] theorem State.putOut_stuffCnt (base : Nat) (bits : Bits) : (s.putOut base bits).stuffCnt = s.stuffCnt := rfl
@[simp] theorem State.putOut_destuffCnt (base : Nat) (bits : Bits) : (s.putOut base bits).destuffCnt = s.destuffCnt := rfl
@[simp] theorem State.putOut_nrziEncLevel (base : Nat) (bits : Bits) : (s.putOut base bits).nrziEncLevel = s.nrziEncLevel := rfl
@[simp] theorem State.putOut_nrziDecPrev (base : Nat) (bits : Bits) : (s.putOut base bits).nrziDecPrev = s.nrziDecPrev := rfl
@[simp] theorem State.putOut_crcValue (base : Nat) (bits : Bits) : (s.putOut base bits).crcValue = s.crcValue := rfl
@[simp] theorem State.putOut_crcRx (base : Nat) (bits : Bits) : (s.putOut base bits).crcRx = s.crcRx := rfl
@[simp] theorem State.putOut_flagPos (base : Nat) (bits : Bits) : (s.putOut base bits).flagPos = s.flagPos := rfl
@[simp] theorem State.putOut_framePos (base : Nat) (bits : Bits) : (s.putOut base bits).framePos = s.framePos := rfl
@[simp] theorem State.putOut_result (base : Nat) (bits : Bits) : (s.putOut base bits).result = s.result := rfl
@[simp] theorem State.putOut_acq (base : Nat) (bits : Bits) : (s.putOut base bits).acq = s.acq := rfl
@[simp] theorem State.putOut_vs (base : Nat) (bits : Bits) : (s.putOut base bits).vs = s.vs := rfl
@[simp] theorem State.putOut_rx (base : Nat) (bits : Bits) : (s.putOut base bits).rx = s.rx := rfl
@[simp] theorem State.putOut_port (base : Nat) (bits : Bits) : (s.putOut base bits).port = s.port := rfl
@[simp] theorem State.putOut_rdata (base : Nat) (bits : Bits) : (s.putOut base bits).rdata = s.rdata := rfl
@[simp] theorem State.putOut_tick (base : Nat) (bits : Bits) : (s.putOut base bits).tick = s.tick := rfl
@[simp] theorem State.putOut_inp (base : Nat) (bits : Bits) :
    (s.putOut base bits).mem.inp = s.mem.inp := rfl
@[simp] theorem State.putOut_out (base : Nat) (bits : Bits) :
    (s.putOut base bits).mem.out = bufPut s.mem.out base bits := rfl
@[simp] theorem State.putOut_chr (base : Nat) (bits : Bits) :
    (s.putOut base bits).mem.chr = s.mem.chr := rfl
@[simp] theorem State.putOut_sin (base : Nat) (bits : Bits) :
    (s.putOut base bits).mem.sin = s.mem.sin := rfl
@[simp] theorem State.putOut_sout (base : Nat) (bits : Bits) :
    (s.putOut base bits).mem.sout = s.mem.sout := rfl
@[simp] theorem State.putOut_disc (base : Nat) (bits : Bits) :
    (s.putOut base bits).mem.disc = s.mem.disc := rfl

/-! ### putIn -/

@[simp] theorem State.putIn_caps (bits : Bits) : (s.putIn bits).caps = s.caps := rfl
@[simp] theorem State.putIn_cmd (bits : Bits) : (s.putIn bits).cmd = s.cmd := rfl
@[simp] theorem State.putIn_status (bits : Bits) : (s.putIn bits).status = s.status := rfl
@[simp] theorem State.putIn_cfg (bits : Bits) : (s.putIn bits).cfg = s.cfg := rfl
@[simp] theorem State.putIn_inLen (bits : Bits) : (s.putIn bits).inLen = BitVec.ofNat 32 bits.length := rfl
@[simp] theorem State.putIn_outLen (bits : Bits) : (s.putIn bits).outLen = s.outLen := rfl
@[simp] theorem State.putIn_chrLen (bits : Bits) : (s.putIn bits).chrLen = s.chrLen := rfl
@[simp] theorem State.putIn_sinLen (bits : Bits) : (s.putIn bits).sinLen = s.sinLen := rfl
@[simp] theorem State.putIn_soutLen (bits : Bits) : (s.putIn bits).soutLen = s.soutLen := rfl
@[simp] theorem State.putIn_discLen (bits : Bits) : (s.putIn bits).discLen = s.discLen := rfl
@[simp] theorem State.putIn_fillBits (bits : Bits) : (s.putIn bits).fillBits = s.fillBits := rfl
@[simp] theorem State.putIn_crcReg (bits : Bits) : (s.putIn bits).crcReg = s.crcReg := rfl
@[simp] theorem State.putIn_stuffCnt (bits : Bits) : (s.putIn bits).stuffCnt = s.stuffCnt := rfl
@[simp] theorem State.putIn_destuffCnt (bits : Bits) : (s.putIn bits).destuffCnt = s.destuffCnt := rfl
@[simp] theorem State.putIn_nrziEncLevel (bits : Bits) : (s.putIn bits).nrziEncLevel = s.nrziEncLevel := rfl
@[simp] theorem State.putIn_nrziDecPrev (bits : Bits) : (s.putIn bits).nrziDecPrev = s.nrziDecPrev := rfl
@[simp] theorem State.putIn_crcValue (bits : Bits) : (s.putIn bits).crcValue = s.crcValue := rfl
@[simp] theorem State.putIn_crcRx (bits : Bits) : (s.putIn bits).crcRx = s.crcRx := rfl
@[simp] theorem State.putIn_flagPos (bits : Bits) : (s.putIn bits).flagPos = s.flagPos := rfl
@[simp] theorem State.putIn_framePos (bits : Bits) : (s.putIn bits).framePos = s.framePos := rfl
@[simp] theorem State.putIn_result (bits : Bits) : (s.putIn bits).result = s.result := rfl
@[simp] theorem State.putIn_acq (bits : Bits) : (s.putIn bits).acq = s.acq := rfl
@[simp] theorem State.putIn_vs (bits : Bits) : (s.putIn bits).vs = s.vs := rfl
@[simp] theorem State.putIn_rx (bits : Bits) : (s.putIn bits).rx = s.rx := rfl
@[simp] theorem State.putIn_port (bits : Bits) : (s.putIn bits).port = s.port := rfl
@[simp] theorem State.putIn_rdata (bits : Bits) : (s.putIn bits).rdata = s.rdata := rfl
@[simp] theorem State.putIn_tick (bits : Bits) : (s.putIn bits).tick = s.tick := rfl
@[simp] theorem State.putIn_inp (bits : Bits) :
    (s.putIn bits).mem.inp = bufPut s.mem.inp 0 bits := rfl
@[simp] theorem State.putIn_out (bits : Bits) :
    (s.putIn bits).mem.out = s.mem.out := rfl
@[simp] theorem State.putIn_chr (bits : Bits) :
    (s.putIn bits).mem.chr = s.mem.chr := rfl
@[simp] theorem State.putIn_sin (bits : Bits) :
    (s.putIn bits).mem.sin = s.mem.sin := rfl
@[simp] theorem State.putIn_sout (bits : Bits) :
    (s.putIn bits).mem.sout = s.mem.sout := rfl
@[simp] theorem State.putIn_disc (bits : Bits) :
    (s.putIn bits).mem.disc = s.mem.disc := rfl

/-! ### putChr -/

@[simp] theorem State.putChr_caps (cs : List Byte) : (s.putChr cs).caps = s.caps := rfl
@[simp] theorem State.putChr_cmd (cs : List Byte) : (s.putChr cs).cmd = s.cmd := rfl
@[simp] theorem State.putChr_status (cs : List Byte) : (s.putChr cs).status = s.status := rfl
@[simp] theorem State.putChr_cfg (cs : List Byte) : (s.putChr cs).cfg = s.cfg := rfl
@[simp] theorem State.putChr_inLen (cs : List Byte) : (s.putChr cs).inLen = s.inLen := rfl
@[simp] theorem State.putChr_outLen (cs : List Byte) : (s.putChr cs).outLen = s.outLen := rfl
@[simp] theorem State.putChr_chrLen (cs : List Byte) : (s.putChr cs).chrLen = BitVec.ofNat 32 cs.length := rfl
@[simp] theorem State.putChr_sinLen (cs : List Byte) : (s.putChr cs).sinLen = s.sinLen := rfl
@[simp] theorem State.putChr_soutLen (cs : List Byte) : (s.putChr cs).soutLen = s.soutLen := rfl
@[simp] theorem State.putChr_discLen (cs : List Byte) : (s.putChr cs).discLen = s.discLen := rfl
@[simp] theorem State.putChr_fillBits (cs : List Byte) : (s.putChr cs).fillBits = s.fillBits := rfl
@[simp] theorem State.putChr_crcReg (cs : List Byte) : (s.putChr cs).crcReg = s.crcReg := rfl
@[simp] theorem State.putChr_stuffCnt (cs : List Byte) : (s.putChr cs).stuffCnt = s.stuffCnt := rfl
@[simp] theorem State.putChr_destuffCnt (cs : List Byte) : (s.putChr cs).destuffCnt = s.destuffCnt := rfl
@[simp] theorem State.putChr_nrziEncLevel (cs : List Byte) : (s.putChr cs).nrziEncLevel = s.nrziEncLevel := rfl
@[simp] theorem State.putChr_nrziDecPrev (cs : List Byte) : (s.putChr cs).nrziDecPrev = s.nrziDecPrev := rfl
@[simp] theorem State.putChr_crcValue (cs : List Byte) : (s.putChr cs).crcValue = s.crcValue := rfl
@[simp] theorem State.putChr_crcRx (cs : List Byte) : (s.putChr cs).crcRx = s.crcRx := rfl
@[simp] theorem State.putChr_flagPos (cs : List Byte) : (s.putChr cs).flagPos = s.flagPos := rfl
@[simp] theorem State.putChr_framePos (cs : List Byte) : (s.putChr cs).framePos = s.framePos := rfl
@[simp] theorem State.putChr_result (cs : List Byte) : (s.putChr cs).result = s.result := rfl
@[simp] theorem State.putChr_acq (cs : List Byte) : (s.putChr cs).acq = s.acq := rfl
@[simp] theorem State.putChr_vs (cs : List Byte) : (s.putChr cs).vs = s.vs := rfl
@[simp] theorem State.putChr_rx (cs : List Byte) : (s.putChr cs).rx = s.rx := rfl
@[simp] theorem State.putChr_port (cs : List Byte) : (s.putChr cs).port = s.port := rfl
@[simp] theorem State.putChr_rdata (cs : List Byte) : (s.putChr cs).rdata = s.rdata := rfl
@[simp] theorem State.putChr_tick (cs : List Byte) : (s.putChr cs).tick = s.tick := rfl
@[simp] theorem State.putChr_inp (cs : List Byte) :
    (s.putChr cs).mem.inp = s.mem.inp := rfl
@[simp] theorem State.putChr_out (cs : List Byte) :
    (s.putChr cs).mem.out = s.mem.out := rfl
@[simp] theorem State.putChr_chr (cs : List Byte) :
    (s.putChr cs).mem.chr = bufPut s.mem.chr 0 cs := rfl
@[simp] theorem State.putChr_sin (cs : List Byte) :
    (s.putChr cs).mem.sin = s.mem.sin := rfl
@[simp] theorem State.putChr_sout (cs : List Byte) :
    (s.putChr cs).mem.sout = s.mem.sout := rfl
@[simp] theorem State.putChr_disc (cs : List Byte) :
    (s.putChr cs).mem.disc = s.mem.disc := rfl

/-! ### putSin -/

@[simp] theorem State.putSin_caps (zs : List Sample) : (s.putSin zs).caps = s.caps := rfl
@[simp] theorem State.putSin_cmd (zs : List Sample) : (s.putSin zs).cmd = s.cmd := rfl
@[simp] theorem State.putSin_status (zs : List Sample) : (s.putSin zs).status = s.status := rfl
@[simp] theorem State.putSin_cfg (zs : List Sample) : (s.putSin zs).cfg = s.cfg := rfl
@[simp] theorem State.putSin_inLen (zs : List Sample) : (s.putSin zs).inLen = s.inLen := rfl
@[simp] theorem State.putSin_outLen (zs : List Sample) : (s.putSin zs).outLen = s.outLen := rfl
@[simp] theorem State.putSin_chrLen (zs : List Sample) : (s.putSin zs).chrLen = s.chrLen := rfl
@[simp] theorem State.putSin_sinLen (zs : List Sample) : (s.putSin zs).sinLen = BitVec.ofNat 32 zs.length := rfl
@[simp] theorem State.putSin_soutLen (zs : List Sample) : (s.putSin zs).soutLen = s.soutLen := rfl
@[simp] theorem State.putSin_discLen (zs : List Sample) : (s.putSin zs).discLen = s.discLen := rfl
@[simp] theorem State.putSin_fillBits (zs : List Sample) : (s.putSin zs).fillBits = s.fillBits := rfl
@[simp] theorem State.putSin_crcReg (zs : List Sample) : (s.putSin zs).crcReg = s.crcReg := rfl
@[simp] theorem State.putSin_stuffCnt (zs : List Sample) : (s.putSin zs).stuffCnt = s.stuffCnt := rfl
@[simp] theorem State.putSin_destuffCnt (zs : List Sample) : (s.putSin zs).destuffCnt = s.destuffCnt := rfl
@[simp] theorem State.putSin_nrziEncLevel (zs : List Sample) : (s.putSin zs).nrziEncLevel = s.nrziEncLevel := rfl
@[simp] theorem State.putSin_nrziDecPrev (zs : List Sample) : (s.putSin zs).nrziDecPrev = s.nrziDecPrev := rfl
@[simp] theorem State.putSin_crcValue (zs : List Sample) : (s.putSin zs).crcValue = s.crcValue := rfl
@[simp] theorem State.putSin_crcRx (zs : List Sample) : (s.putSin zs).crcRx = s.crcRx := rfl
@[simp] theorem State.putSin_flagPos (zs : List Sample) : (s.putSin zs).flagPos = s.flagPos := rfl
@[simp] theorem State.putSin_framePos (zs : List Sample) : (s.putSin zs).framePos = s.framePos := rfl
@[simp] theorem State.putSin_result (zs : List Sample) : (s.putSin zs).result = s.result := rfl
@[simp] theorem State.putSin_acq (zs : List Sample) : (s.putSin zs).acq = s.acq := rfl
@[simp] theorem State.putSin_vs (zs : List Sample) : (s.putSin zs).vs = s.vs := rfl
@[simp] theorem State.putSin_rx (zs : List Sample) : (s.putSin zs).rx = s.rx := rfl
@[simp] theorem State.putSin_port (zs : List Sample) : (s.putSin zs).port = s.port := rfl
@[simp] theorem State.putSin_rdata (zs : List Sample) : (s.putSin zs).rdata = s.rdata := rfl
@[simp] theorem State.putSin_tick (zs : List Sample) : (s.putSin zs).tick = s.tick := rfl
@[simp] theorem State.putSin_inp (zs : List Sample) :
    (s.putSin zs).mem.inp = s.mem.inp := rfl
@[simp] theorem State.putSin_out (zs : List Sample) :
    (s.putSin zs).mem.out = s.mem.out := rfl
@[simp] theorem State.putSin_chr (zs : List Sample) :
    (s.putSin zs).mem.chr = s.mem.chr := rfl
@[simp] theorem State.putSin_sin (zs : List Sample) :
    (s.putSin zs).mem.sin = bufPut s.mem.sin 0 (interleave zs) := rfl
@[simp] theorem State.putSin_sout (zs : List Sample) :
    (s.putSin zs).mem.sout = s.mem.sout := rfl
@[simp] theorem State.putSin_disc (zs : List Sample) :
    (s.putSin zs).mem.disc = s.mem.disc := rfl

/-! ### putSout -/

@[simp] theorem State.putSout_caps (zs : List Sample) : (s.putSout zs).caps = s.caps := rfl
@[simp] theorem State.putSout_cmd (zs : List Sample) : (s.putSout zs).cmd = s.cmd := rfl
@[simp] theorem State.putSout_status (zs : List Sample) : (s.putSout zs).status = s.status := rfl
@[simp] theorem State.putSout_cfg (zs : List Sample) : (s.putSout zs).cfg = s.cfg := rfl
@[simp] theorem State.putSout_inLen (zs : List Sample) : (s.putSout zs).inLen = s.inLen := rfl
@[simp] theorem State.putSout_outLen (zs : List Sample) : (s.putSout zs).outLen = s.outLen := rfl
@[simp] theorem State.putSout_chrLen (zs : List Sample) : (s.putSout zs).chrLen = s.chrLen := rfl
@[simp] theorem State.putSout_sinLen (zs : List Sample) : (s.putSout zs).sinLen = s.sinLen := rfl
@[simp] theorem State.putSout_soutLen (zs : List Sample) : (s.putSout zs).soutLen = BitVec.ofNat 32 zs.length := rfl
@[simp] theorem State.putSout_discLen (zs : List Sample) : (s.putSout zs).discLen = s.discLen := rfl
@[simp] theorem State.putSout_fillBits (zs : List Sample) : (s.putSout zs).fillBits = s.fillBits := rfl
@[simp] theorem State.putSout_crcReg (zs : List Sample) : (s.putSout zs).crcReg = s.crcReg := rfl
@[simp] theorem State.putSout_stuffCnt (zs : List Sample) : (s.putSout zs).stuffCnt = s.stuffCnt := rfl
@[simp] theorem State.putSout_destuffCnt (zs : List Sample) : (s.putSout zs).destuffCnt = s.destuffCnt := rfl
@[simp] theorem State.putSout_nrziEncLevel (zs : List Sample) : (s.putSout zs).nrziEncLevel = s.nrziEncLevel := rfl
@[simp] theorem State.putSout_nrziDecPrev (zs : List Sample) : (s.putSout zs).nrziDecPrev = s.nrziDecPrev := rfl
@[simp] theorem State.putSout_crcValue (zs : List Sample) : (s.putSout zs).crcValue = s.crcValue := rfl
@[simp] theorem State.putSout_crcRx (zs : List Sample) : (s.putSout zs).crcRx = s.crcRx := rfl
@[simp] theorem State.putSout_flagPos (zs : List Sample) : (s.putSout zs).flagPos = s.flagPos := rfl
@[simp] theorem State.putSout_framePos (zs : List Sample) : (s.putSout zs).framePos = s.framePos := rfl
@[simp] theorem State.putSout_result (zs : List Sample) : (s.putSout zs).result = s.result := rfl
@[simp] theorem State.putSout_acq (zs : List Sample) : (s.putSout zs).acq = s.acq := rfl
@[simp] theorem State.putSout_vs (zs : List Sample) : (s.putSout zs).vs = s.vs := rfl
@[simp] theorem State.putSout_rx (zs : List Sample) : (s.putSout zs).rx = s.rx := rfl
@[simp] theorem State.putSout_port (zs : List Sample) : (s.putSout zs).port = s.port := rfl
@[simp] theorem State.putSout_rdata (zs : List Sample) : (s.putSout zs).rdata = s.rdata := rfl
@[simp] theorem State.putSout_tick (zs : List Sample) : (s.putSout zs).tick = s.tick := rfl
@[simp] theorem State.putSout_inp (zs : List Sample) :
    (s.putSout zs).mem.inp = s.mem.inp := rfl
@[simp] theorem State.putSout_out (zs : List Sample) :
    (s.putSout zs).mem.out = s.mem.out := rfl
@[simp] theorem State.putSout_chr (zs : List Sample) :
    (s.putSout zs).mem.chr = s.mem.chr := rfl
@[simp] theorem State.putSout_sin (zs : List Sample) :
    (s.putSout zs).mem.sin = s.mem.sin := rfl
@[simp] theorem State.putSout_sout (zs : List Sample) :
    (s.putSout zs).mem.sout = bufPut s.mem.sout 0 (interleave zs) := rfl
@[simp] theorem State.putSout_disc (zs : List Sample) :
    (s.putSout zs).mem.disc = s.mem.disc := rfl

/-! ### putDisc -/

@[simp] theorem State.putDisc_caps (ws : List Word) : (s.putDisc ws).caps = s.caps := rfl
@[simp] theorem State.putDisc_cmd (ws : List Word) : (s.putDisc ws).cmd = s.cmd := rfl
@[simp] theorem State.putDisc_status (ws : List Word) : (s.putDisc ws).status = s.status := rfl
@[simp] theorem State.putDisc_cfg (ws : List Word) : (s.putDisc ws).cfg = s.cfg := rfl
@[simp] theorem State.putDisc_inLen (ws : List Word) : (s.putDisc ws).inLen = s.inLen := rfl
@[simp] theorem State.putDisc_outLen (ws : List Word) : (s.putDisc ws).outLen = s.outLen := rfl
@[simp] theorem State.putDisc_chrLen (ws : List Word) : (s.putDisc ws).chrLen = s.chrLen := rfl
@[simp] theorem State.putDisc_sinLen (ws : List Word) : (s.putDisc ws).sinLen = s.sinLen := rfl
@[simp] theorem State.putDisc_soutLen (ws : List Word) : (s.putDisc ws).soutLen = s.soutLen := rfl
@[simp] theorem State.putDisc_discLen (ws : List Word) : (s.putDisc ws).discLen = BitVec.ofNat 32 ws.length := rfl
@[simp] theorem State.putDisc_fillBits (ws : List Word) : (s.putDisc ws).fillBits = s.fillBits := rfl
@[simp] theorem State.putDisc_crcReg (ws : List Word) : (s.putDisc ws).crcReg = s.crcReg := rfl
@[simp] theorem State.putDisc_stuffCnt (ws : List Word) : (s.putDisc ws).stuffCnt = s.stuffCnt := rfl
@[simp] theorem State.putDisc_destuffCnt (ws : List Word) : (s.putDisc ws).destuffCnt = s.destuffCnt := rfl
@[simp] theorem State.putDisc_nrziEncLevel (ws : List Word) : (s.putDisc ws).nrziEncLevel = s.nrziEncLevel := rfl
@[simp] theorem State.putDisc_nrziDecPrev (ws : List Word) : (s.putDisc ws).nrziDecPrev = s.nrziDecPrev := rfl
@[simp] theorem State.putDisc_crcValue (ws : List Word) : (s.putDisc ws).crcValue = s.crcValue := rfl
@[simp] theorem State.putDisc_crcRx (ws : List Word) : (s.putDisc ws).crcRx = s.crcRx := rfl
@[simp] theorem State.putDisc_flagPos (ws : List Word) : (s.putDisc ws).flagPos = s.flagPos := rfl
@[simp] theorem State.putDisc_framePos (ws : List Word) : (s.putDisc ws).framePos = s.framePos := rfl
@[simp] theorem State.putDisc_result (ws : List Word) : (s.putDisc ws).result = s.result := rfl
@[simp] theorem State.putDisc_acq (ws : List Word) : (s.putDisc ws).acq = s.acq := rfl
@[simp] theorem State.putDisc_vs (ws : List Word) : (s.putDisc ws).vs = s.vs := rfl
@[simp] theorem State.putDisc_rx (ws : List Word) : (s.putDisc ws).rx = s.rx := rfl
@[simp] theorem State.putDisc_port (ws : List Word) : (s.putDisc ws).port = s.port := rfl
@[simp] theorem State.putDisc_rdata (ws : List Word) : (s.putDisc ws).rdata = s.rdata := rfl
@[simp] theorem State.putDisc_tick (ws : List Word) : (s.putDisc ws).tick = s.tick := rfl
@[simp] theorem State.putDisc_inp (ws : List Word) :
    (s.putDisc ws).mem.inp = s.mem.inp := rfl
@[simp] theorem State.putDisc_out (ws : List Word) :
    (s.putDisc ws).mem.out = s.mem.out := rfl
@[simp] theorem State.putDisc_chr (ws : List Word) :
    (s.putDisc ws).mem.chr = s.mem.chr := rfl
@[simp] theorem State.putDisc_sin (ws : List Word) :
    (s.putDisc ws).mem.sin = s.mem.sin := rfl
@[simp] theorem State.putDisc_sout (ws : List Word) :
    (s.putDisc ws).mem.sout = s.mem.sout := rfl
@[simp] theorem State.putDisc_disc (ws : List Word) :
    (s.putDisc ws).mem.disc = bufPut s.mem.disc 0 ws := rfl

/-! ### putFramePos -/

@[simp] theorem State.putFramePos_caps (p q e : Nat) : (s.putFramePos p q e).caps = s.caps := rfl
@[simp] theorem State.putFramePos_cmd (p q e : Nat) : (s.putFramePos p q e).cmd = s.cmd := rfl
@[simp] theorem State.putFramePos_status (p q e : Nat) : (s.putFramePos p q e).status = s.status := rfl
@[simp] theorem State.putFramePos_cfg (p q e : Nat) : (s.putFramePos p q e).cfg = s.cfg := rfl
@[simp] theorem State.putFramePos_inLen (p q e : Nat) : (s.putFramePos p q e).inLen = s.inLen := rfl
@[simp] theorem State.putFramePos_outLen (p q e : Nat) : (s.putFramePos p q e).outLen = s.outLen := rfl
@[simp] theorem State.putFramePos_chrLen (p q e : Nat) : (s.putFramePos p q e).chrLen = s.chrLen := rfl
@[simp] theorem State.putFramePos_sinLen (p q e : Nat) : (s.putFramePos p q e).sinLen = s.sinLen := rfl
@[simp] theorem State.putFramePos_soutLen (p q e : Nat) : (s.putFramePos p q e).soutLen = s.soutLen := rfl
@[simp] theorem State.putFramePos_discLen (p q e : Nat) : (s.putFramePos p q e).discLen = s.discLen := rfl
@[simp] theorem State.putFramePos_fillBits (p q e : Nat) : (s.putFramePos p q e).fillBits = s.fillBits := rfl
@[simp] theorem State.putFramePos_crcReg (p q e : Nat) : (s.putFramePos p q e).crcReg = s.crcReg := rfl
@[simp] theorem State.putFramePos_stuffCnt (p q e : Nat) : (s.putFramePos p q e).stuffCnt = s.stuffCnt := rfl
@[simp] theorem State.putFramePos_destuffCnt (p q e : Nat) : (s.putFramePos p q e).destuffCnt = s.destuffCnt := rfl
@[simp] theorem State.putFramePos_nrziEncLevel (p q e : Nat) : (s.putFramePos p q e).nrziEncLevel = s.nrziEncLevel := rfl
@[simp] theorem State.putFramePos_nrziDecPrev (p q e : Nat) : (s.putFramePos p q e).nrziDecPrev = s.nrziDecPrev := rfl
@[simp] theorem State.putFramePos_crcValue (p q e : Nat) : (s.putFramePos p q e).crcValue = s.crcValue := rfl
@[simp] theorem State.putFramePos_crcRx (p q e : Nat) : (s.putFramePos p q e).crcRx = s.crcRx := rfl
@[simp] theorem State.putFramePos_flagPos (p q e : Nat) : (s.putFramePos p q e).flagPos = s.flagPos := rfl
@[simp] theorem State.putFramePos_framePos (p q e : Nat) :
    (s.putFramePos p q e).framePos = { frameStart := BitVec.ofNat 32 p, payloadStart := BitVec.ofNat 32 q, payloadEnd := BitVec.ofNat 32 e } := rfl
@[simp] theorem State.putFramePos_result (p q e : Nat) : (s.putFramePos p q e).result = s.result := rfl
@[simp] theorem State.putFramePos_acq (p q e : Nat) : (s.putFramePos p q e).acq = s.acq := rfl
@[simp] theorem State.putFramePos_vs (p q e : Nat) : (s.putFramePos p q e).vs = s.vs := rfl
@[simp] theorem State.putFramePos_rx (p q e : Nat) : (s.putFramePos p q e).rx = s.rx := rfl
@[simp] theorem State.putFramePos_port (p q e : Nat) : (s.putFramePos p q e).port = s.port := rfl
@[simp] theorem State.putFramePos_rdata (p q e : Nat) : (s.putFramePos p q e).rdata = s.rdata := rfl
@[simp] theorem State.putFramePos_tick (p q e : Nat) : (s.putFramePos p q e).tick = s.tick := rfl
@[simp] theorem State.putFramePos_mem (p q e : Nat) : (s.putFramePos p q e).mem = s.mem := rfl

/-! ### queueCommand -/

@[simp] theorem State.queueCommand_caps (w : Word) : (s.queueCommand w).caps = s.caps := rfl
@[simp] theorem State.queueCommand_cmd (w : Word) : (s.queueCommand w).cmd = s.cmd := rfl
@[simp] theorem State.queueCommand_status (w : Word) : (s.queueCommand w).status = s.status := rfl
@[simp] theorem State.queueCommand_cfg (w : Word) : (s.queueCommand w).cfg = s.cfg := rfl
@[simp] theorem State.queueCommand_inLen (w : Word) : (s.queueCommand w).inLen = s.inLen := rfl
@[simp] theorem State.queueCommand_outLen (w : Word) : (s.queueCommand w).outLen = s.outLen := rfl
@[simp] theorem State.queueCommand_chrLen (w : Word) : (s.queueCommand w).chrLen = s.chrLen := rfl
@[simp] theorem State.queueCommand_sinLen (w : Word) : (s.queueCommand w).sinLen = s.sinLen := rfl
@[simp] theorem State.queueCommand_soutLen (w : Word) : (s.queueCommand w).soutLen = s.soutLen := rfl
@[simp] theorem State.queueCommand_discLen (w : Word) : (s.queueCommand w).discLen = s.discLen := rfl
@[simp] theorem State.queueCommand_fillBits (w : Word) : (s.queueCommand w).fillBits = s.fillBits := rfl
@[simp] theorem State.queueCommand_crcReg (w : Word) : (s.queueCommand w).crcReg = s.crcReg := rfl
@[simp] theorem State.queueCommand_stuffCnt (w : Word) : (s.queueCommand w).stuffCnt = s.stuffCnt := rfl
@[simp] theorem State.queueCommand_destuffCnt (w : Word) : (s.queueCommand w).destuffCnt = s.destuffCnt := rfl
@[simp] theorem State.queueCommand_nrziEncLevel (w : Word) : (s.queueCommand w).nrziEncLevel = s.nrziEncLevel := rfl
@[simp] theorem State.queueCommand_nrziDecPrev (w : Word) : (s.queueCommand w).nrziDecPrev = s.nrziDecPrev := rfl
@[simp] theorem State.queueCommand_crcValue (w : Word) : (s.queueCommand w).crcValue = s.crcValue := rfl
@[simp] theorem State.queueCommand_crcRx (w : Word) : (s.queueCommand w).crcRx = s.crcRx := rfl
@[simp] theorem State.queueCommand_flagPos (w : Word) : (s.queueCommand w).flagPos = s.flagPos := rfl
@[simp] theorem State.queueCommand_framePos (w : Word) : (s.queueCommand w).framePos = s.framePos := rfl
@[simp] theorem State.queueCommand_result (w : Word) : (s.queueCommand w).result = s.result := rfl
@[simp] theorem State.queueCommand_acq (w : Word) : (s.queueCommand w).acq = s.acq := rfl
@[simp] theorem State.queueCommand_vs (w : Word) : (s.queueCommand w).vs = s.vs := rfl
@[simp] theorem State.queueCommand_rx (w : Word) : (s.queueCommand w).rx = s.rx := rfl
@[simp] theorem State.queueCommand_port (w : Word) : (s.queueCommand w).port = .write cmdAddr 32 w :: s.port := rfl
@[simp] theorem State.queueCommand_rdata (w : Word) : (s.queueCommand w).rdata = s.rdata := rfl
@[simp] theorem State.queueCommand_tick (w : Word) : (s.queueCommand w).tick = s.tick := rfl
@[simp] theorem State.queueCommand_mem (w : Word) : (s.queueCommand w).mem = s.mem := rfl

end Sys2Proof.Machine
end

