-- ==== Sys2Proof/Laws/Ops.lean ====
section
/-! SUPPORT. What each shared operation of Machine/Ops.lean, Operands.lean and Port.lean can do, said once, and that
every memory operation keeps the canonical form. -/

namespace Sys2Proof.Machine

/-! ### Commands as computations -/

theorem cmd_bind_ok {ε α β : Type} {x : Except ε α} {f : α → Except ε β} {r : β} :
    (x >>= f) = .ok r ↔ ∃ a, x = .ok a ∧ f a = .ok r := by
  cases x <;> simp [bind, Except.bind]

theorem cmd_bind_error {ε α β : Type} {x : Except ε α} {f : α → Except ε β} {e : ε} :
    (x >>= f) = .error e ↔ x = .error e ∨ ∃ a, x = .ok a ∧ f a = .error e := by
  cases x <;> simp [bind, Except.bind]

@[simp] theorem cmd_ok_bind {ε α β : Type} (a : α) (f : α → Except ε β) :
    ((Except.ok a : Except ε α) >>= f) = f a := rfl

@[simp] theorem cmd_error_bind {ε α β : Type} (e : ε) (f : α → Except ε β) :
    ((Except.error e : Except ε α) >>= f) = .error e := rfl

@[simp] theorem raise_bind {α β : Type} (e : CmdError) (f : α → Cmd β) :
    ((raise e : Cmd α) >>= f) = raise e := rfl

@[simp] theorem raise_ne_ok {α : Type} (e : CmdError) (a : α) : (raise e : Cmd α) ≠ .ok a := nofun

@[simp] theorem require_true (e : CmdError) : require true e = .ok () := rfl

@[simp] theorem require_false (e : CmdError) : require false e = raise e := rfl

theorem require_eq_ok {c : Bool} {e : CmdError} {u : Unit} : require c e = .ok u ↔ c = true := by
  cases c <;> simp

theorem require_eq_error {c : Bool} {e : CmdError} {x : Stop} :
    require c e = .error x ↔ c = false ∧ x = .raise e := by
  cases c <;> simp [raise, eq_comm]

theorem fits_eq_ok {n cap : Nat} {e : CmdError} {u : Unit} : fits n cap e = .ok u ↔ n ≤ cap := by
  simp [fits, require_eq_ok]

theorem fits_eq_error {n cap : Nat} {e : CmdError} {x : Stop} :
    fits n cap e = .error x ↔ cap < n ∧ x = .raise e := by
  simp [fits, require_eq_error]

/-- How a command ends: its result committed, or its error, or the model's fault. -/
theorem commit_eq_next {s t : State} {r : Cmd State} :
    commit s r = .next t ↔
      (∃ s', r = .ok s' ∧ t = s'.setStatus statusOk) ∨
        ∃ e, r = .error (.raise e) ∧ t = s.setStatus e.status := by
  rcases r with (e | f) | s' <;> simp [commit, complete, raiseError, eq_comm]

theorem commit_eq_fault {s : State} {r : Cmd State} {f : Fault} :
    commit s r = .fault f ↔ r = .error (.fault f) := by
  rcases r with (e | f) | s' <;> simp [commit, complete, raiseError]

theorem commit_ne_refused {s : State} {r : Cmd State} {x : Refusal} : commit s r ≠ .refused x := by
  rcases r with (e | f) | s' <;> simp [commit, complete, raiseError]

@[simp] theorem commit_ok (s s' : State) : commit s (.ok s') = .next (s'.setStatus statusOk) := rfl

@[simp] theorem commit_raise (s : State) (e : CmdError) :
    commit s (raise e) = .next (s.setStatus e.status) := rfl

/-- How a flag search ends (R121). -/
theorem endSearch_eq_next {s t : State} {r : Cmd (Option Nat)} :
    endSearch s r = .next t ↔
      (∃ i, r = .ok (some i) ∧ t = { s with flagPos := BitVec.ofNat 32 i, status := statusOk }) ∨
        (r = .ok none ∧ t = { s with flagPos := 0xFFFFFFFF, status := CmdError.search.status }) ∨
          ∃ e, r = .error (.raise e) ∧ t = s.setStatus e.status := by
  rcases r with (e | f) | _ | i <;>
    simp [endSearch, complete, raiseError, State.setStatus, eq_comm]

theorem endSearch_eq_fault {s : State} {r : Cmd (Option Nat)} {f : Fault} :
    endSearch s r = .fault f ↔ r = .error (.fault f) := by
  rcases r with (e | f) | _ | i <;> simp [endSearch, complete, raiseError]

/-! ### Buffers -/

theorem bufGet_append {α : Type} (b c : Buf α) (j : Nat) :
    bufGet (b ++ c) j = (bufGet b j).or (bufGet c j) := by
  induction b with
  | nil => rfl
  | cons p t ih =>
    obtain ⟨k, x⟩ := p
    simp only [List.cons_append, bufGet, ih]
    split_ifs <;> rfl

theorem bufGet_filter {α : Type} (b : Buf α) (q : Nat → Bool) (j : Nat) :
    bufGet (b.filter (fun p => q p.1)) j = if q j then bufGet b j else none := by
  induction b with
  | nil => simp [bufGet]
  | cons p t ih =>
    obtain ⟨k, x⟩ := p
    rw [List.filter_cons]
    by_cases hk : k = j
    · subst hk; cases hq : q k <;> simp [hq, bufGet, ih]
    · cases hq : q k <;> simp [bufGet, ih, hk]

theorem bufGet_indexed {α : Type} (base : Nat) (xs : List α) (j : Nat) :
    bufGet ((List.range' base xs.length).zip xs) j = if base ≤ j then xs[j - base]? else none := by
  induction xs generalizing base with
  | nil => simp [bufGet]
  | cons v vs ih =>
    rw [List.length_cons, List.range'_succ, List.zip_cons_cons, bufGet, ih]
    rcases Nat.lt_trichotomy j base with h | rfl | h
    · rw [if_neg (by omega), if_neg (by omega), if_neg (by omega)]
    · simp
    · rw [if_neg (by omega), if_pos (by omega), if_pos (by omega),
        show j - base = j - (base + 1) + 1 by omega, List.getElem?_cons_succ]

theorem bufGet_bufPut {α : Type} (b : Buf α) (base j : Nat) (xs : List α) :
    bufGet (bufPut b base xs) j =
      if base ≤ j ∧ j < base + xs.length then xs[j - base]? else bufGet b j := by
  have h1 := bufGet_filter b (fun k => decide (k < base)) j
  have h2 := bufGet_filter b (fun k => decide (base + xs.length ≤ k)) j
  rw [bufPut, bufGet_append, bufGet_append, bufGet_indexed, h1, h2]
  rcases Nat.lt_or_ge j base with h | h
  · rw [if_pos (by simpa using h), if_neg (by omega), if_neg (by simp; omega), if_neg (by omega)]
    cases bufGet b j <;> rfl
  · rw [if_neg (by simpa using h), if_pos h]
    rcases Nat.lt_or_ge j (base + xs.length) with h' | h'
    · rw [if_neg (by simpa using h'), if_pos ⟨h, h'⟩]
      cases xs[j - base]? <;> rfl
    · rw [if_pos (by simpa using h'), if_neg (by omega), List.getElem?_eq_none (by omega)]
      rfl

theorem bufGet_bufSet {α : Type} (b : Buf α) (i j : Nat) (v : α) :
    bufGet (bufSet b i v) j = if j = i then some v else bufGet b j := by
  rw [bufSet, bufGet_bufPut, List.length_singleton]
  by_cases h : j = i
  · subst h; simp
  · rw [if_neg (by omega), if_neg h]

/-- A block write writes its elements and no other. -/
theorem writes_bufPut {α : Type} (b : Buf α) (base : Nat) (xs : List α) :
    Writes b base xs (bufPut b base xs) := by
  constructor
  · intro k h
    rw [bufGet_bufPut, if_pos (by omega), Nat.add_sub_cancel_left, List.getElem?_eq_getElem h]
  · intro j h
    rw [bufGet_bufPut, if_neg (by omega)]

theorem interleave_length (zs : List Sample) : (interleave zs).length = 2 * zs.length := by
  induction zs with
  | nil => rfl
  | cons z zs ih => simp [interleave] at ih ⊢; omega

theorem interleave_get (zs : List Sample) (k : Nat) (h : k < zs.length) :
    (interleave zs)[2 * k]? = some zs[k].1 ∧ (interleave zs)[2 * k + 1]? = some zs[k].2 := by
  induction zs generalizing k with
  | nil => simp at h
  | cons z zs ih =>
    cases k with
    | zero => simp [interleave]
    | succ k =>
      have := ih k (by simpa using h)
      simp only [interleave, List.flatMap_cons] at this ⊢
      simpa [Nat.mul_add] using this

/-- A block write of samples writes them and no other. -/
theorem writesSamples_bufPut (b : Buf Word) (zs : List Sample) :
    WritesSamples b zs (bufPut b 0 (interleave zs)) := by
  constructor
  · intro k h
    have := interleave_get zs k h
    have hl := interleave_length zs
    simp only [sampleGet, bufGet_bufPut, Nat.zero_add, Nat.sub_zero, Nat.zero_le, true_and]
    rw [if_pos (by omega), if_pos (by omega), this.1, this.2]
  · intro j h
    rw [bufGet_bufPut, interleave_length, if_neg (by omega)]

/-! ### The canonical form -/

theorem bufPut_wf {α : Type} {cap : Nat} {b : Buf α} {base : Nat} {xs : List α} (h : Buf.wf cap b)
    (hx : base + xs.length ≤ cap) : Buf.wf cap (bufPut b base xs) := by
  have hi : ∀ p ∈ (List.range' base xs.length).zip xs, base ≤ p.1 ∧ p.1 < base + xs.length := by
    rintro ⟨k, x⟩ hp
    simpa using (List.of_mem_zip hp).1
  have hz : ((List.range' base xs.length).zip xs).Pairwise (fun p q => p.1 < q.1) := by
    rw [← List.pairwise_map (f := Prod.fst) (R := (· < ·)), List.map_fst_zip (by simp)]
    exact List.pairwise_lt_range'
  constructor
  · rw [bufPut, List.pairwise_append, List.pairwise_append]
    refine ⟨⟨h.1.sublist List.filter_sublist, hz, ?_⟩, h.1.sublist List.filter_sublist, ?_⟩
    · intro p hp q hq
      have := (List.mem_filter.1 hp).2
      simp only [decide_eq_true_eq] at this
      exact lt_of_lt_of_le this (hi q hq).1
    · intro p hp q hq
      have hq' := (List.mem_filter.1 hq).2
      simp only [decide_eq_true_eq] at hq'
      rcases List.mem_append.1 hp with hp | hp
      · have := (List.mem_filter.1 hp).2
        simp only [decide_eq_true_eq] at this
        omega
      · exact lt_of_lt_of_le (hi p hp).2 hq'
  · intro p hp
    rcases List.mem_append.1 hp with hp | hp
    · rcases List.mem_append.1 hp with hp | hp
      · exact h.2 p (List.mem_filter.1 hp).1
      · exact lt_of_lt_of_le (hi p hp).2 hx
    · exact h.2 p (List.mem_filter.1 hp).1

theorem bufSet_wf {α : Type} {cap : Nat} {b : Buf α} {i : Nat} (v : α) (h : Buf.wf cap b) (hi : i < cap) :
    Buf.wf cap (bufSet b i v) := bufPut_wf h (by simpa using hi)

theorem memory_empty_wf (c : Caps) : Memory.wf c Memory.empty := by simp [Memory.wf, Buf.wf, Memory.empty]

theorem reset_mem_wf : Memory.wf State.reset.caps State.reset.mem := memory_empty_wf _

/-- Two buffers in canonical form that read alike are equal: the form is canonical. -/
theorem buf_ext {α : Type} {cap : Nat} {b b' : Buf α} (h : Buf.wf cap b) (h' : Buf.wf cap b')
    (e : ∀ i, bufGet b i = bufGet b' i) : b = b' := by
  have key : ∀ {c : Buf α} {k : Nat}, (∀ p ∈ c, k < p.1) → ∀ j ≤ k, bufGet c j = none := by
    intro c k hc j hj
    induction c with
    | nil => rfl
    | cons q t ih =>
      obtain ⟨m, x⟩ := q
      have := hc (m, x) (by simp)
      simp only at this
      rw [bufGet, if_neg (by omega)]
      exact ih fun p hp => hc p (by simp [hp])
  replace h := h.1
  replace h' := h'.1
  induction b generalizing b' with
  | nil =>
    cases b' with
    | nil => rfl
    | cons q t => have := e q.1; simp [bufGet] at this
  | cons p t ih =>
    cases b' with
    | nil => have := e p.1; simp [bufGet] at this
    | cons q u =>
      obtain ⟨k, x⟩ := p
      obtain ⟨m, y⟩ := q
      obtain ⟨h1, h2⟩ := List.pairwise_cons.1 h
      obtain ⟨h3, h4⟩ := List.pairwise_cons.1 h'
      have hkm : k = m := by
        rcases Nat.lt_trichotomy k m with hlt | heq | hgt
        · have := e k
          rw [bufGet, if_pos rfl, bufGet, if_neg (by omega), key h3 k (by simp only; omega)] at this
          simp at this
        · exact heq
        · have := e m
          rw [bufGet, if_neg (by omega), bufGet, if_pos rfl, key h1 m (by simp only; omega)] at this
          simp at this
      subst hkm
      have hxy : x = y := by simpa [bufGet] using e k
      subst hxy
      rw [ih (fun i => ?_) h2 h4]
      rcases Nat.lt_or_ge k i with hi | hi
      · have := e i
        rwa [bufGet, if_neg (by omega), bufGet, if_neg (by omega)] at this
      · rw [key h1 i hi, key h3 i hi]

/-! ### Reads -/

theorem readSeq_eq_ok {ε α : Type} {get : Nat → Except ε α} {i n : Nat} {xs : List α} :
    readSeq get i n = .ok xs ↔ xs.length = n ∧ ∀ k, ∀ h : k < xs.length, get (i + k) = .ok xs[k] := by
  induction n generalizing i xs with
  | zero =>
    simp only [readSeq, Except.ok.injEq]
    constructor
    · rintro rfl; simp
    · rintro ⟨h, -⟩; exact (List.length_eq_zero_iff.1 h).symm
  | succ n ih =>
    simp only [readSeq, cmd_bind_ok, Except.ok.injEq, ih]
    constructor
    · rintro ⟨v, hv, vs, ⟨hl, hk⟩, rfl⟩
      refine ⟨by simp [hl], fun k h => ?_⟩
      cases k with
      | zero => simpa using hv
      | succ k =>
        have := hk k (by simpa using h)
        rw [show i + (k + 1) = i + 1 + k by omega, this]; simp
    · rintro ⟨hl, hk⟩
      cases xs with
      | nil => simp at hl
      | cons v vs =>
        refine ⟨v, hk 0 (by simp), vs, ⟨by simpa using hl, fun k h => ?_⟩, rfl⟩
        have := hk (k + 1) (by simpa using h)
        rw [show i + 1 + k = i + (k + 1) by omega, this]; simp

theorem readSeq_eq_error {ε α : Type} {get : Nat → Except ε α} {i n : Nat} {e : ε}
    (h : readSeq get i n = .error e) : ∃ k < n, get (i + k) = .error e := by
  induction n generalizing i with
  | zero => simp [readSeq] at h
  | succ n ih =>
    simp only [readSeq, cmd_bind_error] at h
    rcases h with h | ⟨v, -, h | ⟨vs, -, h⟩⟩
    · exact ⟨0, by omega, h⟩
    · obtain ⟨k, hk, hg⟩ := ih h
      exact ⟨k + 1, by omega, by rw [← hg]; congr 1; omega⟩
    · simp at h

/-- A sequence of reads is answered exactly when every one of them is. -/
theorem readSeq_total {ε α : Type} {get : Nat → Except ε α} {i n : Nat}
    (h : ∀ k < n, ∃ v, get (i + k) = .ok v) : ∃ xs, readSeq get i n = .ok xs := by
  rcases hr : readSeq get i n with e | xs
  · obtain ⟨k, hk, he⟩ := readSeq_eq_error hr
    obtain ⟨v, hv⟩ := h k hk
    rw [he] at hv; cases hv
  · exact ⟨xs, rfl⟩

theorem held_eq_ok {α : Type} {id : BufferId} {b : Buf α} {i : Nat} {v : α} :
    held id b i = .ok v ↔ bufGet b i = some v := by
  unfold held; split <;> simp_all

theorem held_eq_error {α : Type} {id : BufferId} {b : Buf α} {i : Nat} {f : Fault} :
    held id b i = .error f ↔ bufGet b i = none ∧ f = .unwritten id i := by
  unfold held; split <;> rename_i h <;> simp [h, eq_comm]

theorem heldSample_eq_ok {id : BufferId} {b : Buf Word} {n : Nat} {z : Sample} :
    heldSample id b n = .ok z ↔ sampleGet b n = some z := by
  unfold heldSample; split <;> simp_all

theorem heldSample_eq_error {id : BufferId} {b : Buf Word} {n : Nat} {f : Fault} :
    heldSample id b n = .error f ↔ sampleGet b n = none ∧ f = .unwritten id n := by
  unfold heldSample; split <;> rename_i h <;> simp [h, eq_comm]

theorem lift_eq_ok {α : Type} {x : Except Fault α} {v : α} : lift x = .ok v ↔ x = .ok v := by
  cases x <;> simp [lift]

theorem lift_eq_error {α : Type} {x : Except Fault α} {e : Stop} :
    lift x = .error e ↔ ∃ f, x = .error f ∧ e = .fault f := by
  cases x <;> simp [lift, eq_comm]

theorem memRead_eq_ok {α : Type} {id : BufferId} {b : Buf α} {i : Nat} {v : α} :
    memRead id b i = .ok v ↔ bufGet b i = some v := by
  rw [memRead, lift_eq_ok, held_eq_ok]

theorem memRead_eq_error {α : Type} {id : BufferId} {b : Buf α} {i : Nat} {e : Stop} :
    memRead id b i = .error e ↔ bufGet b i = none ∧ e = .fault (.unwritten id i) := by
  simp only [memRead, lift_eq_error, held_eq_error]
  constructor
  · rintro ⟨f, ⟨h, rfl⟩, rfl⟩; exact ⟨h, rfl⟩
  · rintro ⟨h, rfl⟩; exact ⟨_, ⟨h, rfl⟩, rfl⟩

theorem sampleRead_eq_ok {id : BufferId} {b : Buf Word} {n : Nat} {z : Sample} :
    sampleRead id b n = .ok z ↔ sampleGet b n = some z := by
  rw [sampleRead, lift_eq_ok, heldSample_eq_ok]

theorem sampleRead_eq_error {id : BufferId} {b : Buf Word} {n : Nat} {e : Stop} :
    sampleRead id b n = .error e ↔ sampleGet b n = none ∧ e = .fault (.unwritten id n) := by
  simp only [sampleRead, lift_eq_error, heldSample_eq_error]
  constructor
  · rintro ⟨f, ⟨h, rfl⟩, rfl⟩; exact ⟨h, rfl⟩
  · rintro ⟨h, rfl⟩; exact ⟨_, ⟨h, rfl⟩, rfl⟩

/-- Reading `B[0..n)` gives the values the buffer holds there. -/
theorem readSeq_memRead {α : Type} {id : BufferId} {b : Buf α} {n : Nat} {xs : List α} :
    readSeq (memRead id b) 0 n = .ok xs ↔ n = xs.length ∧ Holds b xs := by
  simp only [readSeq_eq_ok, memRead_eq_ok, Nat.zero_add]
  rw [eq_comm]

theorem readSeq_sampleRead {id : BufferId} {b : Buf Word} {n : Nat} {zs : List Sample} :
    readSeq (sampleRead id b) 0 n = .ok zs ↔ n = zs.length ∧ HoldsSamples b zs := by
  simp only [readSeq_eq_ok, sampleRead_eq_ok, Nat.zero_add]
  rw [eq_comm]

/-- The only way a read of `B[i..i+n)` ends early: the model fault of an unwritten element in it. -/
theorem readSeq_memRead_error {α : Type} {id : BufferId} {b : Buf α} {i n : Nat} {e : Stop}
    (h : readSeq (memRead id b) i n = .error e) :
    ∃ k, i ≤ k ∧ k < i + n ∧ bufGet b k = none ∧ e = .fault (.unwritten id k) := by
  obtain ⟨k, hk, he⟩ := readSeq_eq_error h
  obtain ⟨h1, h2⟩ := memRead_eq_error.1 he
  exact ⟨i + k, by omega, by omega, h1, h2⟩

theorem readSeq_sampleRead_error {id : BufferId} {b : Buf Word} {i n : Nat} {e : Stop}
    (h : readSeq (sampleRead id b) i n = .error e) :
    ∃ k, i ≤ k ∧ k < i + n ∧ sampleGet b k = none ∧ e = .fault (.unwritten id k) := by
  obtain ⟨k, hk, he⟩ := readSeq_eq_error h
  obtain ⟨h1, h2⟩ := sampleRead_eq_error.1 he
  exact ⟨i + k, by omega, by omega, h1, h2⟩

@[simp] theorem snapshot_length {α : Type} (b : Buf α) (n : Nat) : (snapshot b n).length = n := by
  simp [snapshot]

theorem snapshot_of_holds {α : Type} {b : Buf α} {xs : List α} (h : Holds b xs) :
    snapshot b xs.length = xs.map some := by
  apply List.ext_getElem
  · simp
  · intro k h1 h2
    simpa [snapshot] using h k (by simpa using h1)

/-! ### Operands -/

theorem inBits_eq_ok {s : State} {x : Bits} : s.inBits = .ok x ↔ InputBits s x := readSeq_memRead

theorem outBits_eq_ok {s : State} {x : Bits} : s.outBits = .ok x ↔ OutputBits s x := readSeq_memRead

theorem chars_eq_ok {s : State} {cs : List Byte} : s.chars = .ok cs ↔ InputChars s cs := readSeq_memRead

theorem sinSamples_eq_ok {s : State} {zs : List Sample} : s.sinSamples = .ok zs ↔ InputSamples s zs :=
  readSeq_sampleRead

theorem soutSamples_eq_ok {s : State} {zs : List Sample} : s.soutSamples = .ok zs ↔ OutputSamples s zs :=
  readSeq_sampleRead

theorem discWords_eq_ok {s : State} {ws : List Word} : s.discWords = .ok ws ↔ InputDisc s ws := readSeq_memRead

/-- A block write from 0 is what the buffer then holds. -/
theorem holds_bufPut {α : Type} (b : Buf α) (xs : List α) : Holds (bufPut b 0 xs) xs := fun k h => by
  simpa using (writes_bufPut b 0 xs).1 k h

theorem holdsSamples_bufPut (b : Buf Word) (zs : List Sample) :
    HoldsSamples (bufPut b 0 (interleave zs)) zs := (writesSamples_bufPut b zs).1

/-- IN after a load from 0 is the input that the next command reads. -/
theorem inputBits_putIn (s : State) (x : Bits) (h : x.length < 2 ^ 32) : InputBits (s.putIn x) x :=
  ⟨by simpa using h, holds_bufPut _ _⟩

theorem outputBits_putOut (s : State) (x : Bits) (h : x.length < 2 ^ 32) : OutputBits (s.putOut 0 x) x :=
  ⟨by simpa using h, holds_bufPut _ _⟩

theorem inputChars_putChr (s : State) (cs : List Byte) (h : cs.length < 2 ^ 32) :
    InputChars (s.putChr cs) cs := ⟨by simpa using h, holds_bufPut _ _⟩

theorem inputSamples_putSin (s : State) (zs : List Sample) (h : zs.length < 2 ^ 32) :
    InputSamples (s.putSin zs) zs := ⟨by simpa using h, holdsSamples_bufPut _ _⟩

theorem outputSamples_putSout (s : State) (zs : List Sample) (h : zs.length < 2 ^ 32) :
    OutputSamples (s.putSout zs) zs := ⟨by simpa using h, holdsSamples_bufPut _ _⟩

theorem inputDisc_putDisc (s : State) (ws : List Word) (h : ws.length < 2 ^ 32) :
    InputDisc (s.putDisc ws) ws := ⟨by simpa using h, holds_bufPut _ _⟩

theorem inSnapshot_eq {s : State} {x : Bits} (h : InputBits s x) : s.inSnapshot = x.map some := by
  rw [State.inSnapshot, h.1, snapshot_of_holds h.2]

/-- `sps_check()` gives S exactly when the rates have S samples per symbol (R146). -/
theorem spsCheck_eq_ok {c : Cfg} {S : Nat} : spsCheck c = .ok S ↔ c.hasSps S := by
  simp only [spsCheck, cmd_bind_ok, require_eq_ok, Except.ok.injEq, Cfg.hasSps]
  constructor
  · rintro ⟨-, h1, -, h2, rfl⟩
    simp only [ne_eq, Bool.and_eq_true, decide_eq_true_eq] at h1 h2
    exact ⟨h1.1, (Nat.div_mul_cancel (Nat.dvd_of_mod_eq_zero h1.2)).symm, Nat.one_le_iff_ne_zero.2 h2⟩
  · rintro ⟨h0, h1, h2⟩
    have hd : c.sampleRate.toNat / c.symbolRate.toNat = S := by
      rw [h1, Nat.mul_div_cancel _ (Nat.pos_of_ne_zero h0)]
    refine ⟨(), ?_, (), ?_, hd⟩
    · simp [h0, h1]
    · simp [hd]; omega

/-- `sps_check()` otherwise raises SPS_NONINTEGER. -/
theorem spsCheck_eq_error {c : Cfg} {e : Stop} (h : spsCheck c = .error e) : e = .raise .spsNonInteger := by
  simp only [spsCheck, cmd_bind_error, require_eq_error] at h
  rcases h with ⟨-, h⟩ | ⟨-, -, ⟨-, h⟩ | ⟨-, -, h⟩⟩
  · exact h
  · exact h
  · cases h

theorem filterCheck_eq_ok {c : Cfg} {u : Unit} : filterCheck c = .ok u ↔ c.filterLegal := by
  simp [filterCheck, cmd_bind_ok, require_eq_ok, Cfg.filterLegal]

theorem fskCheck_eq_ok {c : Cfg} {u : Unit} : fskCheck c = .ok u ↔ c.fskDevHz.toNat ≠ 0 := by
  simp [fskCheck, require_eq_ok]

theorem modCfgCheck_eq_ok {c : Cfg} {S : Nat} : modCfgCheck c = .ok S ↔ c.hasSps S ∧ c.modLegal := by
  simp only [modCfgCheck, cmd_bind_ok, spsCheck_eq_ok, Cfg.modLegal]
  cases hg : c.gmsk <;>
    simp only [if_true, if_false, Bool.false_eq_true, cmd_bind_ok, filterCheck_eq_ok, fskCheck_eq_ok,
      Except.ok.injEq, exists_const, exists_eq_right_right, true_imp_iff, false_imp_iff, reduceCtorEq,
      true_and, and_true]

theorem discCfgCheck_eq_ok {c : Cfg} {S : Nat} : discCfgCheck c = .ok S ↔ c.hasSps S ∧ c.discLegal := by
  simp only [discCfgCheck, cmd_bind_ok, spsCheck_eq_ok, Cfg.discLegal]
  cases hg : c.gmsk <;> cases hl : c.lpfEn <;>
    simp only [if_true, if_false, Bool.false_eq_true, cmd_bind_ok, cmd_ok_bind, filterCheck_eq_ok,
      fskCheck_eq_ok, Except.ok.injEq, exists_const, exists_eq_right_right, true_imp_iff, false_imp_iff,
      reduceCtorEq, true_and, and_true] <;>
    first | tauto | simp only [← and_assoc, exists_eq_right]

theorem acqCfgCheck_eq_ok {c : Cfg} {S : Nat} : acqCfgCheck c = .ok S ↔ c.hasSps S ∧ c.acqLegal := by
  simp only [acqCfgCheck, cmd_bind_ok, Except.ok.injEq, spsCheck_eq_ok, require_eq_ok, Cfg.acqLegal,
    Bool.and_eq_true, decide_eq_true_eq]
  constructor
  · rintro ⟨a, h, -, h1, rfl⟩; exact ⟨h, h1⟩
  · rintro ⟨h, h1⟩; exact ⟨S, h, (), h1, rfl⟩

theorem frameCfgCheck_eq_ok {c : Cfg} {u : Unit} : frameCfgCheck c = .ok u ↔ c.searchLegal := by
  simp [frameCfgCheck, require_eq_ok, Cfg.searchLegal, and_assoc]

theorem posEncode_eq_ok {v : Vessel} {m : Bits} : posEncode v = .ok m ↔ v.legal ∧ m = posBits v := by
  simp only [posEncode, posCheck, cmd_bind_ok, require_eq_ok, Except.ok.injEq, s32, Bool.and_eq_true,
    Bool.or_eq_true, decide_eq_true_eq]
  constructor
  · rintro ⟨-, ⟨-, h1, -, h2, -, h3, -, h4, -, h5, h6⟩, rfl⟩
    exact ⟨⟨h1, h2, ⟨of_decide_eq_true h3.1, of_decide_eq_true h3.2⟩,
      ⟨of_decide_eq_true h4.1, of_decide_eq_true h4.2⟩, h5, h6⟩, rfl⟩
  · rintro ⟨⟨h1, h2, h3, h4, h5, h6⟩, rfl⟩
    exact ⟨(), ⟨(), h1, (), h2, (), ⟨decide_eq_true h3.1, decide_eq_true h3.2⟩, (),
      ⟨decide_eq_true h4.1, decide_eq_true h4.2⟩, (), h5, h6⟩, rfl⟩

end Sys2Proof.Machine
end

