-- ==== Sys2Proof/Laws/Demod.lean ====
section
/-! SUPPORT. What the analog side can put out, and what the clock recovery does with it: the words of the modulator
and of the discriminator lie within their tolerances, and a sequence near the levels of a frame is sliced to that
frame (R17, R151, R159, R163, R165). -/

namespace Sys2Proof

open Machine

/-- R7: every positive bound is the bound of some analog side. -/
theorem Config.exists_analog (εMod εDisc εTap : ℝ) (hm : 0 < εMod) (hd : 0 < εDisc) (ht : 0 ≤ εTap) :
    ∃ hw : Config.Analog, hw.epsMod = εMod ∧ hw.epsDisc = εDisc ∧ hw.epsTap = εTap := by
  choose f hf using fun y => exists_within εMod y
  choose g hg using fun y => exists_within εDisc y
  exact ⟨{ epsMod := εMod, epsMod_pos := hm, epsDisc := εDisc, epsDisc_pos := hd, epsTap := εTap,
           epsTap_nonneg := ht
           modWords := fun j _ n => (f (Real.cos (j.phase n)), f (Real.sin (j.phase n)))
           modWords_within := fun _ _ _ => ⟨hf _, hf _⟩
           discWord := fun j _ k => g (j.ideal k)
           discWord_within := fun _ _ _ => hg _ }, rfl, rfl, rfl⟩

namespace Machine

/-! ### The words put out -/

@[simp] theorem modulated_length (hw : Config.Analog) (s : State) (B : Bits) (sps : Nat) :
    (modulated hw s B sps).length = B.length * sps := by simp [modulated]

/-- R151: each pair of words is within NUM_EPS_MOD of the ideal sample. -/
theorem modulated_within (hw : Config.Analog) (s : State) (B : Bits) (sps n : Nat)
    (h : n < (modulated hw s B sps).length) :
    Within hw.epsMod (Real.cos ((modJob s.cfg B).phase n)) (modulated hw s B sps)[n].1 ∧
      Within hw.epsMod (Real.sin ((modJob s.cfg B).phase n)) (modulated hw s B sps)[n].2 := by
  simpa [modulated] using hw.modWords_within (modJob s.cfg B) s.tick n

@[simp] theorem discriminated_length (hw : Config.Analog) (s : State) (zs : List Sample) :
    (discriminated hw s zs).length = zs.length := by
  unfold discriminated; split <;> simp

/-- A filter of zeros gives zeros. -/
theorem convSame_zero (S Lg bt M : Nat) (x : Nat → ℝ) (n : Nat) (hx : ∀ m < M, x m = 0) :
    convSame S Lg bt M x n = 0 := by
  refine Finset.sum_eq_zero fun k _ => ?_
  unfold padded
  split
  · rename_i h; rw [hx _ h.2, mul_zero]
  · rw [mul_zero]

/-- The ideal output is zero where the phase differences are, filtered or not. -/
theorem DiscJob.ideal_eq_zero {j : DiscJob} (h : ∀ m < j.samples.length, j.raw m = 0) {k : Nat}
    (hk : k < j.samples.length) : j.ideal k = 0 := by
  unfold DiscJob.ideal
  split
  · exact convSame_zero _ _ _ _ _ _ h
  · exact h k hk

theorem DiscJob.raw_of_w_zero {j : DiscJob} {k : Nat} (h : j.w k = 0) : j.raw k = 0 := by
  simp [DiscJob.raw, h]

theorem DiscJob.z_of_allValued {j : DiscJob} {v : ℚ × ℚ} (h : allValued v j.samples = true) {k : Nat}
    (hk : k < j.samples.length) : j.z k = ⟨((v.1 : ℚ) : ℝ), ((v.2 : ℚ) : ℝ)⟩ := by
  have hv : sampleValue j.samples[k] = v := by
    simpa using List.all_eq_true.1 h _ (List.getElem_mem hk)
  subst hv
  simp [DiscJob.z, hk, sampleValue]

/-- R165: on a quiet input the ideal output is zero. -/
theorem ideal_of_quiet {c : Cfg} {zs : List Sample} (h : quietInput c zs = true) {k : Nat} (hk : k < zs.length) :
    (discJob c zs).ideal k = 0 := by
  simp only [quietInput, Bool.or_eq_true, Bool.and_eq_true] at h
  rcases h with (h | ⟨hd, h⟩) | ⟨h1, hl⟩
  · refine DiscJob.ideal_eq_zero (j := discJob c zs) (fun m hm => DiscJob.raw_of_w_zero ?_) hk
    have hz : ∀ m < zs.length, (discJob c zs).z m = 0 := fun m hm => by
      rw [DiscJob.z_of_allValued (j := discJob c zs) h hm]; apply Complex.ext <;> simp
    have hsum : ∑ m ∈ Finset.range (discJob c zs).samples.length, (discJob c zs).z m = 0 :=
      Finset.sum_eq_zero fun m hm => hz m (Finset.mem_range.1 hm)
    simp [DiscJob.w, hz m hm, hsum]
  · refine DiscJob.ideal_eq_zero (j := discJob c zs) (fun m hm => DiscJob.raw_of_w_zero ?_) hk
    have hz := fun m hm => DiscJob.z_of_allValued (j := discJob c zs) (k := m) h hm
    have hsum : ∑ m ∈ Finset.range (discJob c zs).samples.length, (discJob c zs).z m =
        (discJob c zs).samples.length * (discJob c zs).z m := by
      rw [Finset.sum_congr rfl fun i hi => (hz i (Finset.mem_range.1 hi)).trans (hz m hm).symm]
      simp
    have hne : ((discJob c zs).samples.length : ℂ) ≠ 0 := by
      have : 0 < (discJob c zs).samples.length := by omega
      exact_mod_cast this.ne'
    have hdc : (discJob c zs).dcRemove = true := hd
    rw [DiscJob.w, if_pos hdc, hsum, mul_div_cancel_left₀ _ hne, sub_self]
  · have h1 : zs.length = 1 := by simpa using h1
    have hl : (discJob c zs).lpf = false := by simpa [discJob] using hl
    obtain rfl : k = 0 := by omega
    simp [DiscJob.ideal, hl, DiscJob.raw]

/-- R159, R165: each word is within NUM_EPS_DISC of the ideal discriminator. -/
theorem discriminated_within (hw : Config.Analog) (s : State) (zs : List Sample) (k : Nat)
    (h : k < (discriminated hw s zs).length) :
    Within hw.epsDisc ((discJob s.cfg zs).ideal k) (discriminated hw s zs)[k] := by
  have hk : k < zs.length := by simpa using h
  by_cases hq : quietInput s.cfg zs = true
  · simp only [discriminated, hq, if_true, List.getElem_replicate]
    exact (near_zero_word _ _ (by rw [ideal_of_quiet hq hk]; simpa using hw.epsDisc_pos.le)).within
  · simpa [discriminated, hq] using hw.discWord_within (discJob s.cfg zs) s.tick k

/-! ### Clock recovery on the levels of a frame (R163) -/

/-- The level of a symbol: 1 as +1, 0 as −1 (R148). -/
def levelOf (b : Bool) : ℚ := if b then 1 else -1

theorem sum_take_eq (L : List ℚ) (n : Nat) :
    (L.take n).sum = ∑ k ∈ Finset.range n, L.getD k 0 := by
  induction L generalizing n with
  | nil => simp
  | cons a t ih =>
    cases n with
    | zero => simp
    | succ n => rw [List.take_succ_cons, List.sum_cons, ih, Finset.sum_range_succ']; simp [add_comm]

theorem sum_zipWith_eq (f : ℚ → ℚ → ℚ) (T L : List ℚ) (h : T.length ≤ L.length) :
    (List.zipWith f T L).sum = ∑ k ∈ Finset.range T.length, f (T.getD k 0) (L.getD k 0) := by
  induction T generalizing L with
  | nil => simp
  | cons a t ih =>
    cases L with
    | nil => simp at h
    | cons b l =>
      rw [List.zipWith_cons_cons, List.sum_cons, ih l (by simpa using h), List.length_cons,
        Finset.sum_range_succ']
      simp [add_comm]

/-- A run of S equal elements for each element of a list. -/
theorem getD_flatMap_replicate {α : Type} (l : List α) (S : Nat) (f : α → ℚ) (k : Nat) (a : α)
    (h : k < l.length * S) :
    (l.flatMap fun b => List.replicate S (f b)).getD k 0 = f (l.getD (k / S) a) := by
  have hS : 0 < S := by rcases Nat.eq_zero_or_pos S with h0 | h0 <;> simp_all
  induction l generalizing k with
  | nil => simp at h
  | cons b t ih =>
    rw [List.flatMap_cons]
    by_cases hk : k < S
    · rw [List.getD_append _ _ _ _ (by simpa using hk)]; simp [hk, Nat.div_eq_of_lt hk]
    · rw [List.getD_append_right _ _ _ _ (by simpa using hk), List.length_replicate,
        ih _ (by simp only [List.length_cons, Nat.add_mul] at h; omega),
        show k / S = (k - S) / S + 1 by rw [Nat.div_eq_sub_div hS (by omega)]]
      simp

/-- The levels of a bit sequence, each held for S samples, sum to S times the sum of its levels. -/
theorem sum_levels (l : Bits) (S : Nat) :
    ∑ k ∈ Finset.range (l.length * S), levelOf (l.getD (k / S) false) = S * (l.map levelOf).sum := by
  have hl : (l.flatMap fun b => List.replicate S (levelOf b)).length = l.length * S := by
    induction l with
    | nil => simp
    | cons b t ih => simp [ih]; ring
  rw [← Finset.sum_congr rfl fun k hk => getD_flatMap_replicate l S levelOf k false (Finset.mem_range.1 hk),
    ← hl, ← sum_take_eq, List.take_length]
  clear hl
  induction l with
  | nil => simp
  | cons b t ih => simp [ih]; ring

/-- Errors of at most 1/4 each, and 9/4 at sample 0, weighted by at most 1, sum to at most n/4 + 2. -/
theorem abs_sum_err_le (n : Nat) (w E : Nat → ℚ) (hw : ∀ k, |w k| ≤ 1) (h0 : |E 0| ≤ 9 / 4)
    (hE : ∀ k, 1 ≤ k → k < n → |E k| ≤ 1 / 4) : |∑ k ∈ Finset.range n, w k * E k| ≤ n / 4 + 2 := by
  have hterm : ∀ k ∈ Finset.range n, |w k * E k| ≤ 1 / 4 + if k = 0 then 2 else 0 := by
    intro k hk
    have h1 : |w k * E k| ≤ |E k| := by
      rw [abs_mul]; exact mul_le_of_le_one_left (abs_nonneg _) (hw k)
    rcases Nat.eq_zero_or_pos k with rfl | hk0
    · rw [if_pos rfl]; linarith
    · have := hE k hk0 (Finset.mem_range.1 hk)
      rw [if_neg (by omega)]; linarith
  refine (Finset.abs_sum_le_sum_abs _ _).trans ((Finset.sum_le_sum hterm).trans ?_)
  rw [Finset.sum_add_distrib, Finset.sum_const, Finset.card_range, Finset.sum_ite_eq' (Finset.range n) 0]
  split <;> (simp only [nsmul_eq_mul]; linarith)

/-- D lies within 1/4 of the levels of B, S samples a symbol; sample 0, whose ideal value is 0 and not a level
(R159), within 9/4. -/
structure NearLevels (S : Nat) (B : Bits) (D : List ℚ) : Prop where
  length : D.length = B.length * S
  first : |D.getD 0 0 - levelOf (B.getD 0 false)| ≤ 9 / 4
  rest : ∀ k, 1 ≤ k → k < D.length → |D.getD k 0 - levelOf (B.getD (k / S) false)| ≤ 1 / 4

section
variable {S : Nat} {B : Bits} {D : List ℚ}

theorem levelOf_abs (b : Bool) : |levelOf b| ≤ 1 := by cases b <;> simp [levelOf]

theorem levelOf_sq (b : Bool) : levelOf b * levelOf b = 1 := by cases b <;> simp [levelOf]

theorem template_getD (S k : Nat) (h : k < 32 * S) :
    (template S).getD k 0 = levelOf ((trainBits ++ flagBits).getD (k / S) false) :=
  getD_flatMap_replicate _ S levelOf k false h

theorem template_length (S : Nat) : (template S).length = 32 * S := by
  rw [template, show 32 * S = (trainBits ++ flagBits).length * S from rfl]
  induction trainBits ++ flagBits with
  | nil => simp
  | cons b t ih => rw [List.flatMap_cons, List.length_append, ih]; simp; ring

theorem length_of_preamble (hpre : B.take 32 = trainBits ++ flagBits) : 32 ≤ B.length := by
  have := congrArg List.length hpre
  simp [trainBits, flagBits] at this
  omega

theorem preamble_getD (hpre : B.take 32 = trainBits ++ flagBits) {i : Nat} (hi : i < 32) :
    B.getD i false = (trainBits ++ flagBits).getD i false := by
  rw [← hpre]; simp [List.getD_eq_getElem?_getD, hi]

theorem preamble_sum_train : (trainBits.map levelOf).sum = 0 := by decide +kernel

theorem preamble_sum : ((trainBits ++ flagBits).map levelOf).sum = 4 := by decide +kernel

/-- The baseline at lag 0 is small. -/
theorem lagOffset_near (hS : 2 ≤ S) (hD : NearLevels S B D) (hpre : B.take 32 = trainBits ++ flagBits) :
    |lagOffset S D 0| ≤ 7 / 24 := by
  have hB := length_of_preamble hpre
  have hlen : 24 * S ≤ D.length := by rw [hD.length]; nlinarith
  have hlv : ∑ k ∈ Finset.range (24 * S), levelOf (B.getD (k / S) false) = 0 := by
    have h := sum_levels trainBits S
    rw [preamble_sum_train, mul_zero, show trainBits.length = 24 from rfl] at h
    rw [← h]
    refine Finset.sum_congr rfl fun k hk => ?_
    have hk24 : k / S < 24 := Nat.div_lt_of_lt_mul (by have := Finset.mem_range.1 hk; linarith)
    rw [preamble_getD hpre (by omega), List.getD_append _ _ _ _ (by simpa [trainBits] using hk24)]
  have herr := abs_sum_err_le (24 * S) (fun _ => 1) (fun k => D.getD k 0 - levelOf (B.getD (k / S) false))
    (by simp) (by simpa using hD.first) (fun k h1 h2 => hD.rest k h1 (by omega))
  simp only [one_mul, Finset.sum_sub_distrib, hlv, sub_zero] at herr
  have hS' : (2 : ℚ) ≤ S := by exact_mod_cast hS
  rw [lagOffset, List.drop_zero, sum_take_eq, abs_div, abs_of_nonneg (by positivity : (0 : ℚ) ≤ ((24 * S : Nat) : ℚ)),
    div_le_iff₀ (by push_cast; linarith)]
  refine herr.trans ?_
  push_cast
  linarith

/-- The score at lag 0 is at least 1/2. -/
theorem lagScore_near (hS : 2 ≤ S) (hD : NearLevels S B D) (hpre : B.take 32 = trainBits ++ flagBits) :
    1 / 2 ≤ lagScore S D 0 := by
  have hB := length_of_preamble hpre
  have hlen : 32 * S ≤ D.length := by rw [hD.length]; nlinarith
  have ho := abs_le.1 (lagOffset_near hS hD hpre)
  set o := lagOffset S D 0 with ho_def
  have hsum : ∑ k ∈ Finset.range (32 * S), levelOf (B.getD (k / S) false) = S * 4 := by
    have h := sum_levels (trainBits ++ flagBits) S
    rw [preamble_sum, show (trainBits ++ flagBits).length = 32 from rfl] at h
    rw [← h]
    refine Finset.sum_congr rfl fun k hk => ?_
    rw [preamble_getD hpre (Nat.div_lt_of_lt_mul (by have := Finset.mem_range.1 hk; linarith))]
  have herr := abs_le.1 (abs_sum_err_le (32 * S) (fun k => levelOf (B.getD (k / S) false))
    (fun k => D.getD k 0 - levelOf (B.getD (k / S) false)) (fun _ => levelOf_abs _)
    (by simpa using hD.first) (fun k h1 h2 => hD.rest k h1 (by omega)))
  have hterms : (List.zipWith (fun t d => t * (d - o)) (template S) D).sum =
      32 * S + ∑ k ∈ Finset.range (32 * S), levelOf (B.getD (k / S) false) *
        (D.getD k 0 - levelOf (B.getD (k / S) false)) - o * (S * 4) := by
    rw [sum_zipWith_eq _ _ _ (by rw [template_length]; exact hlen), template_length, ← hsum, Finset.mul_sum]
    rw [show (32 * S : ℚ) = ∑ _k ∈ Finset.range (32 * S), (1 : ℚ) by simp, ← Finset.sum_add_distrib,
      ← Finset.sum_sub_distrib]
    refine Finset.sum_congr rfl fun k hk => ?_
    have hk' := Finset.mem_range.1 hk
    rw [template_getD S k hk', ← preamble_getD hpre (Nat.div_lt_of_lt_mul (by linarith))]
    have := levelOf_sq (B.getD (k / S) false)
    linear_combination this
  have hS' : (2 : ℚ) ≤ S := by exact_mod_cast hS
  rw [lagScore, List.drop_zero, ← ho_def]
  rw [hterms, le_div_iff₀ (by push_cast; linarith)]
  have h1 := herr.1
  push_cast at h1 ⊢
  nlinarith

/-- One candidate lag and a sequence near the levels of B, which begins with TRAIN and FLAG: `recover` locks at
lag 0 with normal polarity and slices exactly B (R163). -/
theorem recover_near {c : Cfg} {cap : Nat} (hS : 2 ≤ S) (hD : NearLevels S B D)
    (hpre : B.take 32 = trainBits ++ flagBits) (hw : c.acqWindow.toNat = 1) (hθ : c.acqThreshold.toNat ≤ 32768)
    (hcap : B.length ≤ cap) :
    ∃ a, recover c cap S D = .ok a ∧ a.bits = B ∧ a.lag = 0 ∧ a.inverted = false := by
  have hB := length_of_preamble hpre
  have hlen : 32 * S ≤ D.length := by rw [hD.length]; nlinarith
  have hscore := lagScore_near hS hD hpre
  have hoff := abs_le.1 (lagOffset_near hS hD hpre)
  have hθ' : (c.acqThreshold.toNat : ℚ) / 65536 ≤ lagScore S D 0 := by
    have : (c.acqThreshold.toNat : ℚ) ≤ 32768 := by exact_mod_cast hθ
    linarith
  have hpeak : isPeak S ((c.acqThreshold.toNat : ℚ) / 65536) [lagScore S D 0] 0 false = true := by
    simp only [isPeak, signed, List.getD_cons_zero, Bool.false_eq_true, if_false, Bool.and_eq_true,
      decide_eq_true_eq, List.all_eq_true]
    refine ⟨hθ', fun x hx => ?_⟩
    have hx' : x = lagScore S D 0 := by simpa using List.mem_of_mem_drop (List.mem_of_mem_take hx)
    rw [hx', abs_of_nonneg (by linarith)]
  have hcount : symbolCount S D.length 0 = B.length := by
    rw [symbolCount, hD.length]
    have h1 : B.length * S - 1 - 0 - S / 2 = (S - 1 - S / 2) + S * (B.length - 1) := by
      have : B.length * S = S * (B.length - 1) + S := by
        rw [← Nat.mul_succ, Nat.succ_eq_add_one, Nat.sub_add_cancel (by omega), Nat.mul_comm]
      omega
    rw [h1, Nat.add_mul_div_left _ _ (by omega), Nat.div_eq_of_lt (by omega)]
    omega
  have hbits : sliceBits S D 0 false (lagOffset S D 0) = B := by
    rw [sliceBits, hcount]
    refine List.ext_getElem (by simp) fun j h1 h2 => ?_
    simp only [List.getElem_map, List.getElem_range, signed, Bool.false_eq_true, if_false, Nat.zero_add]
    have hlt : j * S + S / 2 < D.length := by
      rw [hD.length]
      have : (j + 1) * S ≤ B.length * S := Nat.mul_le_mul_right S h2
      rw [Nat.add_mul] at this
      omega
    have hdiv : (j * S + S / 2) / S = j := by
      rw [Nat.add_comm, Nat.mul_comm, Nat.add_mul_div_left _ _ (by omega), Nat.div_eq_of_lt (by omega), Nat.zero_add]
    have hr := hD.rest (j * S + S / 2) (by omega) hlt
    rw [hdiv, List.getD_eq_getElem _ _ h2] at hr
    have hr := abs_le.1 hr
    cases hb : B[j]
    · rw [hb] at hr; simp only [levelOf, Bool.false_eq_true, if_false] at hr
      simp only [decide_eq_false_iff_not, not_lt]; linarith
    · rw [hb] at hr; simp only [levelOf, if_true] at hr
      simp only [decide_eq_true_eq]; linarith
  have hM : min c.acqWindow.toNat (D.length - 32 * S + 1) = 1 := by omega
  refine ⟨{ bits := B, lag := 0, inverted := false, score := lagScore S D 0, offset := lagOffset S D 0 },
    ?_, rfl, rfl, rfl⟩
  have hfind : (candidates 1).find? (fun mp => isPeak S ((c.acqThreshold.toNat : ℚ) / 65536)
      [lagScore S D 0] mp.1 mp.2) = some (0, false) := by
    simp [candidates, hpeak]
  simp only [recover, hlen, decide_true, require_true, cmd_ok_bind, hM, List.range_one, List.map_cons, List.map_nil,
    hfind, hcount, hbits, fits, hcap, signed, List.getD_cons_zero, Bool.false_eq_true, if_false]

end

end Machine

end Sys2Proof
end

