-- ==== Sys2Proof/Laws/Hdlc.lean ====
section
/-! SUPPORT. What the functions of the HDLC framer and the NRZI coder do: lengths, the payload loop of `locate` and
its search for the frame start, said once (R106, R111, R114, R125, R126). -/

namespace Sys2Proof.Machine

/-! ### NRZI and stuffing -/

@[simp] theorem nrziEnc_length (x : Bits) (l : Bool) : (nrziEnc l x).length = x.length := by
  induction x generalizing l with
  | nil => rfl
  | cons b t ih => simp [nrziEnc, ih]

@[simp] theorem nrziDec_length (x : Bits) (l : Bool) : (nrziDec l x).length = x.length := by
  induction x generalizing l with
  | nil => rfl
  | cons b t ih => simp [nrziDec, ih]

/-- Stuffing never shortens. -/
theorem stuffFrom_length_le (x : Bits) (c : Nat) : x.length ≤ (stuffFrom c x).length := by
  induction x generalizing c with
  | nil => simp
  | cons b t ih =>
    cases b
    · simpa [stuffFrom] using ih 0
    · simp only [stuffFrom]; split_ifs
      · have := ih 0; simp; omega
      · simpa using ih (c + 1)

/-- Stuffing adds at most one bit for every five. -/
theorem stuffFrom_length_le_div (x : Bits) (c : Nat) (hc : c ≤ 4) :
    5 * (stuffFrom c x).length ≤ 6 * x.length + c := by
  induction x generalizing c with
  | nil => simp [stuffFrom]
  | cons b t ih =>
    cases b
    · have := ih 0 (by omega); simp [stuffFrom]; omega
    · simp only [stuffFrom]; split_ifs
      · have := ih 0 (by omega); simp; omega
      · have := ih (c + 1) (by omega); simp; omega

/-! ### On-air reads -/

/-- Reading on-air bits that all hold a value. -/
theorem airBits_some (B : Bits) (i n : Nat) (h : i + n ≤ B.length) :
    airBits (B.map some) i n = .ok (slice B i (i + n)) := by
  rw [airBits, readSeq_eq_ok]
  have hl : (slice B i (i+n)).length = n := by simp [slice]; omega
  refine ⟨hl, fun k hk => ?_⟩
  rw [hl] at hk
  have hk' : i + k < B.length := by omega
  simp [airBit, List.getD, hk', onAir, slice]

/-! ### The payload loop (R114) -/

/-- From the start of a coded payload the loop decodes it whole, a last stuffed 0 included. -/
theorem takePayload_body (pay : Bits) (rest : List (Option Bool)) (prev : Bool) (c i : Nat) (hc : c ≤ 4) :
    takePayload prev c pay.length i ((nrziEnc prev (stuffFrom c pay)).map some ++ rest) =
      .ok (pay, i + (stuffFrom c pay).length) := by
  induction pay generalizing prev c i with
  | nil => cases rest <;> simp [stuffFrom, nrziEnc, takePayload, show c ≠ 5 by omega]
  | cons b t ih =>
    have h5 : c ≠ 5 := by omega
    cases b
    · cases prev <;>
        simp [stuffFrom, nrziEnc, takePayload, nrziNext, onAir, h5, ih _ 0 _ (by omega)] <;> omega
    · by_cases h : c + 1 = 5
      · cases prev <;>
          simp [stuffFrom, nrziEnc, takePayload, nrziNext, onAir, h, h5, ih _ 0 _ (by omega)] <;> omega
      · cases prev <;>
          simp [stuffFrom, nrziEnc, takePayload, nrziNext, onAir, h, h5, ih _ (c + 1) _ (by omega)] <;> omega

/-- What the loop decodes is, NRZI-decoded, the stuffing of the payload bits it answers. -/
theorem takePayload_ok {R : Bits} {prev : Bool} {c need i e : Nat} {pay : Bits} (hc : c ≤ 5)
    (h : takePayload prev c need i (R.map some) = .ok (pay, e)) :
    ∃ n, n ≤ R.length ∧ e = i + n ∧ pay.length = need ∧
      nrziDec prev (R.take n) = if c = 5 then false :: stuffFrom 0 pay else stuffFrom c pay := by
  induction R generalizing prev c need i pay e with
  | nil =>
    simp only [List.map_nil, takePayload] at h
    by_cases h1 : need = 0 ∧ c ≠ 5
    · rw [if_pos h1] at h; cases h; exact ⟨0, by simp [h1.1, h1.2, nrziDec, stuffFrom]⟩
    · rw [if_neg h1] at h; cases h
  | cons y R ih =>
    simp only [List.map_cons, takePayload, onAir, cmd_ok_bind] at h
    by_cases h1 : need = 0 ∧ c ≠ 5
    · rw [if_pos h1] at h; cases h; exact ⟨0, by simp [h1.1, h1.2, nrziDec, stuffFrom]⟩
    rw [if_neg h1] at h
    by_cases h2 : c = 5
    · rw [if_pos h2] at h
      cases h3 : (y == prev)
      · rw [h3, if_neg (by simp)] at h
        obtain ⟨n, hn, rfl, hl, hd⟩ := ih (by omega) h
        refine ⟨n + 1, by simp; omega, by omega, hl, ?_⟩
        rw [if_neg (by omega)] at hd
        simp only [List.take_succ_cons, nrziDec, hd, h3, h2, if_true]
      · rw [h3, if_pos rfl] at h; cases h
    · rw [if_neg h2, cmd_bind_ok] at h
      obtain ⟨⟨p1, e1⟩, h4, h5⟩ := h
      cases h5
      have hpos : 0 < need := by omega
      obtain ⟨n, hn, rfl, hl, hd⟩ := ih (by split_ifs <;> omega) h4
      refine ⟨n + 1, by simp; omega, by omega, by simp [hl]; omega, ?_⟩
      rw [if_neg h2, List.take_succ_cons, nrziDec, hd]
      cases hy : (y == prev)
      · simp [stuffFrom]
      · by_cases hc5 : c + 1 = 5
        · simp [stuffFrom, hc5]
        · simp [stuffFrom, hc5]

theorem takePayload_no_fault {R : Bits} {prev : Bool} {c need i : Nat} {f : Fault} :
    takePayload prev c need i (R.map some) ≠ .error (.fault f) := by
  induction R generalizing prev c need i with
  | nil => simp only [List.map_nil, takePayload]; split_ifs <;> simp [raise]
  | cons y R ih =>
    simp only [List.map_cons, takePayload, onAir, cmd_ok_bind]
    by_cases h1 : need = 0 ∧ c ≠ 5
    · rw [if_pos h1]; simp
    rw [if_neg h1]
    by_cases h2 : c = 5
    · rw [if_pos h2]; split_ifs
      · simp [raise]
      · exact ih
    · rw [if_neg h2]; intro h
      rw [cmd_bind_error] at h
      rcases h with h | ⟨a, -, h⟩
      · exact ih h
      · cases h

/-- When the sequence ends inside the stuffing of as many payload bits as are needed, the loop reports
PAYLOAD_TRUNCATED. -/
theorem takePayload_truncated {R ext pay : Bits} {prev : Bool} {c i : Nat} (hc : c ≤ 4) (hext : ext ≠ [])
    (h : stuffFrom c pay = nrziDec prev R ++ ext) :
    takePayload prev c pay.length i (R.map some) = raise .payloadTruncated := by
  induction pay generalizing R prev c i with
  | nil => cases R <;> simp_all [stuffFrom, nrziDec]
  | cons b t ih =>
    have h5 : c ≠ 5 := by omega
    cases R with
    | nil => simp [takePayload]
    | cons y R =>
      cases b
      · simp only [stuffFrom, nrziDec, List.cons_append, List.cons.injEq] at h
        have hy : ¬ y = prev := by simpa using h.1.symm
        simp [takePayload, onAir, h5, hy, ih (c := 0) (by omega) h.2]
      · by_cases hs : c + 1 = 5
        · simp only [stuffFrom, hs, if_true, nrziDec, List.cons_append, List.cons.injEq] at h
          have hy : y = prev := by simpa using h.1.symm
          cases R with
          | nil => simp [takePayload, onAir, h5, hy, hs]
          | cons y' R =>
            simp only [nrziDec, List.cons_append, List.cons.injEq] at h
            have hy' : ¬ y' = prev := by simpa [hy] using h.2.1.symm
            simp [takePayload, onAir, h5, hy, hy', hs, ih (c := 0) (by omega) h.2.2]
        · simp only [stuffFrom, hs, if_false, nrziDec, List.cons_append, List.cons.injEq] at h
          have hy : y = prev := by simpa using h.1.symm
          simp [takePayload, onAir, h5, hy, ih (c := c + 1) (by omega) (hy ▸ h.2)]

/-- When a stuffed bit is 1 before more payload bits are decoded than are needed, the loop reports
DESTUFF_VIOLATION. -/
theorem takePayload_violation {R y : Bits} {prev : Bool} {c need i n : Nat} (hn : n < R.length)
    (hy : destuffFrom c ((nrziDec prev R).take n) = .ok y) (hlen : y.length ≤ need)
    (h : destuffFrom c ((nrziDec prev R).take (n + 1)) = raise .destuffViolation) :
    takePayload prev c need i (R.map some) = raise .destuffViolation := by
  induction R generalizing prev c need i n y with
  | nil => simp at hn
  | cons b R ih =>
    simp only [List.map_cons, takePayload, onAir, cmd_ok_bind]
    simp only [nrziDec, List.take_succ_cons, destuffFrom] at h
    by_cases hc : c = 5
    · rw [if_neg (by omega), if_pos hc]
      rw [if_pos hc] at h
      cases hb : (b == prev)
      · rw [hb, if_neg (by simp)] at h
        cases n with
        | zero => simp [destuffFrom, raise] at h
        | succ n =>
          simp only [nrziDec, List.take_succ_cons, destuffFrom, hc, if_true, hb, Bool.false_eq_true, if_false] at hy
          simpa using ih (by simpa using hn) hy hlen h
      · simp
    · rw [if_neg hc] at h
      cases n with
      | zero => simp [destuffFrom, raise] at h
      | succ n =>
        simp only [nrziDec, List.take_succ_cons, destuffFrom, hc, if_false, cmd_bind_ok] at hy
        obtain ⟨r, hr, hy⟩ := hy
        cases hy
        simp only [List.length_cons] at hlen
        have h' : destuffFrom (if (b == prev) then c + 1 else 0) ((nrziDec b R).take (n + 1)) =
            raise .destuffViolation := by
          rw [raise, cmd_bind_error] at h
          rcases h with h | ⟨_, _, h⟩
          · exact h
          · cases h
        rw [if_neg (by omega), if_neg hc, ih (by simpa using hn) hr (by omega) h', raise_bind]

/-! ### The search for the frame start (R114) -/

/-- The training window at t agrees well enough (R114). -/
def trainsAt (c : Cfg) (B : Bits) (t : Nat) : Prop := c.trainMinAgree.toNat ≤ agree (slice B t (t + 24)) trainBits

/-- t is a candidate: its training window and its flag window agree well enough (R114). -/
def goodAt (c : Cfg) (B : Bits) (t : Nat) : Prop :=
  trainsAt c B t ∧ c.flagMinAgree.toNat ≤ agree (slice B (t + 24) (t + 32)) flagBits

/-- The score of offset t: how well its 32 bits agree with TRAIN and FLAG (R114). -/
def scoreAt (B : Bits) (t : Nat) : Nat := agree (slice B t (t + 32)) (trainBits ++ flagBits)

/-- What R114's search knows after the offsets below n. -/
def ScanOf (c : Cfg) (B : Bits) (n : Nat) (a : Scan) : Prop :=
  (a.foundTrain = true ↔ ∃ t < n, trainsAt c B t) ∧
    match a.best with
    | none => ∀ t < n, ¬ goodAt c B t
    | some (p, sc) => p < n ∧ goodAt c B p ∧ sc = scoreAt B p ∧
        ∀ t < n, goodAt c B t → scoreAt B t < sc ∨ (scoreAt B t = sc ∧ p ≤ t)

/-- One offset more. -/
theorem scanStep_spec {c : Cfg} {B : Bits} {n : Nat} {a : Scan} (ha : ScanOf c B n a) (hn : n + 32 ≤ B.length) :
    ∃ a', scanStep c (B.map some) a n = .ok a' ∧ ScanOf c B (n + 1) a' := by
  have hs : slice B n (n + 24) ++ slice B (n + 24) (n + 32) = slice B n (n + 32) := by
    simp only [slice]
    rw [show n + 24 - n = 24 by omega, show n + 32 - (n + 24) = 8 by omega, show n + 32 - n = 24 + 8 by omega,
      List.take_add, List.drop_drop]
  rw [scanStep, airBits_some _ _ _ (by omega), cmd_ok_bind]
  obtain ⟨h1, h2⟩ := ha
  by_cases ht : trainsAt c B n
  · have ht' := ht
    rw [trainsAt] at ht'
    rw [if_neg (by omega), airBits_some _ _ _ (by omega), cmd_ok_bind]
    by_cases hg : goodAt c B n
    · rw [show n + 24 + 8 = n + 32 by omega, if_neg (by have := hg.2; omega)]
      refine ⟨_, rfl, ?_, ?_⟩
      · simp; exact ⟨n, by omega, ht⟩
      · rw [hs]
        change match better a.best n (scoreAt B n) with | none => _ | some (p, sc) => _
        cases hb : a.best with
        | none =>
          rw [hb] at h2
          refine ⟨by omega, hg, rfl, fun t htn hgt => ?_⟩
          rcases Nat.lt_succ_iff_lt_or_eq.1 htn with h | rfl
          · exact absurd hgt (h2 t h)
          · exact .inr ⟨rfl, le_refl _⟩
        | some ps =>
          obtain ⟨p, sc⟩ := ps
          rw [hb] at h2
          obtain ⟨hp, hgp, rfl, hmax⟩ := h2
          by_cases hlt : scoreAt B p < scoreAt B n
          · rw [better, if_pos hlt]
            refine ⟨by omega, hg, rfl, fun t htn hgt => ?_⟩
            rcases Nat.lt_succ_iff_lt_or_eq.1 htn with h | rfl
            · rcases hmax t h hgt with h' | h' <;> left <;> omega
            · exact .inr ⟨rfl, le_refl _⟩
          · rw [better, if_neg hlt]
            refine ⟨by omega, hgp, rfl, fun t htn hgt => ?_⟩
            rcases Nat.lt_succ_iff_lt_or_eq.1 htn with h | rfl
            · exact hmax t h hgt
            · rcases Nat.lt_or_ge (scoreAt B t) (scoreAt B p) with h' | h'
              · exact .inl h'
              · exact .inr ⟨by omega, by omega⟩
    · have : ¬ c.flagMinAgree.toNat ≤ agree (slice B (n + 24) (n + 32)) flagBits := fun h => hg ⟨ht, h⟩
      rw [if_pos (by rw [show n + 24 + 8 = n + 32 by omega]; omega)]
      refine ⟨_, rfl, ?_, ?_⟩
      · simp; exact ⟨n, by omega, ht⟩
      · cases hb : a.best with
        | none =>
          rw [hb] at h2
          simp only
          intro t htn
          rcases Nat.lt_succ_iff_lt_or_eq.1 htn with h | rfl
          · exact h2 t h
          · exact hg
        | some ps =>
          obtain ⟨p, sc⟩ := ps
          rw [hb] at h2
          simp only
          refine ⟨by omega, h2.2.1, h2.2.2.1, fun t htn hgt => ?_⟩
          rcases Nat.lt_succ_iff_lt_or_eq.1 htn with h | rfl
          · exact h2.2.2.2 t h hgt
          · exact absurd hgt hg
  · have ht' := ht
    rw [trainsAt] at ht'
    rw [if_pos (by omega)]
    refine ⟨_, rfl, ?_, ?_⟩
    · rw [h1]
      constructor
      · rintro ⟨t, h, h'⟩; exact ⟨t, by omega, h'⟩
      · rintro ⟨t, h, h'⟩
        rcases Nat.lt_succ_iff_lt_or_eq.1 h with h | rfl
        · exact ⟨t, h, h'⟩
        · exact absurd h' ht
    · cases hb : a.best with
      | none =>
        rw [hb] at h2
        intro t htn hgt
        rcases Nat.lt_succ_iff_lt_or_eq.1 htn with h | rfl
        · exact h2 t h hgt
        · exact ht hgt.1
      | some ps =>
        obtain ⟨p, sc⟩ := ps
        rw [hb] at h2
        refine ⟨by omega, h2.2.1, h2.2.2.1, fun t htn hgt => ?_⟩
        rcases Nat.lt_succ_iff_lt_or_eq.1 htn with h | rfl
        · exact h2.2.2.2 t h hgt
        · exact absurd hgt.1 ht

/-- The whole search. -/
theorem scanFrame_spec (c : Cfg) (B : Bits) (hB : 32 ≤ B.length) :
    ∃ a, scanFrame c (B.map some) = .ok a ∧ ScanOf c B (min (c.trainSpan.toNat - 1) (B.length - 32) + 1) a := by
  suffices h : ∀ n, n ≤ B.length - 32 + 1 → ∃ a, (List.range n).foldlM (scanStep c (B.map some))
      { foundTrain := false, best := none } = .ok a ∧ ScanOf c B n a by
    have := h (min (c.trainSpan.toNat - 1) (B.length - 32) + 1) (by omega)
    simpa [scanFrame] using this
  intro n hn
  induction n with
  | zero => exact ⟨_, rfl, by simp, by simp⟩
  | succ n ih =>
    obtain ⟨a, h, ha⟩ := ih (by omega)
    obtain ⟨a', h', ha'⟩ := scanStep_spec (n := n) ha (by omega)
    refine ⟨a', ?_, ha'⟩
    rw [List.range_succ, List.foldlM_append, h, cmd_ok_bind, List.foldlM_cons, h']
    rfl

end Sys2Proof.Machine
end

