-- ==== Sys2Proof/Tests/Slice0.lean ====
section
/-! SUPPORT. The model's own tests.  Expected values are the spec's: the examples of the rules, and the vectors of
spec/95_test_vectors.md by their names (BV1, CR1, …).  The witnesses at the end show, for each statement that has
hypotheses, a concrete case that meets them. -/



-- Each theorem is checked before the next begins, which keeps the number of threads low.
set_option Elab.async false

namespace Sys2Proof.Tests

open Sys2Proof Sys2Proof.Machine

/-! ### Helpers -/

/-- The next state of an outcome, if it has one. -/
def next? (o : Host.Outcome State Fault Refusal) : Option State :=
  match o with
  | .next t => some t
  | _ => none

/-- The fault of an outcome, if it has one. -/
def fault? (o : Host.Outcome State Fault Refusal) : Option Fault :=
  match o with
  | .fault f => some f
  | _ => none

/-- One field after one command. -/
def after {α : Type} (i : Instr) (s : State) (f : State → α) : Option α := (next? (exec i s)).map f

/-- Bits written as 0s and 1s. -/
def bits (l : List Nat) : Bits := l.map (· == 1)

/-- OUT after one command, as far as OUT_LEN. -/
def outAfter (i : Instr) (s : State) : Option (List (Option Bool)) :=
  after i s fun t => snapshot t.mem.out t.outLen.toNat

/-- What `outAfter` answers when OUT holds l. -/
def holdsBits (l : List Nat) : Option (List (Option Bool)) := some ((bits l).map some)

/-- Reset with IN holding l. -/
def inp (l : List Nat) : State := State.reset.putIn (bits l)

/-- The HD1 vessel (95_test_vectors.md S4). -/
def hd1 : State :=
  { State.reset with vs := { mmsi := 123456789, nav := 0, sog := 125, lon := 0xFB9F3788, lat := 0x0159D6EC,
                             cog := 450, hdg := 45, ts := 0 } }

/-- The HD1 message (95_test_vectors.md section 2). -/
def hd1Message : Bits :=
  ubits 32 0x041D6F34 ++ ubits 32 0x542007D5 ++ ubits 32 0xCF9BC415 ++ ubits 32 0x9D6EC1C2 ++
    ubits 32 0x16800000 ++ ubits 8 0

/-- The HD1 frame (95_test_vectors.md section 2). -/
def hd1Frame : Bits :=
  ubits 32 0x5555557E ++ ubits 32 0x52BCE08D ++ ubits 32 0x32955026 ++ ubits 32 0x102E0B53 ++
    ubits 32 0x10C78AF5 ++ ubits 32 0xAC6AAAAA ++ ubits 32 0xAA93C75F ++ bits [1, 0, 0, 0, 0, 0, 0, 0, 0, 0]

/-- Reset with one host access to come. -/
def host (a : HostAction) (s : State) : State := { s with port := [a] }

/-! ### Well-formedness refuses what R74 refuses -/

theorem test_wf_crcBit_high_bit : (Instr.crcBit 0x02).wf = false := by decide +kernel
theorem test_wf_stuffBit_high_bit : (Instr.stuffBit 0x80).wf = false := by decide +kernel
theorem test_wf_destuffBit_high_bit : (Instr.destuffBit 0x03).wf = false := by decide +kernel
theorem test_wf_nrziEncBit_high_bit : (Instr.nrziEncBit 0xFE).wf = false := by decide +kernel
theorem test_wf_nrziDecBit_high_bit : (Instr.nrziDecBit 0x10).wf = false := by decide +kernel
theorem test_wf_six2ascii_bit6 : (Instr.six2ascii 0x40).wf = false := by decide +kernel
theorem test_wf_form_none_admits_zero_only : ImmForm.none.admits 0x01 = false := by decide +kernel
theorem test_wf_byte_is_free : (Instr.crcByte 0xFF).wf = true ∧ (Instr.ascii2six 0xFF).wf = true :=
  by decide +kernel

/-! ### The word of every command, as R75 and the rules' Encoding lines print it -/

theorem test_decode_system :
    decode 0x00000000 = .ok .nop ∧ decode 0x00000001 = .ok .moveOutIn ∧
      decode 0x00000002 = .ok .moveSoutSin ∧ decode 0x00000003 = .ok .packBytes ∧
      decode 0x00000004 = .ok .unpackBytes ∧ decode 0x00000005 = .ok .reverseBytes ∧
      decode 0x0000000F = .ok .selftestLoopback := by decide +kernel

theorem test_decode_crc :
    decode 0x00000010 = .ok .crcInit ∧ decode 0x00000011 = .ok (.crcBit 0) ∧
      decode 0x00000111 = .ok (.crcBit 1) ∧ decode 0x00004112 = .ok (.crcByte 0x41) ∧
      decode 0x00000013 = .ok .crcBuf ∧ decode 0x00000014 = .ok .crcBufBytes ∧
      decode 0x00000015 = .ok .crcAppend ∧ decode 0x00000016 = .ok .crcCheck ∧
      decode 0x00000017 = .ok .crcSelftest := by decide +kernel

theorem test_decode_hdlc :
    decode 0x00000020 = .ok .stuffReset ∧ decode 0x00000121 = .ok (.stuffBit 1) ∧
      decode 0x00000022 = .ok (.destuffBit 0) ∧ decode 0x00000023 = .ok .stuffBuf ∧
      decode 0x00000024 = .ok .destuffBuf ∧ decode 0x00000025 = .ok .findFlag ∧
      decode 0x00010025 = .ok .findFlagFuzzy ∧ decode 0x00000026 = .ok .buildFrame ∧
      decode 0x00000027 = .ok .extractPayload ∧ decode 0x00000028 = .ok .deframe := by decide +kernel

theorem test_decode_nrzi :
    decode 0x00000030 = .ok .nrziReset ∧ decode 0x00000131 = .ok (.nrziEncBit 1) ∧
      decode 0x00000132 = .ok (.nrziDecBit 1) ∧ decode 0x00000033 = .ok .nrziEncBuf ∧
      decode 0x00000034 = .ok .nrziDecBuf := by decide +kernel

theorem test_decode_codec :
    decode 0x00000040 = .ok .encodePos ∧ decode 0x00000041 = .ok .decodePos ∧
      decode 0x00002842 = .ok (.six2ascii 40) ∧ decode 0x00006043 = .ok (.ascii2six 0x60) ∧
      decode 0x00000044 = .ok .armor ∧ decode 0x00000045 = .ok .dearmor := by decide +kernel

theorem test_decode_signal :
    decode 0x00000050 = .ok .modulate ∧ decode 0x00000051 = .ok .transmit ∧
      decode 0x00000060 = .ok .demodulate ∧ decode 0x00000061 = .ok .recoverClock ∧
      decode 0x00000062 = .ok .receive := by decide +kernel

/-- Vectors EN: an undefined opcode, RSV, IMM8 and F, each check in its place. -/
theorem test_decode_illegal :
    decode 0x00000006 = .error .badOpcode ∧ decode 0x00030106 = .error .badOpcode ∧
      decode 0x0002FF12 = .error .rsvNonzero ∧ decode 0x00000211 = .error .immNonzero ∧
      decode 0x00004042 = .error .immNonzero ∧ decode 0x00010023 = .error .fNonzero := by decide +kernel

theorem test_decodeTableWord : decodeTableWord 32 0x00010025 = some .findFlagFuzzy := by decide +kernel

/-! ### One step -/

/-- A command written to CMD runs (R26): CRC_BYTE 0x41 from reset (R99). -/
theorem test_step_runs_command :
    (next? (step (State.reset.withFetchWord 32 0x00004112))).map
      (fun t => (t.cmd, t.status, t.crcReg)) = some (0x00004112, 0x00010000, 0xB915) := by decide +kernel

/-- An illegal word is stored in CMD and reported (R76). -/
theorem test_step_illegal_word :
    (next? (step (State.reset.withFetchWord 32 0x00000006))).map (fun t => (t.cmd, t.status)) =
      some (0x00000006, 0x00010109) := by decide +kernel

theorem test_step_read_id :
    (next? (step (host (.read 0x00000 32) State.reset))).map (·.rdata) = some (some 0x41495331) :=
  by decide +kernel

theorem test_step_length_legalised :
    (next? (step (host (.write 0x00050 32 0xFFFFFFFF) State.reset))).map (·.inLen) = some 4096 :=
  by decide +kernel

theorem test_step_bus_error_width :
    fault? (step (host (.read 0x00000 16) State.reset)) = some (.busWidth 16) := by decide +kernel

theorem test_step_bus_error_unmapped :
    fault? (step (host (.write 0x04000 32 0) State.reset)) = some (.busUnmapped 0x04000) := by decide +kernel

/-- P6: the first characters of the canonical payload, the most significant byte first (R59). -/
theorem test_step_chr_window :
    (next? (step (host (.write 0x03000 32 0x31354D76) State.reset))).map (·.mem.chr) =
      some [(0, 0x31), (1, 0x35), (2, 0x4D), (3, 0x76)] := by decide +kernel

theorem test_step_unwritten_read :
    fault? (step (host (.read 0x50004 32) State.reset)) = some (.unwritten .disc 1) := by decide +kernel

/-! ### Commands: the examples of their rules -/

/-- R82. -/
theorem test_nop : after .nop (State.reset.setStatus 0x00010205) (·.status) = some 0x00010000 :=
  by decide +kernel

/-- R83, BV9. -/
theorem test_moveOutIn :
    after .moveOutIn (State.reset.putOut 0 (bits [1, 0, 1, 1, 0])) (fun t => (t.inLen, t.mem.inp)) =
      some (5, [(0, true), (1, false), (2, true), (3, true), (4, false)]) := by decide +kernel

/-- R63, R83: an unwritten source element is a model fault. -/
theorem test_moveOutIn_unwritten :
    fault? (exec .moveOutIn { State.reset with outLen := 1 }) = some (.unwritten .out 0) := by decide +kernel

/-- R84: word for word. -/
theorem test_moveSoutSin :
    after .moveSoutSin (State.reset.putSout [(0x3F800000, 0x80000000)]) (fun t => (t.sinLen, t.mem.sin)) =
      some (1, [(0, 0x3F800000), (1, 0x80000000)]) := by decide +kernel

/-- R85, BV1. -/
theorem test_packBytes :
    after .packBytes (inp [0, 1, 0, 0, 0, 0, 0, 1, 1, 0, 0, 0, 0, 0, 0, 0]) (fun t => (t.chrLen, t.mem.chr)) =
      some (2, [(0, 0x41), (1, 0x80)]) := by decide +kernel

/-- BV2. -/
theorem test_packBytes_seven_bits :
    after .packBytes (inp [0, 1, 0, 0, 0, 0, 0]) (·.status) = some 0x00010B01 := by decide +kernel

/-- R86, BV4. -/
theorem test_unpackBytes :
    outAfter .unpackBytes (State.reset.putChr [0x7E]) = holdsBits [0, 1, 1, 1, 1, 1, 1, 0] := by decide +kernel

/-- BV7. -/
theorem test_reverseBytes :
    outAfter .reverseBytes (inp [0, 1, 1, 1, 1, 1, 1, 0, 1, 1, 0, 0, 0, 0, 0, 0]) =
      holdsBits [0, 1, 1, 1, 1, 1, 1, 0, 0, 0, 0, 0, 0, 0, 1, 1] := by decide +kernel

/-- BV13. -/
theorem test_selftestLoopback : after .selftestLoopback hd1 (·.status) = some 0x00010000 := by decide +kernel

/-- BV16: at reset VS_MMSI is illegal. -/
theorem test_selftestLoopback_reset :
    after .selftestLoopback State.reset (·.status) = some 0x00010501 := by decide +kernel

/-- R97. -/
theorem test_crcInit : after .crcInit { State.reset with crcReg := 0x1234 } (·.crcReg) = some 0xFFFF :=
  by decide +kernel

/-- R98, CR2: a 0 shifts and feeds back. -/
theorem test_crcBit_zero : after (.crcBit 0) State.reset (·.crcReg) = some 0xEFDF := by decide +kernel

/-- R98: from 0x0000 a 1 gives the polynomial. -/
theorem test_crcBit_one : after (.crcBit 1) { State.reset with crcReg := 0 } (·.crcReg) = some 0x1021 :=
  by decide +kernel

/-- R99, CR5. -/
theorem test_crcByte : after (.crcByte 0x41) State.reset (·.crcReg) = some 0xB915 := by decide +kernel

/-- CR14. -/
theorem test_crcBuf : after .crcBuf (inp [1, 1, 1, 1, 1, 1, 1, 1]) (·.crcValue) = some 0xFF00 :=
  by decide +kernel

/-- R101. -/
theorem test_crcBufBytes : after .crcBufBytes (inp (List.replicate 16 0)) (·.crcValue) = some 0x1D0F :=
  by decide +kernel

/-- R102, CR19. -/
theorem test_crcAppend :
    outAfter .crcAppend (inp [1]) = holdsBits [1, 1, 1, 1, 1, 1, 1, 1, 1, 1, 1, 1, 1, 1, 1, 1, 0] :=
  by decide +kernel

/-- CR20. -/
theorem test_crcCheck :
    after .crcCheck (inp [1, 1, 1, 1, 1, 1, 1, 1, 1, 1, 1, 1, 1, 1, 1, 1, 0]) (fun t => (t.status, t.crcRx)) =
      some (0x00010000, 0xFFFE) := by decide +kernel

/-- CR21: the last bit flipped. -/
theorem test_crcCheck_mismatch :
    after .crcCheck (inp (List.replicate 17 1)) (·.status) = some 0x00010105 := by decide +kernel

/-- R104. -/
theorem test_crcSelftest : after .crcSelftest (inp [0, 1, 0, 0, 0, 0, 0, 1]) (·.crcValue) = some 0xB915 :=
  by decide +kernel

/-- R116. -/
theorem test_stuffReset :
    after .stuffReset { State.reset with stuffCnt := 3, destuffCnt := 5 } (fun t => (t.stuffCnt, t.destuffCnt)) =
      some (0, 0) := by decide +kernel

/-- R117: the fifth 1 is followed by a 0. -/
theorem test_stuffBit_fifth_one :
    after (.stuffBit 1) { State.reset with stuffCnt := 4 } (fun t => (t.mem.out, t.outLen, t.stuffCnt)) =
      some ([(0, true), (1, false)], 2, 0) := by decide +kernel

/-- R117: with room for one bit only, nothing is written. -/
theorem test_stuffBit_full :
    after (.stuffBit 1) { State.reset with stuffCnt := 4, outLen := 4095 } (fun t => (t.status, t.stuffCnt)) =
      some (0x00010108, 4) := by decide +kernel

/-- R118: the stuffed 0 is discarded. -/
theorem test_destuffBit_discards :
    after (.destuffBit 0) { State.reset with destuffCnt := 5 } (fun t => (t.outLen, t.destuffCnt)) =
      some (0, 0) := by decide +kernel

/-- R118, HS12: a violation leaves the counter at 5. -/
theorem test_destuffBit_violation :
    after (.destuffBit 1) { State.reset with destuffCnt := 5 } (fun t => (t.status, t.destuffCnt)) =
      some (0x00010205, 5) := by decide +kernel

/-- HS1. -/
theorem test_stuffBuf : outAfter .stuffBuf (inp [0, 1, 1, 1, 1, 1, 1]) = holdsBits [0, 1, 1, 1, 1, 1, 0, 1] :=
  by decide +kernel

/-- HS5. -/
theorem test_destuffBuf :
    outAfter .destuffBuf (inp [0, 1, 1, 1, 1, 1, 0, 1]) = holdsBits [0, 1, 1, 1, 1, 1, 1] := by decide +kernel

/-- HS6. -/
theorem test_destuffBuf_violation :
    after .destuffBuf (inp [1, 1, 1, 1, 1, 1, 0]) (·.status) = some 0x00010205 := by decide +kernel

/-- FF1. -/
theorem test_findFlag : after .findFlag (inp [0, 0, 0, 1, 1, 1, 1, 1, 1, 0]) (·.flagPos) = some 2 :=
  by decide +kernel

/-- FF2: NotFound. -/
theorem test_findFlag_none :
    after .findFlag (inp [0, 0, 1, 1, 1, 1, 1, 1, 1, 1]) (fun t => (t.flagPos, t.status)) =
      some (0xFFFFFFFF, 0x00010403) := by decide +kernel

/-- FF3. -/
theorem test_findFlagFuzzy :
    after .findFlagFuzzy (inp [0, 0, 1, 1, 1, 1, 1, 1, 1, 1]) (fun t => (t.flagPos, t.status)) =
      some (0, 0x00010000) := by decide +kernel

/-- HD1b: the frame of the empty message; its body is `nrzi_enc(stuff(1^16))`. -/
theorem test_buildFrame_empty :
    after .buildFrame State.reset (fun t => (t.status, t.outLen, (snapshot t.mem.out 67).drop 32 |>.take 19)) =
      some (0x00010000, 67,
        (bits [1, 1, 1, 1, 1, 0, 0, 0, 0, 0, 0, 1, 1, 1, 1, 1, 1, 0, 0]).map some) := by decide +kernel

/-- HD1. -/
theorem test_frameBits : frameBits Cfg.reset hd1Message = hd1Frame := by decide +kernel

/-- HD3: 207 bits are below the minimum, and none is read. -/
theorem test_extractPayload_short :
    after .extractPayload { State.reset with inLen := 207 } (·.status) = some 0x00010102 := by decide +kernel

/-- HD2a. -/
theorem test_locate :
    (locate Cfg.reset (hd1Frame.map some)).toOption.map (fun l => (l.p, l.q, l.e)) = some (0, 32, 218) := by
  decide +kernel

/-- HD27. -/
theorem test_deframe_span :
    after .deframe { State.reset with cfg := { Cfg.reset with trainSpan := 0 } } (·.status) =
      some 0x00010E01 := by decide +kernel

/-- HD2 and HD8: the message of the frame, alone and behind seven other bits. -/
theorem test_deframeFn :
    (deframeFn Cfg.reset (hd1Frame.map some)).toOption.map (fun d => (d.msg, d.crc, d.rx)) =
        some (hd1Message, 0x976C, 0x976C) ∧
      (deframeFn Cfg.reset ((bits [0, 1, 1, 0, 0, 1, 1] ++ hd1Frame).map some)).toOption.map
        (fun d => (d.p, d.q, d.e)) = some (7, 39, 225) := by decide +kernel

/-- HD10 to HD17: a flipped bit of the body spoils the CRC; three flipped bits of the start flag spoil it. -/
theorem test_deframeFn_errors :
    deframeFn Cfg.reset ((hd1Frame.set 32 (!hd1Frame.getD 32 false)).map some) = raise .crcMismatch ∧
      deframeFn Cfg.reset ((((hd1Frame.set 25 false).set 26 false).set 27 false).map some) =
        raise .startFlag := by decide +kernel

/-- R129. -/
theorem test_nrziReset :
    after .nrziReset { State.reset with cfg := { Cfg.reset with config := 0x0C } }
      (fun t => (t.nrziEncLevel, t.nrziDecPrev)) = some (false, false) := by decide +kernel

/-- R130. -/
theorem test_nrziEncBit :
    after (.nrziEncBit 0) State.reset (fun t => (t.mem.out, t.nrziEncLevel)) = some ([(0, false)], false) :=
  by decide +kernel

/-- R131. -/
theorem test_nrziDecBit :
    after (.nrziDecBit 0) { State.reset with nrziDecPrev := false } (fun t => (t.mem.out, t.nrziDecPrev)) =
      some ([(0, true)], false) := by decide +kernel

/-- R132. -/
theorem test_nrziEncBuf :
    outAfter .nrziEncBuf (inp [0, 1, 1, 1, 1, 1, 1, 0]) = holdsBits [0, 0, 0, 0, 0, 0, 0, 1] :=
  by decide +kernel

/-- R133. -/
theorem test_nrziDecBuf :
    outAfter .nrziDecBuf (inp [0, 0, 0, 0, 0, 0, 0, 1]) = holdsBits [0, 1, 1, 1, 1, 1, 1, 0] :=
  by decide +kernel

/-- AI3, R140. -/
theorem test_posEncode : posEncode hd1.vs = .ok hd1Message := by decide +kernel

/-- R140: a navigation status of 16. -/
theorem test_encodePos_nav :
    after .encodePos { hd1 with vs := { hd1.vs with nav := 16 } } (·.status) = some 0x00010601 := by
  decide +kernel

/-- R141: 167 bits are too short. -/
theorem test_decodePos_short :
    after .decodePos { State.reset with inLen := 167 } (·.status) = some 0x00010402 := by decide +kernel

/-- R141 on the canonical payload's bits, given as the window words of S8. -/
theorem test_posFields :
    (fun f : PosFields => [(f.type : Int), f.mmsi, f.lon, f.lat, f.cog, f.hdg, f.ts, f.radio])
      (posFields (ubits 32 0x04577ED2 ++ ubits 32 0xE8000005 ++ ubits 32 0xCFD9041B ++
        ubits 32 0x39F9E810 ++ ubits 32 0xFF9E00C0 ++ ubits 8 0x0D)) =
      [1, 366982330, -73420280, 28549022, 2064, 511, 15, 49165] := by decide +kernel

/-- R142. -/
theorem test_six2ascii : after (.six2ascii 40) State.reset (·.result) = some 0x60 := by decide +kernel

/-- R143. -/
theorem test_ascii2six : after (.ascii2six 0x60) State.reset (·.result) = some 40 := by decide +kernel

theorem test_ascii2six_invalid : after (.ascii2six 0x58) State.reset (·.status) = some 0x00010C01 :=
  by decide +kernel

/-- R144, AI27. -/
theorem test_armor :
    after .armor (inp [1, 0, 1, 1, 0, 1, 1]) (fun t => (t.mem.chr, t.chrLen, t.fillBits)) =
      some ([(0, 0x65), (1, 0x50)], 2, 5) := by decide +kernel

/-- AI28. -/
theorem test_dearmor :
    outAfter .dearmor { State.reset.putChr [0x65, 0x50] with fillBits := 5 } = holdsBits [1, 0, 1, 1, 0, 1, 1] :=
  by decide +kernel

/-- AI32. -/
theorem test_dearmor_invalid :
    after .dearmor (State.reset.putChr [0x30, 0x58]) (·.status) = some 0x00010C01 := by decide +kernel

/-- GM1: five samples of one bit in the FSK profile. -/
theorem test_modulate :
    after .modulate { inp [0] with cfg := { Cfg.reset with config := 0x0F } }
      (fun t => (t.status, t.soutLen, t.mem.sout.length)) = some (0x00010000, 5, 10) := by decide +kernel

/-- GM6: GAUSS_SPAN = 5. -/
theorem test_modulate_span :
    after .modulate { inp [0] with cfg := { Cfg.reset with gaussSpan := 5 } } (·.status) = some 0x00010301 :=
  by decide +kernel

/-- GM4: the HD1 frame of 234 bits fills the 1170 samples of a build that has no more. -/
theorem test_transmit_capacity :
    after .transmit { hd1 with caps := { Caps.build with smp := 1169 } } (·.status) = some 0x00010308 := by
  decide +kernel

/-- GM4. -/
theorem test_transmit :
    after .transmit hd1 (fun t => (t.status, t.outLen, t.soutLen)) = some (0x00010000, 234, 1170) := by
  decide +kernel

/-- DM15: a constant input under DC removal. -/
theorem test_demodulate_constant :
    after .demodulate (State.reset.putSin (List.replicate 2 (0x3F800000, 0))) (fun t => (t.discLen, t.mem.disc)) =
      some (2, [(0, 0), (1, 0)]) := by decide +kernel

/-- R157: a NaN among the samples. -/
theorem test_demodulate_nan :
    after .demodulate (State.reset.putSin [(0, 0x7FC00000)]) (·.status) = some 0x00010F01 := by decide +kernel

/-- One symbol per sample, and one candidate lag. -/
def oneLag : Cfg := { Cfg.reset with sampleRate := 9600, acqWindow := 1 }

/-- The levels `2·b − 1` of bits as binary32 words. -/
def levels (x : Bits) : List Word := x.map fun b => if b then 0x3F800000 else 0xBF800000

/-- R163 at S = 1 on the exact levels of the preamble: the baseline is 0 and the score 1. -/
theorem test_recoverClock :
    after .recoverClock { State.reset.putDisc (levels (trainBits ++ flagBits)) with cfg := oneLag }
      (fun t => (t.outLen, t.acq)) =
      some (32, { lag := 0, score := 0x00010000, offset := 0, polarity := false }) := by decide +kernel

/-- R166: 32·S − 1 words are too few. -/
theorem test_recoverClock_short :
    after .recoverClock { State.reset.putDisc (List.replicate 31 0) with cfg := oneLag } (·.status) =
      some 0x00010204 := by decide +kernel

/-- R167: a short input reports what clock recovery reports. -/
theorem test_receive_short : after .receive State.reset (·.status) = some 0x00010204 := by decide +kernel

/-- DM18, shortened: silence has no peak, and nothing is written. -/
theorem test_receive_silence :
    after .receive { State.reset.putSin (List.replicate 32 (0, 0)) with cfg := oneLag }
      (fun t => (t.status, t.discLen)) = some (0x00010104, 0) := by decide +kernel

/-! ### Exact values of binary32 words (R16) -/

/-- R166's example: `rne32(1/120)`. -/
theorem test_rne32 : rne32 (1 / 120) = 0x3C088889 := by decide +kernel

theorem test_val32 : val32 0x3F800000 = 1 ∧ val32 0xC0490000 = -201 / 64 := by decide +kernel

/-! ### Witnesses: cases that meet the hypotheses of the statements, clause by clause -/

/-- A bit sequence that IN, OUT or a message may hold. -/
def sample8 : Bits := [false, true, true, true, true, true, true, false]

/-- A frame's worth of exact discriminator levels at one sample a symbol, and the state that holds them. -/
def frameLevels : List Word := levels hd1Frame

/-- Reset with one sample a symbol and one candidate lag, and SIN holding zs. -/
def receiving (zs : List Sample) : State := { State.reset.putSin zs with cfg := oneLag }

theorem witness_DecodeOfEncodeIsTheInstruction : (Instr.six2ascii 0x3F).wf = true := by decide +kernel

theorem witness_LegalWordsAreTheTableRows : decode 0x00000111 = .ok (.crcBit 1) := by decide +kernel

theorem witness_EveryCommandWordHasOneOutcome :
    (∀ w : Word, (State.reset.queueCommand w).port = .write 0x00010 32 w :: []) ∧
      (0x00020006 : Word).extractLsb' 0 8 ∉ definedOpcodes ∧
      ((0x00020211 : Word).extractLsb' 0 8 ∈ definedOpcodes ∧ (0x00020211 : Word).extractLsb' 17 15 ≠ 0) ∧
      ((0x00014042 : Word).extractLsb' 0 8 ∈ definedOpcodes ∧ (0x00014042 : Word).extractLsb' 17 15 = 0 ∧
        (0x00014042 : Word).extractLsb' 8 8 &&& immZero 0x42 ≠ 0) ∧
      ((0x00010123 : Word).extractLsb' 0 8 ∈ definedOpcodes ∧ (0x00010023 : Word).extractLsb' 17 15 = 0 ∧
        (0x00010023 : Word).extractLsb' 8 8 &&& immZero 0x23 = 0 ∧ (0x00010023 : Word).getLsbD 16 = true) ∧
      ((0x00010025 : Word).extractLsb' 0 8 = 0x25 ∧ (0x25 : Byte) ∈ definedOpcodes ∧
        (0x00010025 : Word).extractLsb' 17 15 = 0 ∧ (0x00010025 : Word).extractLsb' 8 8 &&& immZero 0x25 = 0) :=
  ⟨fun _ => rfl, by decide +kernel⟩

theorem witness_CommandWriteRunsTheDecodedCommand :
    (State.reset.queueCommand 0x00000028).port = .write 0x00010 32 0x00000028 :: [] ∧
      decode 0x00000028 = .ok .deframe ∧ State.reset.port = [] := by decide +kernel

theorem witness_ResetValues :
    perform .reset hd1 = .next (platformReset hd1) ∧ (0x010, 0) ∈ resetTable Caps.build ∧
      0x04C ∉ (resetTable Caps.build).map Prod.fst := ⟨rfl, by decide +kernel, by decide +kernel⟩

theorem reset_inv : State.reset.Inv :=
  ⟨by decide +kernel, reset_mem_wf, by decide +kernel, by decide +kernel, by decide +kernel, by decide +kernel⟩

theorem witness_EveryStepKeepsTheInvariant : State.reset.Inv ∧ step State.reset = .next State.reset :=
  ⟨reset_inv, rfl⟩

theorem witness_BusErrorsAndUnlistedOffsets :
    (0x00002 : BitVec 19).toNat % 4 ≠ 0 ∧ ¬ Mapped Caps.build (0x04000 : BitVec 19).toNat ∧
      ¬ Mapped Caps.build (0x01200 : BitVec 19).toNat ∧ (0x0004C : BitVec 19).toNat % 4 = 0 ∧
      (0x0004C : BitVec 19).toNat < 0x1000 ∧
      (0x0004C : BitVec 19).toNat ∉ (resetTable Caps.build).map Prod.fst := by decide +kernel

theorem witness_HostReadsArePureAndIdempotent :
    perform (.read 0x00070 32) State.reset = .next { State.reset with rdata := some 0x0000FFFF } ∧
      (0x138, 1) ∈ registerFields { State.reset with rx := { State.reset.rx with raim := 1 } } := ⟨rfl, by decide +kernel⟩

theorem witness_UnwrittenWindowReadsFault :
    Caps.legal State.reset.caps ∧ 32 * 127 + 32 ≤ State.reset.caps.bits.toNat ∧
      4 * 255 + 4 ≤ State.reset.caps.chr.toNat ∧ 16383 < State.reset.caps.smp.toNat ∧
      bufGet State.reset.mem.inp (32 * 127 + 31) = none ∧ bufGet State.reset.mem.out (32 * 127 + 31) = none ∧
      bufGet State.reset.mem.chr (4 * 255 + 3) = none ∧ sampleGet State.reset.mem.sin 16383 = none ∧
      sampleGet State.reset.mem.sout 16383 = none ∧ bufGet State.reset.mem.disc 16383 = none := by
  decide +kernel

theorem witness_RegisterWritesStoreLegalisedValues :
    storedAs Caps.build 0x018 0xFFFFFFFF = some 0x1F ∧ storedAs Caps.build 0x050 0xFFFFFFFF = some 4096 ∧
      storedAs Caps.build 0x0DC 0xFFFFFFFF = some 0xFFFFFFFF ∧ storedAs Caps.build 0x014 1 = none ∧
      storedAs Caps.build 0xFFC 1 = none ∧
      ReadsAs State.reset 0x020 48000 := ⟨by decide +kernel, by decide +kernel, by decide +kernel,
        by decide +kernel, by decide +kernel, rfl⟩

theorem witness_BitAndCharWindowWrites :
    Caps.legal State.reset.caps ∧ 32 * 127 + 32 ≤ State.reset.caps.bits.toNat ∧
      4 * 255 + 4 ≤ State.reset.caps.chr.toNat ∧
      (∀ j, j < 32 → bufGet (bufPut [] (32 * 127) (List.replicate 32 true)) (32 * 127 + j) =
        some ((0xFFFFFFFF : Word).getLsbD (31 - j))) ∧
      ∀ j, j < 4 → bufGet (bufPut [] (4 * 255) [0x41, 0x49, 0x53, 0x31]) (4 * 255 + j) =
        some ((0x41495331 : Word).extractLsb' (24 - 8 * j) 8) := by decide +kernel

theorem witness_SampleWindowWrites :
    16383 < State.reset.caps.smp.toNat ∧ Caps.legal State.reset.caps ∧
      bufGet State.reset.mem.sin (2 * 16383 + 1) = none ∧ bufGet State.reset.mem.sout (2 * 16383 + 1) = none := by
  decide +kernel

theorem witness_CommandsWriteOnlyWhatTheirRulesList :
    exec .crcInit State.reset = .next { State.reset with status := 0x00010000 } ∧
      Target.out ∉ writeSet .crcInit := ⟨rfl, by decide +kernel⟩

theorem witness_StepRegistersChangeOnlyInTheirUnit :
    step (State.reset.queueCommand 0x00000111) = .next { State.reset with
      cmd := 0x00000111, status := 0x00010000, crcReg := 0xFFFE, tick := 1 } ∧
    (step { (State.reset.queueCommand 0x00000020) with stuffCnt := 1, destuffCnt := 1 } = .next { State.reset with
      cmd := 0x00000020, status := 0x00010000, tick := 1 }) ∧
    (step { (State.reset.queueCommand 0x00000030) with nrziEncLevel := false, nrziDecPrev := false } =
      .next { State.reset with cmd := 0x00000030, status := 0x00010000, tick := 1 }) :=
  ⟨rfl, rfl, rfl⟩

theorem witness_ErrorsCommitOnlyStatus :
    exec .findFlag State.reset = .next { State.reset with status := 0x00010403, flagPos := 0xFFFFFFFF } ∧
      exec .encodePos State.reset = .next { State.reset with status := 0x00010501 } := ⟨rfl, rfl⟩

theorem witness_StatusReportsOneListedOutcome :
    exec .nop State.reset = .next { State.reset with status := 0x00010000 } := rfl

theorem witness_CommandsDoNotReadStatus :
    step (host (.write 0x00018 32 0x0C) (State.reset.setStatus 0x00010205)) =
      .next { State.reset with status := 0x00010205, cfg := { Cfg.reset with config := 0x0C } } ∧
    (State.reset.setStatus 0x00010205).statusDone = true := ⟨rfl, by decide +kernel⟩

theorem witness_EveryCommandEnds : State.reset.loaded := by
  refine ⟨?_, ?_, ?_, ?_, ?_, ?_⟩ <;> exact fun k h => absurd h (Nat.not_lt_zero k)

theorem witness_MovesCopyTheOutputBuffer :
    OutputBits (State.reset.putOut 0 sample8) sample8 ∧
      ((0 : Nat) < ({ State.reset with outLen := 1 } : State).outLen.toNat ∧ bufGet State.reset.mem.out 0 = none) ∧
      OutputSamples (State.reset.putSout [(1, 2)]) [(1, 2)] ∧
      ((0 : Nat) < ({ State.reset with soutLen := 1 } : State).soutLen.toNat ∧
        sampleGet State.reset.mem.sout 0 = none) := by decide +kernel

theorem witness_PackAndUnpackBytes :
    (InputBits (State.reset.putIn sample8) sample8 ∧ sample8.length % 8 = 0 ∧
      sample8.length / 8 ≤ (State.reset.putIn sample8).caps.chr.toNat) ∧
    ({ State.reset with inLen := 7 } : State).inLen.toNat % 8 ≠ 0 ∧
    (({ State.reset with inLen := 1024, caps := { Caps.build with chr := 64 } } : State).inLen.toNat % 8 = 0 ∧
      ({ State.reset with inLen := 1024, caps := { Caps.build with chr := 64 } } : State).caps.chr.toNat <
        1024 / 8) ∧
    (InputChars (State.reset.putChr [0x41, 0x80]) [0x41, 0x80] ∧
      8 * 2 ≤ (State.reset.putChr [0x41, 0x80]).caps.bits.toNat) ∧
    ({ State.reset with chrLen := 1024 } : State).caps.bits.toNat < 8 * 1024 := by decide +kernel

theorem witness_ReverseBytesReversesEachGroup :
    (InputBits (State.reset.putIn sample8) sample8 ∧ sample8.length % 8 = 0) ∧
      ({ State.reset with inLen := 12 } : State).inLen.toNat % 8 ≠ 0 := by decide +kernel

theorem witness_LoopbackSelftestSucceeds :
    (hd1.vs.legal ∧ hd1.cfg.searchLegal) ∧
      (hd1.vs.legal ∧ ¬ ({ Cfg.reset with trainMinAgree := 25 } : Cfg).searchLegal) ∧ ¬ State.reset.vs.legal ∧
      FailsWith .encodePos State.reset 0x00010501 := ⟨by decide +kernel, by decide +kernel, by decide +kernel, rfl⟩

theorem witness_CrcBufferCommands :
    InputBits (State.reset.putIn sample8) sample8 ∧ sample8.length % 8 = 0 ∧
      ({ State.reset with inLen := 1 } : State).inLen.toNat % 8 ≠ 0 := by decide +kernel

theorem witness_CrcAppendWritesMessageAndCrc :
    (InputBits (State.reset.putIn sample8) sample8 ∧
      sample8.length + 16 ≤ (State.reset.putIn sample8).caps.bits.toNat) ∧
      ({ State.reset with inLen := 4081 } : State).caps.bits.toNat <
        ({ State.reset with inLen := 4081 } : State).inLen.toNat + 16 := by decide +kernel

theorem witness_CrcCheckComparesTheField :
    (InputBits (inp [1, 1, 1, 1, 1, 1, 1, 1, 1, 1, 1, 1, 1, 1, 1, 1, 0])
        ([true] ++ (List.range 16).map (fun j => (0xFFFE : BitVec 16).getLsbD (15 - j))) ∧
      [true].foldl crcStep 0xFFFF ^^^ State.reset.cfg.crcXorout = 0xFFFE) ∧
    (InputBits (inp (List.replicate 17 1))
        ([true] ++ (List.range 16).map (fun j => (0xFFFF : BitVec 16).getLsbD (15 - j))) ∧
      [true].foldl crcStep 0xFFFF ^^^ State.reset.cfg.crcXorout ≠ 0xFFFF) ∧
    ({ State.reset with inLen := 15 } : State).inLen.toNat < 16 := by decide +kernel

theorem witness_EveryBitFlipChangesTheCrc : 7 < sample8.length := by decide +kernel

theorem witness_StuffAndDestuffOneBit :
    ((0x01 : Byte).getLsbD 0 = true ∧ (0x00 : Byte).getLsbD 0 = false ∧
      ({ State.reset with stuffCnt := 4 } : State).stuffCnt = 4 ∧ State.reset.stuffCnt ≠ 4) ∧
    (State.reset.outLen.toNat + 2 ≤ State.reset.caps.bits.toNat ∧
      ({ State.reset with outLen := 4095 } : State).caps.bits.toNat <
        ({ State.reset with outLen := 4095 } : State).outLen.toNat + 2) ∧
    ({ State.reset with destuffCnt := 5 } : State).destuffCnt = 5 ∧ State.reset.destuffCnt ≠ 5 ∧
    ({ State.reset with outLen := 4096 } : State).caps.bits.toNat <
      ({ State.reset with outLen := 4096 } : State).outLen.toNat + 1 := by decide +kernel

theorem witness_StuffAndDestuffBuffers :
    (InputBits (State.reset.putIn sample8) sample8 ∧
      (stuff sample8).length ≤ (State.reset.putIn sample8).caps.bits.toNat) ∧
    (InputBits { State.reset.putIn sample8 with caps := { Caps.build with bits := 8 } } sample8 ∧
      8 < (stuff sample8).length) ∧
    (destuff [true, true, true, true, true, false] = .ok [true, true, true, true, true]) ∧
    destuff (List.replicate 6 true) = raise .destuffViolation := by decide +kernel

theorem witness_DestuffFailsExactlyOnSixOnes :
    slice sample8 1 7 = List.replicate 6 true ∧ destuff [true, false] = .ok [true, false] := by decide +kernel

/-- The hits of the examples of R121: index 2 exactly, index 0 with 6 agreements, and no exact hit at all. -/
theorem witness_FlagSearch :
    (InputBits (inp [0, 0, 0, 1, 1, 1, 1, 1, 1, 0]) (bits [0, 0, 0, 1, 1, 1, 1, 1, 1, 0]) ∧
      8 ≤ agree (slice (bits [0, 0, 0, 1, 1, 1, 1, 1, 1, 0]) 2 10) sample8 ∧
      ∀ m, m < 2 → ¬ 8 ≤ agree (slice (bits [0, 0, 0, 1, 1, 1, 1, 1, 1, 0]) m (m + 8)) sample8) ∧
    (InputBits (inp [0, 0, 1, 1, 1, 1, 1, 1, 1, 1]) (bits [0, 0, 1, 1, 1, 1, 1, 1, 1, 1]) ∧
      State.reset.cfg.flagMinAgree.toNat = 6 ∧
      6 ≤ agree (slice (bits [0, 0, 1, 1, 1, 1, 1, 1, 1, 1]) 0 8) sample8 ∧
      ∀ n, n < 3 → ¬ 8 ≤ agree (slice (bits [0, 0, 1, 1, 1, 1, 1, 1, 1, 1]) n (n + 8)) sample8) ∧
    8 < ({ Cfg.reset with flagMinAgree := 9 } : Cfg).flagMinAgree.toNat := by decide +kernel

theorem witness_BuildFrameAssemblesTheFrame :
    InputBits (State.reset.putIn sample8) sample8 ∧
      (frameBits Cfg.reset sample8).length ≤ State.reset.caps.bits.toNat ∧
      (({ State.reset.putIn sample8 with caps := { Caps.build with bits := 64 } } : State).caps.bits.toNat <
        (frameBits Cfg.reset sample8).length) := by decide +kernel

/-- A short input, one without training bits, one whose start flag is gone, and a frame. -/
theorem witness_LocateFindsTheBestFrame :
    Cfg.reset.searchLegal ∧ (List.replicate 100 false).length < 208 ∧
    (208 ≤ (List.replicate 208 false).length ∧ ∀ t, t < 40 →
      ¬ Cfg.reset.trainMinAgree.toNat ≤ agree (slice (List.replicate 208 false) t (t + 24)) trainBits) ∧
    (∀ B, B = trainBits ++ List.replicate 184 false → 208 ≤ B.length ∧
      Cfg.reset.trainMinAgree.toNat ≤ agree (slice B 0 24) trainBits ∧
      ∀ t, t < 40 → ¬ (Cfg.reset.trainMinAgree.toNat ≤ agree (slice B t (t + 24)) trainBits ∧
        Cfg.reset.flagMinAgree.toNat ≤ agree (slice B (t + 24) (t + 32)) flagBits)) ∧
    ∃ l, locate Cfg.reset (hd1Frame.map some) = .ok l := by
  refine ⟨by decide +kernel, by decide +kernel, by decide +kernel, ?_, ?_⟩
  · rintro B rfl; decide +kernel
  · have h : (locate Cfg.reset (hd1Frame.map some)).toOption.isSome = true := by decide +kernel
    revert h
    cases locate Cfg.reset (hd1Frame.map some) <;> simp [Except.toOption]

/-- p is the first of the best candidates of B under the reset registers. -/
abbrev bestAt (B : Bits) (p : Nat) : Prop :=
  let good := fun t => t + 32 ≤ B.length ∧ 21 ≤ agree (slice B t (t + 24)) trainBits ∧
    6 ≤ agree (slice B (t + 24) (t + 32)) flagBits
  let score := fun t => agree (slice B t (t + 32)) (trainBits ++ flagBits)
  p < 40 ∧ good p ∧ ∀ t, t < 40 → good t → score t < score p ∨ (score t = score p ∧ p ≤ t)

/-- The HD1 frame cut in its payload, a line that holds its level, and the HD1 frame cut in its end flag, with
another end flag, and whole: the later outcomes of R114. -/
theorem witness_LocateReachesTheEnd :
    let pay := withCrc 0 hd1Message
    let coded := fun B : Bits => nrziDec true (B.drop 32)
    let held := trainBits ++ flagBits ++ List.replicate 176 true
    (bestAt (hd1Frame.take 210) 0 ∧ pay.length = 184 ∧ (stuff pay).drop 178 ≠ [] ∧
      stuff pay = coded (hd1Frame.take 210) ++ (stuff pay).drop 178) ∧
    (208 ≤ held.length ∧ bestAt held 0 ∧ destuff ((coded held).take 5) = .ok (List.replicate 5 true) ∧
      destuff ((coded held).take 6) = raise .destuffViolation) ∧
    (nrziDec true (slice hd1Frame 32 218) = stuff pay ∧ bestAt (hd1Frame.take 218) 0 ∧ bestAt hd1Frame 0 ∧
      bestAt (hd1Frame.take 218 ++ List.replicate 8 false) 0 ∧ agree (List.replicate 8 false) flagBits < 6 ∧
      6 ≤ agree (slice hd1Frame 218 226) flagBits) := by
  refine ⟨⟨?_, ?_, ?_, ?_⟩, ⟨?_, ?_, ?_, ?_⟩, ?_, ?_, ?_, ?_, ?_, ?_⟩ <;> decide +kernel

theorem witness_DeframeInvertsFrame : hd1Message.length = 168 ∧ Cfg.reset.searchLegal := by decide +kernel

theorem witness_ExtractPayloadAndDeframe :
    ¬ ({ Cfg.reset with trainSpan := 0 } : Cfg).searchLegal ∧
    (InputBits (State.reset.putIn hd1Frame) hd1Frame ∧ (State.reset.putIn hd1Frame).cfg.searchLegal) ∧
    (∃ l, locate Cfg.reset (hd1Frame.map some) = .ok l) ∧
    (∃ d, deframeFn Cfg.reset (hd1Frame.map some) = .ok d) ∧
    locate Cfg.reset (sample8.map some) = raise .belowMinimum ∧
    deframeFn Cfg.reset (sample8.map some) = raise .belowMinimum := by
  refine ⟨by decide +kernel, ⟨inputBits_putIn _ _ (by decide +kernel), by decide +kernel⟩,
    witness_LocateFindsTheBestFrame.2.2.2.2, ?_, by decide +kernel, by decide +kernel⟩
  have h : (deframeFn Cfg.reset (hd1Frame.map some)).toOption.isSome = true := by decide +kernel
  revert h
  cases deframeFn Cfg.reset (hd1Frame.map some) <;> simp [Except.toOption]

theorem witness_NrziCommands :
    State.reset.outLen.toNat + 1 ≤ State.reset.caps.bits.toNat ∧
      ({ State.reset with outLen := 4096 } : State).caps.bits.toNat <
        ({ State.reset with outLen := 4096 } : State).outLen.toNat + 1 ∧
      InputBits (State.reset.putIn sample8) sample8 := by decide +kernel

/-- A legal vessel, and one vessel for each failing check. -/
theorem witness_EncodePosPacksTheReport :
    hd1.vs.legal ∧ State.reset.vs.mmsi.toNat < 100000000 ∧ 15 < ({ hd1.vs with nav := 16 } : Vessel).nav.toNat ∧
      108000000 < ({ hd1.vs with lon := 108000001 } : Vessel).lon.toInt ∧
      ({ hd1.vs with lat := 0xFCC8067F } : Vessel).lat.toInt < -54000000 ∧
      3600 < ({ hd1.vs with cog := 3601 } : Vessel).cog.toNat ∧
      ¬ (({ hd1.vs with hdg := 360 } : Vessel).hdg.toNat ≤ 359 ∨
        ({ hd1.vs with hdg := 360 } : Vessel).hdg.toNat = 511) := by decide +kernel

theorem witness_DecodePosExtractsTheFields :
    (InputBits (State.reset.putIn hd1Message) hd1Message ∧ 168 ≤ hd1Message.length ∧
      uval (slice hd1Message 0 6) = 1) ∧
    (InputBits (State.reset.putIn (List.replicate 168 false)) (List.replicate 168 false) ∧
      uval (slice (List.replicate 168 false) 0 6) = 0) ∧
    State.reset.inLen.toNat < 168 :=
  ⟨⟨inputBits_putIn _ _ (by decide +kernel), by decide +kernel, by decide +kernel⟩,
    ⟨inputBits_putIn _ _ (by decide +kernel), by decide +kernel⟩, by decide +kernel⟩

theorem witness_SixBitMappingCommands :
    (48 ≤ (0x57 : Byte).toNat ∧ (0x57 : Byte).toNat ≤ 87) ∧ (96 ≤ (0x60 : Byte).toNat ∧ (0x60 : Byte).toNat ≤ 119) ∧
      (87 < (0x58 : Byte).toNat ∧ (0x58 : Byte).toNat < 96) ∧ (0x2F : Byte).toNat < 48 ∧
      119 < (0x78 : Byte).toNat := by decide +kernel

theorem witness_ArmorWritesTheText :
    InputBits (State.reset.putIn sample8) sample8 ∧
      (sample8 ++ List.replicate 4 false).length / 6 ≤ (State.reset.putIn sample8).caps.chr.toNat ∧
      ({ State.reset.putIn sample8 with caps := { Caps.build with chr := 1 } } : State).caps.chr.toNat <
        (sample8 ++ List.replicate 4 false).length / 6 := by decide +kernel

theorem witness_DearmorWritesTheBits :
    5 < ({ State.reset with fillBits := 6 } : State).fillBits.toNat ∧
    (State.reset.chrLen.toNat = 0 ∧ 0 < ({ State.reset with fillBits := 1 } : State).fillBits.toNat) ∧
    (InputChars (State.reset.putChr [0x65, 0x50]) [0x65, 0x50] ∧ State.reset.fillBits.toNat ≤ 5 ∧
      ([0x65, 0x50] : List Byte).map ascii2six = [45, 32].map some ∧
      6 * 2 - State.reset.fillBits.toNat ≤ State.reset.caps.bits.toNat) ∧
    (InputChars (State.reset.putChr [0x30, 0x58]) [0x30, 0x58] ∧ ascii2six 0x58 = none) ∧
    (InputChars { State.reset.putChr [0x65, 0x50] with caps := { Caps.build with bits := 11 } } [0x65, 0x50] ∧
      11 < 6 * 2 - State.reset.fillBits.toNat) := by decide +kernel

theorem witness_PosFieldsInvertPosEncode :
    ({ mmsi := 999999999, nav := 15, sog := 0xFFFFFFFF, lon := 0xF9900D00, lat := 54000000, cog := 3600, hdg := 511,
       ts := 60 } : Vessel).legal := by decide +kernel

theorem witness_DearmorInvertsArmor :
    ascii2six 0x77 = some 63 ∧ ([0x65, 0x50] : List Byte).map ascii2six = [45, 32].map some ∧
      (sixBits [45, 32]).drop (6 * 2 - 5) = List.replicate 5 false := by decide +kernel

/-- A state for each clause: no whole ratio, each filter register out of range, a zero deviation, too many
samples, and a run in either profile. -/
theorem witness_ModulateWritesTheBaseband :
    (∀ S, ¬ ({ Cfg.reset with sampleRate := 48001 } : Cfg).hasSps S) ∧
    (Cfg.reset.hasSps 5 ∧ Cfg.reset.gmsk = true ∧ ({ Cfg.reset with btX100 := 0 } : Cfg).btX100.toNat < 1 ∧
      ({ Cfg.reset with gaussSpan := 5 } : Cfg).gaussSpan.toNat = 5 ∧
      ({ Cfg.reset with config := 0x0F, fskDevHz := 0 } : Cfg).gmsk = false) ∧
    (Cfg.reset.modLegal ∧ ({ State.reset with inLen := 3277 } : State).caps.smp.toNat <
      ({ State.reset with inLen := 3277 } : State).inLen.toNat * 5) ∧
    (InputBits (State.reset.putIn sample8) sample8 ∧ sample8.length * 5 ≤ State.reset.caps.smp.toNat) ∧
    (({ Cfg.reset with config := 0x0F } : Cfg).modLegal ∧ ({ Cfg.reset with config := 0x0F } : Cfg).hasSps 5) := by
  refine ⟨?_, by decide +kernel, by decide +kernel, by decide +kernel, by decide +kernel⟩
  rintro S ⟨-, h, -⟩
  have h1 : ({ Cfg.reset with sampleRate := 48001 } : Cfg).sampleRate.toNat = 48001 := by decide +kernel
  have h2 : ({ Cfg.reset with sampleRate := 48001 } : Cfg).symbolRate.toNat = 9600 := by decide +kernel
  rw [h1, h2] at h
  omega

/-- The configurations of `witness_ModulateWritesTheBaseband` serve the errors of the modulator's registers. -/
theorem witness_TransmitWritesFrameAndBaseband :
    (hd1.caps.legal ∧ hd1.cfg.hasSps 5 ∧ hd1.cfg.modLegal ∧ hd1.vs.legal ∧
      (frameBits hd1.cfg (posBits hd1.vs)).length * 5 ≤ hd1.caps.smp.toNat) ∧
    (Caps.legal { Caps.build with smp := 1024 } ∧ 1024 < (frameBits hd1.cfg (posBits hd1.vs)).length * 5) ∧
    (¬ State.reset.vs.legal ∧ FailsWith .encodePos State.reset 0x00010501) :=
  ⟨by decide +kernel, by decide +kernel, by decide +kernel, rfl⟩

/-- The job of the reset registers, in each profile. -/
def oneJob (gmsk : Bool) : ModJob :=
  { gmsk := gmsk, sampleRate := 48000, symbolRate := 9600, btX100 := 40, gaussSpan := 4, fskDevHz := 2400,
    bits := sample8 }

theorem witness_PhaseStepsAreBounded : (oneJob true).gmsk = true ∧ (oneJob false).gmsk = false := by
  decide +kernel

theorem witness_IdealLoopbackReturnsTheLevel :
    1 ≤ (oneJob true).sps ∧ 1 ≤ (oneJob false).sps ∧ 0 < (oneJob false).fskDevHz.toNat ∧
      2 * (oneJob false).fskDevHz.toNat < (oneJob false).sampleRate.toNat := by decide +kernel

/-- A state for each clause: the bad ratio, a zero deviation, each filter register, a NaN, a run on a changing
input, and the three inputs of exact zeros. -/
theorem witness_DemodulateWritesTheDiscriminator :
    (∀ S, ¬ ({ Cfg.reset with symbolRate := 0 } : Cfg).hasSps S) ∧
    (({ Cfg.reset with config := 0x0F, fskDevHz := 0 } : Cfg).gmsk = false ∧
      ({ Cfg.reset with config := 0x0F, fskDevHz := 0 } : Cfg).hasSps 5) ∧
    (({ Cfg.reset with config := 0x1D, btX100 := 101 } : Cfg).lpfEn = true ∧
      100 < ({ Cfg.reset with config := 0x1D, btX100 := 101 } : Cfg).btX100.toNat ∧
      ({ Cfg.reset with config := 0x1D, gaussSpan := 2 } : Cfg).gaussSpan.toNat = 2) ∧
    (Cfg.reset.hasSps 5 ∧ Cfg.reset.discLegal ∧ Cfg.reset.dcRemove = true ∧ Cfg.reset.lpfEn = false) ∧
    (InputSamples (State.reset.putSin [(0, 0x7FC00000)]) [(0, 0x7FC00000)] ∧ finite32 0x7FC00000 = false) ∧
    (InputSamples (State.reset.putSin [(0x3F800000, 0), (0, 0x3F800000)]) [(0x3F800000, 0), (0, 0x3F800000)] ∧
      finite32 0x3F800000 = true ∧ finite32 0 = true ∧ val32 0 = 0 ∧ val32 0x80000000 = 0) := by
  refine ⟨?_, by decide +kernel, by decide +kernel, by decide +kernel, by decide +kernel, by decide +kernel⟩
  rintro S ⟨h, -⟩
  exact h rfl

/-- The exact rationals of the preamble's levels at one sample a symbol. -/
def preamble : List ℚ := (levels (trainBits ++ flagBits)).map val32

/-- At one candidate lag: too short an input, silence, and the preamble, whose only peak is of normal polarity and
whose 32 symbols fit or do not fit. -/
theorem witness_RecoverTakesTheEarliestPeak :
    (oneLag.hasSps 1 ∧ oneLag.acqLegal ∧ oneLag.acqWindow.toNat = 1) ∧ preamble.length = 32 ∧
    (preamble.drop 1).length < 32 * 1 ∧
    (∑ k ∈ Finset.range 24, preamble.getD k 0) = 0 ∧
    (∑ k ∈ Finset.range 32, (if (trainBits ++ flagBits).getD (k / 1) false then 1 else -1) *
      (preamble.getD k 0 - 0)) / 32 = 1 ∧
    (24576 : ℚ) / 65536 ≤ 1 ∧ ¬ (24576 : ℚ) / 65536 ≤ -1 ∧ ¬ (24576 : ℚ) / 65536 ≤ 0 ∧
    oneLag.acqThreshold.toNat = 24576 ∧ (32 - 1 - 0 - 1 / 2) / 1 + 1 = 32 := by decide +kernel

/-- What a check over a list says of each of its elements. -/
theorem of_all {α : Type} {p : α → Bool} {l : List α} (h : l.all p = true) : ∀ x ∈ l, p x = true :=
  List.all_eq_true.1 h

/-- A computation with an answer has one. -/
theorem exists_ok {α : Type} (x : Cmd α) (h : x.toOption.isSome = true) : ∃ a, x = .ok a := by
  cases x with
  | error e => simp [Except.toOption] at h
  | ok a => exact ⟨a, rfl⟩

/-- Two stages, of which the first answers and the second ends as r. -/
theorem exists_then {α β : Type} [DecidableEq β] (x : Cmd α) (f : α → β) (r : β)
    (h : (x.toOption.map f) = some r) : ∃ a, x = .ok a ∧ f a = r := by
  cases x with
  | error e => simp [Except.toOption] at h
  | ok a => exact ⟨a, rfl, by simpa [Except.toOption] using h⟩

theorem witness_RecoverClockWritesBitsAndAcquisition :
    (∀ S, ¬ ({ Cfg.reset with symbolRate := 0 } : Cfg).hasSps S) ∧
    (Cfg.reset.hasSps 5 ∧ ¬ ({ Cfg.reset with acqThreshold := 0 } : Cfg).acqLegal) ∧
    (oneLag.hasSps 1 ∧ oneLag.acqLegal) ∧
    InputDisc (State.reset.putDisc (levels (trainBits ++ flagBits))) (levels (trainBits ++ flagBits)) ∧
    (∀ w ∈ levels (trainBits ++ flagBits), finite32 w = true) ∧
    (∃ a, recover oneLag 4096 1 ((levels (trainBits ++ flagBits)).map val32) = .ok a) ∧
    (InputDisc (State.reset.putDisc [0]) [0] ∧ recover oneLag 4096 1 ([0].map val32) = raise .tooShort) ∧
    (InputDisc (State.reset.putDisc [0x7F800000]) [0x7F800000] ∧ finite32 0x7F800000 = false) := by
  refine ⟨?_, by decide +kernel, by decide +kernel, inputDisc_putDisc _ _ (by decide +kernel), of_all (by decide +kernel),
    exists_ok _ (by decide +kernel), by decide +kernel, by decide +kernel⟩
  rintro S ⟨h, -⟩
  exact h rfl

/-- R17 admits an analog side that draws any words of magnitude at most 1, under a wide enough bound. -/
theorem exists_analog (ws : List Word) (h : ws.all (fun w => finite32 w && decide (|val32 w| ≤ 1)) = true) :
    ∃ hw : Config.Analog, ∀ j tick k, hw.discWord j tick k = ws.getD k 0 := by
  refine ⟨{ Config.someAnalog with
    epsDisc := 2 ^ 34
    epsDisc_pos := by positivity
    discWord := fun _ _ k => ws.getD k 0
    discWord_within := fun j _ k => ?_ }, fun _ _ _ => rfl⟩
  have hw : finite32 (ws.getD k 0) = true ∧ |val32 (ws.getD k 0)| ≤ 1 := by
    rw [List.getD_eq_getElem?_getD]
    rcases hk : ws[k]? with _ | w
    · exact by decide +kernel
    · simpa using of_all h w (List.mem_of_getElem? hk)
  refine Near.within ⟨hw.1, ?_⟩
  have h1 : |((val32 (ws.getD k 0) : ℚ) : ℝ)| ≤ 1 := by exact_mod_cast hw.2
  have h2 := j.abs_ideal_le k
  calc _ ≤ |((val32 (ws.getD k 0) : ℚ) : ℝ)| + |j.ideal k| := abs_sub _ _
    _ ≤ 2 ^ 34 := by linarith

/-- Samples that are not quiet (R165), as many as n + 1. -/
def pulse (n : Nat) : List Sample := (0x3F800000, 0) :: List.replicate n (0, 0)

/-- On those samples some analog side draws the words ws. -/
theorem exists_draw (n : Nat) (ws : List Word) (hn : ws.length = n + 1)
    (h : ws.all (fun w => finite32 w && decide (|val32 w| ≤ 1)) = true) (hq : quietInput oneLag (pulse n) = false) :
    ∃ hw : Config.Analog, discriminated hw (receiving (pulse n)) (pulse n) = ws := by
  obtain ⟨hw, hd⟩ := exists_analog ws h
  refine ⟨hw, ?_⟩
  have hc : (receiving (pulse n)).cfg = oneLag := rfl
  rw [discriminated, hc, hq]
  apply List.ext_getElem
  · simp [pulse, hn]
  · intro k h1 h2
    simp [hd, h2]

/-! A line whose phase turns by exactly a quarter at each sample, so that the ideal discriminator is exactly ±1. -/

/-- Two samples a symbol, and an FSK deviation of a quarter turn a sample. -/
def quarter : Cfg :=
  { Cfg.reset with config := 0x07, sampleRate := 19200, fskDevHz := 4800, acqWindow := 1 }

/-- The phase of sample k in quarter turns: forward in a symbol 1 of the frame, backward in a symbol 0. -/
def turns : Nat → Nat
  | 0 => 0
  | k + 1 => (turns k + if hd1Frame.getD ((k + 1) / 2) false then 1 else 3) % 4

/-- The sample of a phase in quarter turns. -/
def quarterSample : Nat → Sample
  | 0 => (0x3F800000, 0)
  | 1 => (0, 0x3F800000)
  | 2 => (0xBF800000, 0)
  | _ => (0, 0xBF800000)

/-- The samples of the HD1 frame. -/
def quarterSamples : List Sample := (List.range 468).map fun k => quarterSample (turns k)

theorem quarterSample_value (q : Nat) (h : q < 4) :
    (⟨((val32 (quarterSample q).1 : ℚ) : ℝ), ((val32 (quarterSample q).2 : ℚ) : ℝ)⟩ : ℂ) = Complex.I ^ q := by
  have h1 : val32 0x3F800000#32 = 1 := by decide +kernel
  have h2 : val32 0xBF800000#32 = -1 := by decide +kernel
  have h3 : val32 0#32 = 0 := by decide +kernel
  rcases q with _ | _ | _ | _ | q
  · simp [quarterSample, h1, h3, Complex.ext_iff]
  · simp [quarterSample, h1, h3, Complex.ext_iff]
  · simp [quarterSample, h2, h3, Complex.ext_iff]
  · simp [quarterSample, h2, h3, Complex.ext_iff, pow_succ]
  · omega

theorem turns_lt (k : Nat) : turns k < 4 := by
  cases k with
  | zero => decide
  | succ k => exact Nat.mod_lt _ (by decide)

theorem quarter_z (k : Nat) (hk : k < 468) : (discJob quarter quarterSamples).z k = Complex.I ^ turns k := by
  rw [← quarterSample_value _ (turns_lt k)]
  simp [DiscJob.z, discJob, quarterSamples, hk]

/-- The ideal discriminator of those samples: 0 at the start, and then the level of the frame's symbol. -/
theorem quarter_ideal (k : Nat) (hk : k < 468) : (discJob quarter quarterSamples).ideal k =
    if k = 0 then 0 else ((levelOf (hd1Frame.getD (k / 2) false) : ℚ) : ℝ) := by
  have hl : (discJob quarter quarterSamples).lpf = false := by decide +kernel
  have hd : (discJob quarter quarterSamples).dcRemove = false := by decide +kernel
  have hdev : (discJob quarter quarterSamples).dev = Real.pi / 2 := by
    have h1 : (discJob quarter quarterSamples).gmsk = false := by decide +kernel
    have h2 : (discJob quarter quarterSamples).fskDevHz.toNat = 4800 := by decide +kernel
    have h3 : (discJob quarter quarterSamples).sampleRate.toNat = 19200 := by decide +kernel
    rw [DiscJob.dev, fullStep, h1, h2, h3]
    rw [if_neg (by simp)]
    push_cast
    ring
  rw [DiscJob.ideal, hl, if_neg (by simp), DiscJob.raw]
  cases k with
  | zero => simp
  | succ k =>
    have hI : ∀ n : Nat, Complex.I ^ n * (starRingEnd ℂ) (Complex.I ^ n) = 1 := fun n => by
      rw [map_pow, Complex.conj_I, ← mul_pow]; simp
    have hmod : ∀ n : Nat, Complex.I ^ (n % 4) = Complex.I ^ n := fun n => by
      conv_rhs => rw [← Nat.mod_add_div n 4, pow_add, pow_mul, Complex.I_pow_four, one_pow, mul_one]
    rw [if_neg (by omega), if_neg (by omega), DiscJob.w, DiscJob.w, hd, if_neg (by simp), if_neg (by simp),
      Nat.add_sub_cancel, quarter_z _ hk, quarter_z _ (by omega), turns, hmod, pow_add, mul_right_comm, hI, one_mul,
      hdev]
    have hpi := Real.pi_ne_zero
    cases hd1Frame.getD ((k + 1) / 2) false
    · have h3 : Complex.I ^ 3 = -Complex.I := by rw [pow_succ, Complex.I_sq]; ring
      simp only [Bool.false_eq_true, if_false, h3, Complex.arg_neg_I, levelOf]
      push_cast
      field_simp
    · simp only [if_true, pow_one, Complex.arg_I, levelOf]
      push_cast
      field_simp

/-- Under a tolerance of at most 1/4 every word that R159 admits there is near the frame's levels. -/
theorem quarter_near (ε : ℝ) (h0 : 0 < ε) (h : ε ≤ 1 / 4) (k : Nat) (w : Word) (hk : k < 468)
    (hw : Within ε ((discJob quarter quarterSamples).ideal k) w) :
    |val32 w - (if hd1Frame.getD (k / 2) false then 1 else -1)| ≤ if k = 0 then 9 / 4 else 1 / 4 := by
  have hw1 : finite32 0x3F800000#32 = true ∧ val32 0x3F800000#32 = 1 := by decide +kernel
  have hw2 : finite32 0xBF800000#32 = true ∧ val32 0xBF800000#32 = -1 := by decide +kernel
  rw [quarter_ideal k hk] at hw
  rcases Nat.eq_zero_or_pos k with rfl | hk0
  · have := (hw.2 ⟨0, near_zero_word _ _ (by simpa using h0.le)⟩).2
    have hq : |val32 w| ≤ 1 / 4 := by
      rw [← Rat.cast_le (K := ℝ)]
      simpa using this.trans h
    have hb : hd1Frame.getD (0 / 2) false = false := by decide +kernel
    rw [hb, if_neg (by simp), if_pos rfl]
    have := abs_le.1 hq
    exact abs_le.2 ⟨by linarith, by linarith⟩
  · have hne : ¬ k = 0 := by omega
    rw [if_neg hne] at hw
    rw [if_neg hne]
    have hex : ∃ v, Near ε ((levelOf (hd1Frame.getD (k / 2) false) : ℚ) : ℝ) v := by
      cases hd1Frame.getD (k / 2) false
      · exact ⟨0xBF800000, hw2.1, by simpa [hw2.2, levelOf] using h0.le⟩
      · exact ⟨0x3F800000, hw1.1, by simpa [hw1.2, levelOf] using h0.le⟩
    rw [← Rat.cast_le (K := ℝ)]
    simpa [levelOf] using (hw.2 hex).2.trans h

/-- A state and operands that meet the condition under which RECEIVE completes whatever words are drawn, on every
analog side whose NUM_EPS_DISC is at most 1/4; and there are such analog sides. -/
theorem witness_ReceiveWhateverIsDrawn :
    let s : State := { State.reset.putSin quarterSamples with cfg := quarter }
    (quarter.hasSps 2 ∧ quarter.discLegal ∧ quarter.acqLegal ∧ quarter.searchLegal ∧ quarter.acqWindow.toNat = 1 ∧
      quarter.acqThreshold.toNat ≤ 0x8000) ∧
    InputSamples s quarterSamples ∧ (∀ z ∈ quarterSamples, finite32 z.1 = true ∧ finite32 z.2 = true) ∧
    quarterSamples.length = hd1Frame.length * 2 ∧ hd1Frame.length ≤ s.caps.bits.toNat ∧
    hd1Frame.take 32 = trainBits ++ flagBits ∧
    (∃ d, deframeFn quarter (hd1Frame.map some) = .ok d ∧ (posFields d.msg).type = 1) ∧
    (∃ hw : Config.Analog, hw.epsDisc = 1 / 100) ∧
    ∀ hw : Config.Analog, hw.epsDisc ≤ 1 / 4 → ∀ k w, k < quarterSamples.length →
      Within hw.epsDisc ((discJob quarter quarterSamples).ideal k) w →
        |val32 w - (if hd1Frame.getD (k / 2) false then 1 else -1)| ≤ if k = 0 then 9 / 4 else 1 / 4 := by
  refine ⟨by decide +kernel, inputSamples_putSin _ _ (by decide +kernel),
    fun z hz => by simpa [finiteSample] using of_all (p := finiteSample) (by decide +kernel) z hz,
    by decide +kernel, by decide +kernel, by decide +kernel, ?_, ?_, ?_⟩
  · exact exists_then _ (fun d : Deframed => (posFields d.msg).type) 1 (by decide +kernel)
  · obtain ⟨hw, -, h, -⟩ := Config.exists_analog 1 (1 / 100) 0 one_pos (by norm_num) le_rfl
    exact ⟨hw, h⟩
  · exact fun hw h k w hk => quarter_near _ hw.epsDisc_pos h k w (by simpa [quarterSamples] using hk)

/-- SIN for each clause: a NaN, silence (exact zeros, R165), and pulses on which some analog side draws the levels
of a frame and of a frame cut off. -/
theorem witness_ReceiveRunsTheChain :
    (oneLag.hasSps 1 ∧ oneLag.discLegal ∧ oneLag.acqLegal ∧ oneLag.searchLegal) ∧
    (({ oneLag with config := 0x0F, fskDevHz := 0 } : Cfg).gmsk = false ∧
      ({ oneLag with config := 0x1D } : Cfg).lpfEn = true ∧ ({ oneLag with config := 0x1D } : Cfg).gmsk = true ∧
      100 < ({ oneLag with btX100 := 101 } : Cfg).btX100.toNat ∧
      ({ oneLag with gaussSpan := 2 } : Cfg).gaussSpan.toNat = 2) ∧
    ¬ ({ oneLag with trainSpan := 0 } : Cfg).searchLegal ∧
    (InputSamples (receiving [(0, 0x7F800000)]) [(0, 0x7F800000)] ∧ finite32 0x7F800000 = false) ∧
    (InputSamples (receiving (pulse 233)) (pulse 233) ∧
      ∀ z ∈ pulse 233, finite32 z.1 = true ∧ finite32 z.2 = true) ∧
    recover oneLag 4096 1
      ((discriminated Config.hw (receiving (List.replicate 40 (0, 0))) (List.replicate 40 (0, 0))).map val32) =
        raise .noPeak ∧
    (∃ hw ws a d, discriminated hw (receiving (pulse 233)) (pulse 233) = ws ∧
      recover oneLag 4096 1 (ws.map val32) = .ok a ∧
      deframeFn oneLag (a.bits.map some) = .ok d ∧ (posFields d.msg).type = 1) ∧
    (∃ hw ws a, discriminated hw (receiving (pulse 99)) (pulse 99) = ws ∧
      recover oneLag 4096 1 (ws.map val32) = .ok a ∧
      deframeFn oneLag (a.bits.map some) = raise .belowMinimum) := by
  refine ⟨by decide +kernel, by decide +kernel, by decide +kernel,
    ⟨inputSamples_putSin _ _ (by decide +kernel), by decide +kernel⟩,
    ⟨inputSamples_putSin _ _ (by decide +kernel),
      fun z hz => by simpa [finiteSample] using of_all (p := finiteSample) (by decide +kernel) z hz⟩,
    by decide +kernel, ?_, ?_⟩
  · obtain ⟨hw, h⟩ := exists_draw 233 frameLevels (by decide +kernel) (by decide +kernel) (by decide +kernel)
    obtain ⟨a, ha, h'⟩ := exists_then (recover oneLag 4096 1 (frameLevels.map val32))
      (fun a => (deframeFn oneLag (a.bits.map some)).toOption.map fun d => (posFields d.msg).type) (some 1)
      (by decide +kernel)
    obtain ⟨d, hd, hm⟩ : ∃ d, deframeFn oneLag (a.bits.map some) = .ok d ∧ (posFields d.msg).type = 1 := by
      generalize deframeFn oneLag (a.bits.map some) = x at h'
      cases x with
      | error e => simp [Except.toOption] at h'
      | ok d => exact ⟨d, rfl, by simpa [Except.toOption] using h'⟩
    exact ⟨hw, frameLevels, a, d, h, ha, hd, hm⟩
  · obtain ⟨hw, h⟩ := exists_draw 99 (frameLevels.take 100) (by decide +kernel) (by decide +kernel)
      (by decide +kernel)
    obtain ⟨a, ha, h'⟩ := exists_then (recover oneLag 4096 1 ((frameLevels.take 100).map val32))
      (fun a => deframeFn oneLag (a.bits.map some)) (raise .belowMinimum) (by decide +kernel)
    exact ⟨hw, _, a, h, ha, h'⟩

end Sys2Proof.Tests
end

section
/-! PROOFS. The register port: where an access leads, and what one host action can do (R18, R26, R52 to R66). -/

namespace Sys2Proof.Machine

/-! ### Places -/

/-- The window word k of buffer b lies inside the used part of its window (R52, R53). -/
def windowFits (c : Caps) (k : Nat) : BufferId → Prop
  | .inp | .out => 32 * k + 32 ≤ c.bits.toNat
  | .chr => 4 * k + 4 ≤ c.chr.toNat
  | .sin | .sout => k < 2 * c.smp.toNat
  | .disc => k < c.smp.toNat

theorem placeOf_register (c : Caps) {a : Nat} (h : a < 0x1000) : placeOf c a = some (.register a) := by
  rw [placeOf, if_pos h]

theorem windowWord_eq_some {b : BufferId} {base used a : Nat} {p : Place}
    (h : windowWord b base used a = some p) : p = .window b ((a - base) / 4) ∧ a - base < used := by
  unfold windowWord at h
  split_ifs at h with hr
  cases h
  exact ⟨rfl, by omega⟩

/-- Where a mapped address leads: to its offset of the register region, or into one of the six windows (R52). -/
theorem placeOf_eq_some {c : Caps} {a : Nat} {p : Place} (h : placeOf c a = some p) :
    (p = .register a ∧ a < 0x1000) ∨ ∃ b base used, windowWord b base used a = some p ∧ used =
      match b with
      | .inp | .out => c.bits.toNat / 8
      | .chr => c.chr.toNat
      | .sin | .sout => 8 * c.smp.toNat
      | .disc => 4 * c.smp.toNat := by
  unfold placeOf at h
  split_ifs at h with ha
  · cases h; exact .inl ⟨rfl, ha⟩
  · simp only [Option.orElse_eq_orElse, Option.orElse_eq_or, Option.or_eq_some_iff] at h
    rcases h with h | ⟨-, h | ⟨-, h | ⟨-, h | ⟨-, h | ⟨-, h⟩⟩⟩⟩⟩ <;> exact .inr ⟨_, _, _, h, rfl⟩

theorem placeOf_eq_register {c : Caps} {a off : Nat} (h : placeOf c a = some (.register off)) : a = off := by
  rcases placeOf_eq_some h with ⟨hp, -⟩ | ⟨b, base, used, hw, -⟩
  · cases hp; rfl
  · cases (windowWord_eq_some hw).1

/-- In a legal build a window access leads to a word all of whose elements exist. -/
theorem placeOf_eq_window {c : Caps} {a k : Nat} {b : BufferId} (hc : c.legal)
    (h : placeOf c a = some (.window b k)) : windowFits c k b := by
  obtain ⟨⟨hbits, -⟩, ⟨hchr, -⟩, -⟩ := hc
  rcases placeOf_eq_some h with ⟨hp, -⟩ | ⟨b', base, used, hw, hused⟩
  · cases hp
  · obtain ⟨hp, hlt⟩ := windowWord_eq_some hw
    cases hp
    cases b <;> simp only [windowFits] at hused ⊢ <;> omega

/-- A 32-bit access of the register region reaches its offset (R52, R54). -/
theorem access_register (c : Caps) {off : Nat} (h : off < 0x1000) (h4 : off % 4 = 0) :
    access c (BitVec.ofNat 19 off) 32 = .ok (.register off) := by
  have hoff : (BitVec.ofNat 19 off).toNat = off := by simp; omega
  rw [access, hoff, if_neg (by simp), if_neg (by omega), placeOf_register c h]

theorem access_eq_ok {c : Caps} {addr : BitVec 19} {width : Nat} {p : Place}
    (h : access c addr width = .ok p) : width = 32 ∧ placeOf c addr.toNat = some p := by
  unfold access at h
  split_ifs at h with hw ha
  split at h
  · cases h; exact ⟨by simpa using hw, ‹_›⟩
  · cases h

/-! ### Registers and their offsets -/

theorem regAt_offset (r : Reg) : regAt r.offset = some r := by cases r <;> rfl

theorem offset_of_regAt {off : Nat} {r : Reg} (h : regAt off = some r) : r.offset = off := by
  simpa using List.find?_some h

/-! ### What one host action does -/

/-- The state in which the command of a CMD write runs: the word is stored and counted (R18, R26). -/
def State.taking (s : State) (w : Word) : State := { s with cmd := w, tick := s.tick + 1 }

theorem hostWrite_cmd (s : State) (w : Word) : hostWrite cmdAddr 32 w s = runWord w (s.taking w) := by
  have hcmd : access s.caps cmdAddr 32 = .ok (.register 0x010) :=
    access_register s.caps (by decide) (by decide)
  rw [hostWrite, hcmd]
  rfl

/-- What a host action that completes can do: one constructor for each way (R18, R26, R54 to R66, R191). -/
inductive Performs (s : State) : HostAction → State → Prop
  | read (addr : BitVec 19) (v : Word) : Performs s (.read addr 32) { s with rdata := some v }
  | register (r : Reg) (hr : r ≠ .cmd) (addr : BitVec 19) (w : Word) :
      Performs s (.write addr 32 w) (regWrite s w r)
  | unlisted (addr : BitVec 19) (w : Word) : Performs s (.write addr 32 w) s
  | window (b : BufferId) (k : Nat) (hk : s.caps.legal → windowFits s.caps k b) (addr : BitVec 19) (w : Word) :
      Performs s (.write addr 32 w) { s with mem := windowWrite s.mem b k w }
  | command (w : Word) (i : Instr) (t : State) (hd : decode w = .ok i) (ht : exec i (s.taking w) = .next t) :
      Performs s (.write cmdAddr 32 w) t
  | illegal (w : Word) (e : Illegal) (hd : decode w = .error e) :
      Performs s (.write cmdAddr 32 w) ((s.taking w).setStatus (illegalError e).status)
  | reset : Performs s .reset (platformReset s)

theorem performs_of_runWord {s t : State} {w : Word} (h : runWord w (s.taking w) = .next t) :
    Performs s (.write cmdAddr 32 w) t := by
  unfold runWord at h
  split at h
  · exact .command w _ t ‹_› h
  · cases h; exact .illegal w _ ‹_›

theorem performs_of_hostRead {s t : State} {addr : BitVec 19} {width : Nat}
    (h : hostRead addr width s = .next t) : Performs s (.read addr width) t := by
  unfold hostRead at h
  split at h
  · cases h
  · obtain ⟨rfl, -⟩ := access_eq_ok ‹_›
    split at h <;> cases h <;> exact .read addr _
  · obtain ⟨rfl, -⟩ := access_eq_ok ‹_›
    split at h <;> cases h
    exact .read addr _

theorem performs_of_hostWrite {s t : State} {addr : BitVec 19} {width : Nat} {w : Word}
    (h : hostWrite addr width w s = .next t) : Performs s (.write addr width w) t := by
  unfold hostWrite at h
  split at h
  next => cases h
  next off ha =>
    obtain ⟨rfl, hp⟩ := access_eq_ok ha
    split at h
    next hr =>
      have hoff := placeOf_eq_register hp
      have haddr : addr = cmdAddr := BitVec.eq_of_toNat_eq (hoff.trans (offset_of_regAt hr).symm)
      subst haddr
      exact performs_of_runWord h
    next r hr hne => cases h; exact .register r hr addr w
    next => cases h; exact .unlisted addr w
  next b k ha =>
    obtain ⟨rfl, hp⟩ := access_eq_ok ha
    cases h
    exact .window b k (fun hc => placeOf_eq_window hc hp) addr w

theorem performs_of_next {s t : State} {a : HostAction} (h : perform a s = .next t) : Performs s a t := by
  cases a with
  | read addr width => exact performs_of_hostRead h
  | write addr width w => exact performs_of_hostWrite h
  | reset => cases h; exact .reset

/-! ### What a step does -/

theorem step_idle {s : State} (h : s.port = []) : step s = .next s := by
  rw [step, portStep, h]

theorem step_perform {s : State} {a : HostAction} {rest : List HostAction} (h : s.port = a :: rest) :
    step s = perform a { s with port := rest } := by
  rw [step, portStep, h]

/-- A step that completes is idle or performs the port's next action. -/
theorem step_eq_next {s t : State} (h : step s = .next t) :
    t = s ∨ ∃ a rest, s.port = a :: rest ∧ Performs { s with port := rest } a t := by
  cases hp : s.port with
  | nil => rw [step_idle hp] at h; cases h; exact .inl rfl
  | cons a rest => rw [step_perform hp] at h; exact .inr ⟨a, rest, rfl, performs_of_next h⟩

/-- Settles O5: the CMD write leads to `runWord`, which runs the command that the word decodes to. -/
theorem commandWriteRunsTheDecodedCommand : Obligations.CommandWriteRunsTheDecodedCommand := by
  refine ⟨fun s rest w i hp hd => ?_, fun s => step_idle⟩
  calc step s = hostWrite cmdAddr 32 w { s with port := rest } := step_perform hp
    _ = runWord w (State.taking { s with port := rest } w) := hostWrite_cmd _ w
    _ = exec i { s with port := rest, cmd := w, tick := s.tick + 1 } := by rw [runWord, hd]; rfl

end Sys2Proof.Machine
end

section
/-! PROOFS. How a command can end: for every command, the state that its success commits and the errors that it
may raise (R64, R168 to R180). -/

namespace Sys2Proof.Machine

/-! ### A rule of reasoning for a command's computation -/

/-- The value of x, if it has one, satisfies Q, and an error that it raises satisfies E; of a model fault nothing
is said. -/
def Ends {α : Type} (x : Cmd α) (Q : α → Prop) (E : CmdError → Prop) : Prop :=
  (∀ a, x = .ok a → Q a) ∧ ∀ e, x = raise e → E e

section
variable {α β : Type} {E : CmdError → Prop}

theorem ends_ok {a : α} {Q : α → Prop} (h : Q a) : Ends (.ok a) Q E :=
  ⟨by rintro _ ⟨⟩; exact h, nofun⟩

theorem ends_raise {e : CmdError} {Q : α → Prop} (h : E e) : Ends (raise e) Q E :=
  ⟨nofun, by rintro _ ⟨⟩; exact h⟩

theorem Ends.bind {x : Cmd α} {f : α → Cmd β} {P : α → Prop} {Q : β → Prop} (hx : Ends x P E)
    (hf : ∀ a, P a → Ends (f a) Q E) : Ends (x >>= f) Q E := by
  constructor
  · intro b hb
    obtain ⟨a, ha, hb⟩ := cmd_bind_ok.1 hb
    exact (hf a (hx.1 a ha)).1 b hb
  · intro e he
    rcases cmd_bind_error.1 he with he | ⟨a, ha, he⟩
    · exact hx.2 e he
    · exact (hf a (hx.1 a ha)).2 e he

theorem Ends.mono {x : Cmd α} {P Q : α → Prop} (hx : Ends x P E) (h : ∀ a, P a → Q a) : Ends x Q E :=
  ⟨fun a ha => h a (hx.1 a ha), hx.2⟩

theorem ends_ite {c : Prop} [Decidable c] {x y : Cmd α} {Q : α → Prop} (hx : c → Ends x Q E)
    (hy : ¬ c → Ends y Q E) : Ends (if c then x else y) Q E := by
  split_ifs with hc
  · exact hx hc
  · exact hy hc

/-- A computation that raises nothing of its own: reads, whose one way to end early is a model fault. -/
theorem ends_of_no_raise {x : Cmd α} (h : ∀ e, x ≠ raise e) : Ends x (fun a => x = .ok a) E :=
  ⟨fun _ ha => ha, fun e he => absurd he (h e)⟩

theorem ends_require {c : Bool} {e : CmdError} (h : E e) : Ends (require c e) (fun _ => c = true) E :=
  ⟨fun _ hu => require_eq_ok.1 hu, fun e' he => by cases (require_eq_error.1 he).2; exact h⟩

theorem ends_fits {n cap : Nat} {e : CmdError} (h : E e) : Ends (fits n cap e) (fun _ => n ≤ cap) E :=
  (ends_require h).mono fun _ hn => of_decide_eq_true hn

theorem ends_readSeq {get : Nat → Cmd α} {P : α → Prop} (h : ∀ k, Ends (get k) P E) (i n : Nat) :
    Ends (readSeq get i n) (fun xs => xs.length = n) E := by
  induction n generalizing i with
  | zero => exact ends_ok rfl
  | succ n ih => exact (h i).bind fun v _ => (ih (i + 1)).bind fun vs hvs => ends_ok (by simp [hvs])

theorem ends_foldlM {f : β → α → Cmd β} {P : β → Prop} (h : ∀ b a, P b → Ends (f b a) P E) (l : List α) (b : β)
    (hb : P b) : Ends (l.foldlM f b) P E := by
  induction l generalizing b with
  | nil => exact ends_ok hb
  | cons a l ih => exact (h b a hb).bind fun b' hb' => ih b' hb'

end

/-- How a command that completes ends: with its result committed or with its error in STATUS (R171, R172). -/
theorem commit_ends {s t : State} {r : Cmd State} {Q : State → Prop} {E : CmdError → Prop} (hr : Ends r Q E)
    (h : commit s r = .next t) :
    (∃ u, Q u ∧ t = u.setStatus statusOk) ∨ ∃ e, E e ∧ t = s.setStatus e.status := by
  rcases commit_eq_next.1 h with ⟨u, hu, ht⟩ | ⟨e, he, ht⟩
  · exact .inl ⟨u, hr.1 u hu, ht⟩
  · exact .inr ⟨e, hr.2 e he, ht⟩

/-! ### Reads raise no error -/

section
variable {E : CmdError → Prop}

theorem memRead_ne_raise {α : Type} {id : BufferId} {b : Buf α} {i : Nat} {e : CmdError} :
    memRead id b i ≠ raise e := fun h => by cases (memRead_eq_error.1 h).2

theorem readSeq_memRead_ne_raise {α : Type} {id : BufferId} {b : Buf α} {i n : Nat} {e : CmdError} :
    readSeq (memRead id b) i n ≠ raise e := fun h => by
  obtain ⟨k, -, -, -, he⟩ := readSeq_memRead_error h
  cases he

theorem readSeq_sampleRead_ne_raise {id : BufferId} {b : Buf Word} {i n : Nat} {e : CmdError} :
    readSeq (sampleRead id b) i n ≠ raise e := fun h => by
  obtain ⟨k, -, -, -, he⟩ := readSeq_sampleRead_error h
  cases he

theorem ends_inFirst (s : State) (n : Nat) : Ends (s.inFirst n) (fun x => s.inFirst n = .ok x) E :=
  ends_of_no_raise fun _ => readSeq_memRead_ne_raise

theorem ends_inBits (s : State) : Ends s.inBits (InputBits s) E :=
  (ends_inFirst s _).mono fun _ => inBits_eq_ok.1

theorem ends_outBits (s : State) : Ends s.outBits (OutputBits s) E :=
  (ends_of_no_raise fun _ => readSeq_memRead_ne_raise).mono fun _ => outBits_eq_ok.1

theorem ends_chars (s : State) : Ends s.chars (InputChars s) E :=
  (ends_of_no_raise fun _ => readSeq_memRead_ne_raise).mono fun _ => chars_eq_ok.1

theorem ends_sinSamples (s : State) : Ends s.sinSamples (InputSamples s) E :=
  (ends_of_no_raise fun _ => readSeq_sampleRead_ne_raise).mono fun _ => sinSamples_eq_ok.1

theorem ends_soutSamples (s : State) : Ends s.soutSamples (OutputSamples s) E :=
  (ends_of_no_raise fun _ => readSeq_sampleRead_ne_raise).mono fun _ => soutSamples_eq_ok.1

theorem ends_discWords (s : State) : Ends s.discWords (InputDisc s) E :=
  (ends_of_no_raise fun _ => readSeq_memRead_ne_raise).mono fun _ => discWords_eq_ok.1

theorem ends_airBits (B : List (Option Bool)) (i n : Nat) : Ends (airBits B i n) (fun x => x.length = n) E :=
  ends_readSeq (P := fun _ => True) (fun k => by
    unfold airBit
    cases B.getD k none with
    | none => exact ⟨nofun, nofun⟩
    | some b => exact ends_ok trivial) i n

/-! ### Checks -/

theorem ends_mult8Check {n : Nat} (h : E .lenNotMult8) : Ends (mult8Check n) (fun _ => n % 8 = 0) E :=
  (ends_require h).mono fun _ hn => of_decide_eq_true hn

theorem ends_spsCheck (c : Cfg) (h : E .spsNonInteger) : Ends (spsCheck c) c.hasSps E :=
  ⟨fun _ => spsCheck_eq_ok.1, fun e he => by cases spsCheck_eq_error he; exact h⟩

theorem ends_filterCheck (c : Cfg) (hb : E .btRange) (hs : E .spanRange) :
    Ends (filterCheck c) (fun _ => c.filterLegal) E :=
  ⟨fun _ => filterCheck_eq_ok.1, ((ends_require hb).bind fun _ _ => ends_require hs).2⟩

theorem ends_fskCheck (c : Cfg) (h : E .fskDevRange) : Ends (fskCheck c) (fun _ => c.fskDevHz.toNat ≠ 0) E :=
  (ends_require h).mono fun _ hn => of_decide_eq_true hn

/-- The configuration errors of the modulator and the discriminator (R147, R156). -/
def rateErrors : List CmdError := [.spsNonInteger, .btRange, .spanRange, .fskDevRange]

theorem ends_modCfgCheck (c : Cfg) (hE : ∀ e ∈ rateErrors, E e) :
    Ends (modCfgCheck c) (fun S => c.hasSps S ∧ c.modLegal) E := by
  refine ⟨fun _ => modCfgCheck_eq_ok.1, ?_⟩
  obtain ⟨hsps, hbt, hspan, hfsk⟩ : E .spsNonInteger ∧ E .btRange ∧ E .spanRange ∧ E .fskDevRange := by
    simpa [rateErrors] using hE
  exact ((ends_spsCheck c hsps).bind fun S hS => ends_ite
    (fun _ => (ends_filterCheck c hbt hspan).bind fun _ _ => ends_ok hS)
    fun _ => (ends_fskCheck c hfsk).bind fun _ _ => ends_ok hS).2

theorem ends_discCfgCheck (c : Cfg) (hE : ∀ e ∈ rateErrors, E e) :
    Ends (discCfgCheck c) (fun S => c.hasSps S ∧ c.discLegal) E := by
  refine ⟨fun _ => discCfgCheck_eq_ok.1, ?_⟩
  obtain ⟨hsps, hbt, hspan, hfsk⟩ : E .spsNonInteger ∧ E .btRange ∧ E .spanRange ∧ E .fskDevRange := by
    simpa [rateErrors] using hE
  refine ((ends_spsCheck c hsps).bind fun S hS => ?_ : Ends (discCfgCheck c) c.hasSps E).2
  have hfilter : Ends (if c.lpfEn then filterCheck c >>= fun _ => .ok S else .ok S) c.hasSps E :=
    ends_ite (fun _ => (ends_filterCheck c hbt hspan).bind fun _ _ => ends_ok hS) fun _ => ends_ok hS
  exact ends_ite (fun _ => hfilter) fun _ => (ends_fskCheck c hfsk).bind fun _ _ => hfilter

theorem ends_acqCfgCheck (c : Cfg) (hs : E .spsNonInteger) (ht : E .thresholdRange) :
    Ends (acqCfgCheck c) (fun S => c.hasSps S ∧ c.acqLegal) E :=
  ⟨fun _ => acqCfgCheck_eq_ok.1,
    ((ends_spsCheck c hs).bind fun _ hS => (ends_require ht).bind fun _ _ => ends_ok hS).2⟩

theorem ends_frameCfgCheck (c : Cfg) (h : E .thresholdRange) :
    Ends (frameCfgCheck c) (fun _ => c.searchLegal) E :=
  ⟨fun _ => frameCfgCheck_eq_ok.1, (ends_require h).2⟩

theorem ends_finiteCheck {α : Type} {ok : α → Bool} {xs : List α} (h : E .nonfiniteSample) :
    Ends (finiteCheck ok xs) (fun _ => xs.all ok = true) E := ends_require h

/-! ### The report codec -/

theorem ends_posEncode (v : Vessel) (hE : ∀ e : CmdError, (e.err, e.detail) ∈ vesselErrors → E e) :
    Ends (posEncode v) (fun m => v.legal ∧ m = posBits v) E := by
  refine ⟨fun _ => posEncode_eq_ok.1, ?_⟩
  have hcheck : Ends (posCheck v) (fun _ => True) E := by
    have hreq : ∀ (c : Bool) (e : CmdError), (e.err, e.detail) ∈ vesselErrors → Ends (require c e) (fun _ => True) E :=
      fun c e he => (ends_require (hE e he)).mono fun _ _ => trivial
    exact (hreq _ .vsMmsi (by decide)).bind fun _ _ => (hreq _ .vsNav (by decide)).bind fun _ _ =>
      (hreq _ .vsLon (by decide)).bind fun _ _ => (hreq _ .vsLat (by decide)).bind fun _ _ =>
      (hreq _ .vsCog (by decide)).bind fun _ _ => hreq _ .vsHdg (by decide)
  exact (hcheck.bind fun _ _ => ends_ok (Q := fun _ => True) trivial).2

/-- The type field has six bits (R134). -/
theorem posFields_type_lt (m : Bits) : (posFields m).type < 64 := by
  have h := uval_lt (slice m 0 (0 + 6))
  have hl : (slice m 0 (0 + 6)).length ≤ 6 := by simp [slice]
  exact lt_of_lt_of_le h (Nat.pow_le_pow_right (by omega) hl)

theorem unsupportedType_mem_typeErrors {n : Nat} (h : n < 64) (h1 : ¬ (n = 1 ∨ n = 2 ∨ n = 3)) :
    ((7, BitVec.ofNat 8 n) : Byte × Byte) ∈ typeErrors := by
  rcases Nat.eq_zero_or_pos n with rfl | hn
  · exact List.mem_cons_self
  · refine List.mem_cons_of_mem _ (List.mem_map.2 ⟨n - 4, by simp; omega, ?_⟩)
    rw [show n - 4 + 4 = n by omega]

theorem ends_typeCheck (m : Bits) (hE : ∀ e : CmdError, (e.err, e.detail) ∈ typeErrors → E e) :
    Ends (typeCheck (posFields m)) (fun _ => True) E := by
  refine ⟨fun _ _ => trivial, fun e he => ?_⟩
  obtain ⟨hc, hs⟩ := require_eq_error.1 he
  cases hs
  refine hE _ (unsupportedType_mem_typeErrors (posFields_type_lt m) fun h => ?_)
  simp only [Bool.or_eq_false_iff, decide_eq_false_iff_not] at hc
  omega

theorem ends_sixOf (c : Byte) (h : E .invalidChar) : Ends (sixOf c) (fun v => ascii2six c = some v) E := by
  unfold sixOf
  cases ascii2six c with
  | none => exact ends_raise h
  | some v => exact ends_ok rfl

theorem ends_chrSix (s : State) (k : Nat) (h : E .invalidChar) : Ends (chrSix s k) (fun _ => True) E :=
  (ends_of_no_raise fun _ => memRead_ne_raise).bind fun c _ => (ends_sixOf c h).mono fun _ _ => trivial

/-! ### The framer -/

/-- Destuffing answers at most as many bits as it is given (R107). -/
theorem ends_destuff (x : Bits) (h : E .destuffViolation) : Ends (destuff x) (fun y => y.length ≤ x.length) E := by
  suffices ∀ c, Ends (destuffFrom c x) (fun y => y.length ≤ x.length) E from this 0
  induction x with
  | nil => exact fun c => ends_ok le_rfl
  | cons b x ih =>
    intro c
    refine ends_ite (fun _ => ends_ite (fun _ => ends_raise h) fun _ => ?_) fun _ => ?_
    · exact (ih 0).mono fun y hy => Nat.le_succ_of_le hy
    · exact (ih _).bind fun r hr => ends_ok (Nat.succ_le_succ hr)

theorem ends_takePayload (R : List (Option Bool)) (prev : Bool) (c need i : Nat) (ht : E .payloadTruncated)
    (hv : E .destuffViolation) : Ends (takePayload prev c need i R) (fun _ => True) E := by
  induction R generalizing prev c need i with
  | nil => exact ends_ite (fun _ => ends_ok trivial) fun _ => ends_raise ht
  | cons y R ih =>
    refine ends_ite (fun _ => ends_ok trivial) fun _ => Ends.bind (P := fun _ => True) ?_ fun b _ => ?_
    · cases y with
      | none => exact ⟨nofun, nofun⟩
      | some b => exact ends_ok trivial
    · exact ends_ite (fun _ => ends_ite (fun _ => ends_raise hv) fun _ => ih ..)
        fun _ => (ih ..).bind fun _ _ => ends_ok trivial

theorem ends_scanFrame (c : Cfg) (B : List (Option Bool)) : Ends (scanFrame c B) (fun _ => True) E :=
  ends_foldlM (fun _ t _ => (ends_airBits B t 24).bind fun _ _ => ends_ite (fun _ => ends_ok trivial)
    fun _ => (ends_airBits B (t + 24) 8).bind fun _ _ => ends_ite (fun _ => ends_ok trivial)
      fun _ => ends_ok trivial) _ _ trivial

/-- The errors of `locate` (R114). -/
def locateErrors : List CmdError :=
  [.belowMinimum, .payloadTruncated, .endFlagTruncated, .training, .startFlag, .endFlag, .destuffViolation]

/-- A located frame ends, its flag included, inside the sequence. -/
theorem ends_locate (c : Cfg) (B : List (Option Bool)) (hE : ∀ e ∈ locateErrors, E e) :
    Ends (locate c B) (fun l => l.e + 8 ≤ B.length) E := by
  have hmem : ∀ e, e ∈ locateErrors → E e := hE
  refine (ends_require (hmem _ (by decide))).bind fun _ _ => (ends_scanFrame c B).bind fun a _ => ?_
  rcases a.best with _ | ⟨p, sc⟩
  · exact ends_ite (fun _ => ends_raise (hmem _ (by decide))) fun _ => ends_raise (hmem _ (by decide))
  · refine (ends_takePayload _ _ _ _ _ (hmem _ (by decide)) (hmem _ (by decide))).bind fun pe _ => ?_
    refine (ends_require (hmem _ (by decide))).bind fun _ he => (ends_airBits B _ 8).bind fun _ _ => ?_
    exact (ends_require (hmem _ (by decide))).bind fun _ _ => ends_ok (of_decide_eq_true he)

theorem ends_deframeFn (c : Cfg) (B : List (Option Bool))
    (hE : ∀ e : CmdError, (e.err, e.detail) ∈ deframeErrors → E e) :
    Ends (deframeFn c B) (fun d => d.msg.length ≤ 168) E := by
  have hloc : ∀ e ∈ locateErrors, (e.err, e.detail) ∈ deframeErrors := by decide
  refine (ends_locate c B fun e he => hE e (hloc e he)).bind fun l _ => ?_
  exact (ends_require (hE _ (by decide))).bind fun _ _ => ends_ok (by simp)

theorem ends_flagScan (B : List (Option Bool)) (k i n : Nat) : Ends (flagScan B k i n) (fun _ => True) E := by
  induction n generalizing i with
  | zero => exact ends_ok trivial
  | succ n ih => exact (ends_airBits B i 8).bind fun _ _ => ends_ite (fun _ => ends_ok trivial) fun _ => ih _

/-! ### Clock recovery -/

/-- The errors of `recover` (R163). -/
def recoverErrors : List CmdError := [.tooShort, .noPeak, .capBits]

theorem ends_recover (c : Cfg) (cap S : Nat) (D : List ℚ) (hE : ∀ e ∈ recoverErrors, E e) :
    Ends (recover c cap S D) (fun a => a.bits.length ≤ cap) E := by
  have hmem : ∀ e, e ∈ recoverErrors → E e := hE
  refine (ends_require (hmem _ (by decide))).bind fun _ _ => ?_
  dsimp only
  split
  · exact ends_raise (hmem _ (by decide))
  · exact (ends_fits (hmem _ (by decide))).bind fun _ hn => ends_ok (by simpa [sliceBits] using hn)

end

end Sys2Proof.Machine
end

section
/-! PROOFS. What each command commits when it succeeds, and how `exec` can end: the one case analysis over the
commands that the invariant, the frame and the STATUS statements share. -/

namespace Sys2Proof.Machine

/-- `Commits s i u`: the command i may succeed in s, and then u is what it commits, STATUS apart (R82 to R167). -/
inductive Commits (s : State) : Instr → State → Prop
  | nop : Commits s .nop s
  | moveOutIn (x : Bits) (hx : OutputBits s x) : Commits s .moveOutIn (s.putIn x)
  | moveSoutSin (zs : List Sample) (hz : OutputSamples s zs) : Commits s .moveSoutSin (s.putSin zs)
  | packBytes (x : Bits) (hx : InputBits s x) (h8 : s.inLen.toNat % 8 = 0)
      (hn : s.inLen.toNat / 8 ≤ s.chrCap) : Commits s .packBytes (s.putChr (bytesOf x))
  | unpackBytes (cs : List Byte) (hc : InputChars s cs) (hn : 8 * s.chrLen.toNat ≤ s.bitCap) :
      Commits s .unpackBytes (s.putOut 0 (bitsOfBytes cs))
  | reverseBytes (x : Bits) (hx : InputBits s x) (h8 : s.inLen.toNat % 8 = 0) :
      Commits s .reverseBytes (s.putOut 0 (reverseGroups x))
  | selftestLoopback : Commits s .selftestLoopback s
  | crcInit : Commits s .crcInit { s with crcReg := 0xFFFF }
  | crcBit (imm : Byte) : Commits s (.crcBit imm) { s with crcReg := crcStep s.crcReg (immBit imm) }
  | crcByte (imm : Byte) : Commits s (.crcByte imm) { s with crcReg := crcByteStep s.crcReg imm }
  | crcBuf (m : Bits) (hm : InputBits s m) : Commits s .crcBuf { s with crcValue := crc16 s.cfg.crcXorout m }
  | crcBufBytes (m : Bits) (hm : InputBits s m) :
      Commits s .crcBufBytes { s with crcValue := crc16Bytes s.cfg.crcXorout (bytesOf m) }
  | crcAppend (m : Bits) (hm : InputBits s m) (hn : s.inLen.toNat + 16 ≤ s.bitCap) :
      Commits s .crcAppend
        { s.putOut 0 (withCrc s.cfg.crcXorout m) with crcValue := crc16 s.cfg.crcXorout m }
  | crcCheck (x : Bits) (hx : InputBits s x) :
      Commits s .crcCheck
        { s with
          crcValue := crc16 s.cfg.crcXorout (x.take (s.inLen.toNat - 16)),
          crcRx := BitVec.ofNat 16 (uval (x.drop (s.inLen.toNat - 16))) }
  | crcSelftest (m : Bits) (hm : InputBits s m) :
      Commits s .crcSelftest { s with crcValue := crc16 s.cfg.crcXorout m }
  | stuffReset : Commits s .stuffReset { s with stuffCnt := 0, destuffCnt := 0 }
  | stuffBit (imm : Byte) (hn : s.outLen.toNat + (stuffStep s.stuffCnt (immBit imm)).1.length ≤ s.bitCap) :
      Commits s (.stuffBit imm)
        { s.putOut s.outLen.toNat (stuffStep s.stuffCnt (immBit imm)).1 with
          stuffCnt := (stuffStep s.stuffCnt (immBit imm)).2 }
  | destuffDrop (imm : Byte) (h5 : s.destuffCnt = 5) (hb : ¬ immBit imm) :
      Commits s (.destuffBit imm) { s with destuffCnt := 0 }
  | destuffKeep (imm : Byte) (h5 : s.destuffCnt ≠ 5) (hn : s.outLen.toNat + 1 ≤ s.bitCap) :
      Commits s (.destuffBit imm)
        { s.putOut s.outLen.toNat [immBit imm] with
          destuffCnt := if immBit imm then s.destuffCnt + 1 else 0 }
  | stuffBuf (x : Bits) (hx : InputBits s x) (hn : (stuff x).length ≤ s.bitCap) :
      Commits s .stuffBuf (s.putOut 0 (stuff x))
  | destuffBuf (x y : Bits) (hx : InputBits s x) (hy : y.length ≤ x.length) : Commits s .destuffBuf (s.putOut 0 y)
  | findFlag (k : Nat) : Commits s .findFlag { s with flagPos := BitVec.ofNat 32 k }
  | findFlagFuzzy (k : Nat) : Commits s .findFlagFuzzy { s with flagPos := BitVec.ofNat 32 k }
  | buildFrame (m : Bits) (hm : InputBits s m) (hn : (frameBits s.cfg m).length ≤ s.bitCap) :
      Commits s .buildFrame (s.putOut 0 (frameBits s.cfg m))
  | extractPayload (body : Bits) (p q e : Nat) (hn : body.length ≤ s.inLen.toNat) :
      Commits s .extractPayload ((s.putOut 0 body).putFramePos p q e)
  | deframe (d : Deframed) (hd : d.msg.length ≤ 168) :
      Commits s .deframe
        { (s.putOut 0 d.msg).putFramePos d.p d.q d.e with crcValue := d.crc, crcRx := d.rx }
  | nrziReset : Commits s .nrziReset { s with nrziEncLevel := s.cfg.nrziInit, nrziDecPrev := s.cfg.nrziInit }
  | nrziEncBit (imm : Byte) (hn : s.outLen.toNat + 1 ≤ s.bitCap) :
      Commits s (.nrziEncBit imm)
        { s.putOut s.outLen.toNat [nrziNext s.nrziEncLevel (immBit imm)] with
          nrziEncLevel := nrziNext s.nrziEncLevel (immBit imm) }
  | nrziDecBit (imm : Byte) (hn : s.outLen.toNat + 1 ≤ s.bitCap) :
      Commits s (.nrziDecBit imm)
        { s.putOut s.outLen.toNat [immBit imm == s.nrziDecPrev] with nrziDecPrev := immBit imm }
  | nrziEncBuf (x : Bits) (hx : InputBits s x) :
      Commits s .nrziEncBuf (s.putOut 0 (nrziEnc s.cfg.nrziInit x))
  | nrziDecBuf (y : Bits) (hy : InputBits s y) :
      Commits s .nrziDecBuf (s.putOut 0 (nrziDec s.cfg.nrziInit y))
  | encodePos (hv : s.vs.legal) : Commits s .encodePos (s.putOut 0 (posBits s.vs))
  | decodePos (m : Bits) : Commits s .decodePos { s with rx := (posFields m).report }
  | six2ascii (imm : Byte) :
      Commits s (.six2ascii imm) { s with result := (Machine.six2ascii (immSix imm)).setWidth 32 }
  | ascii2six (imm : Byte) (v : Nat) (hv : Machine.ascii2six imm = some v) :
      Commits s (.ascii2six imm) { s with result := BitVec.ofNat 32 v }
  | armor (x : Bits) (hx : InputBits s x) (hn : (armorChars x).length ≤ s.chrCap) :
      Commits s .armor { s.putChr (armorChars x) with fillBits := BitVec.ofNat 3 (fillOf x.length) }
  | dearmor (vs : List Nat) (hl : vs.length = s.chrLen.toNat)
      (hn : 6 * s.chrLen.toNat - s.fillBits.toNat ≤ s.bitCap) :
      Commits s .dearmor (s.putOut 0 (dearmorBits vs s.fillBits.toNat))
  | modulate (sps : Nat) (hS : s.cfg.hasSps sps) (B : Bits) (hB : InputBits s B)
      (hn : s.inLen.toNat * sps ≤ s.smpCap) : Commits s .modulate (s.putSout (modulated Config.hw s B sps))
  | transmit (sps : Nat) (hS : s.cfg.hasSps sps) (f : Bits) (hf : f = frameBits s.cfg (posBits s.vs))
      (hn : f.length ≤ s.bitCap) (hm : f.length * sps ≤ s.smpCap) :
      Commits s .transmit ((s.putOut 0 f).putSout (modulated Config.hw s f sps))
  | demodulate (zs : List Sample) (hz : InputSamples s zs) :
      Commits s .demodulate (s.putDisc (discriminated Config.hw s zs))
  | recoverClock (a : Acquired) (ha : a.bits.length ≤ s.bitCap) :
      Commits s .recoverClock { s.putOut 0 a.bits with acq := a.acq }
  | receive (zs : List Sample) (hz : InputSamples s zs) (a : Acquired) (d : Deframed) (hd : d.msg.length ≤ 168) :
      Commits s .receive
        { (((s.putDisc (discriminated Config.hw s zs)).putOut 0 d.msg).putFramePos d.p d.q d.e) with
          acq := a.acq, crcValue := d.crc, crcRx := d.rx, rx := (posFields d.msg).report }

/-- What an error of the command i leaves of s, STATUS apart: all of s, but for FIND_FLAG's NotFound (R172). -/
inductive Leaves (s : State) : Instr → State → Prop
  | same (i : Instr) : Leaves s i s
  | findFlag : Leaves s .findFlag { s with flagPos := 0xFFFFFFFF }
  | findFlagFuzzy : Leaves s .findFlagFuzzy { s with flagPos := 0xFFFFFFFF }

/-- R170's column "raised by" lists the error for the command. -/
abbrev MayRaise (i : Instr) (e : CmdError) : Prop := (e.err, e.detail) ∈ mayReport i

/-- How the command i can end in s: it succeeds, or it raises an error that R170 lists for it. -/
inductive EndsIn (s : State) (i : Instr) : State → Prop
  | success (u : State) (h : Commits s i u) : EndsIn s i (u.setStatus statusOk)
  | error (e : CmdError) (he : MayRaise i e) (u : State) (h : Leaves s i u) : EndsIn s i (u.setStatus e.status)

theorem endsIn_of_commit {s t : State} {i : Instr} {r : Cmd State} (hr : Ends r (Commits s i) (MayRaise i))
    (h : commit s r = .next t) : EndsIn s i t := by
  rcases commit_ends hr h with ⟨u, hu, rfl⟩ | ⟨e, he, rfl⟩
  · exact .success u hu
  · exact .error e he s (.same i)

/-! ### The system commands and the CRC engine -/

section
variable {s t : State}

theorem execPackBytes_endsIn (h : execPackBytes s = .next t) : EndsIn s .packBytes t :=
  endsIn_of_commit ((ends_mult8Check (by decide)).bind fun _ h8 => (ends_fits (by decide)).bind fun _ hn =>
    (ends_inBits s).bind fun x hx => ends_ok (.packBytes x hx h8 hn)) h

theorem execUnpackBytes_endsIn (h : execUnpackBytes s = .next t) : EndsIn s .unpackBytes t :=
  endsIn_of_commit ((ends_fits (by decide)).bind fun _ hn =>
    (ends_chars s).bind fun cs hc => ends_ok (.unpackBytes cs hc hn)) h

theorem execReverseBytes_endsIn (h : execReverseBytes s = .next t) : EndsIn s .reverseBytes t :=
  endsIn_of_commit ((ends_mult8Check (by decide)).bind fun _ h8 =>
    (ends_inBits s).bind fun x hx => ends_ok (.reverseBytes x hx h8)) h

theorem ends_loopbackCheck {E : CmdError → Prop} (c : Cfg) (v : Vessel) (fr : Bits) (h : E .loopback) :
    Ends (loopbackCheck c v fr) (fun _ => True) E := by
  unfold loopbackCheck
  split
  · exact ⟨nofun, nofun⟩
  · exact ends_raise h
  · exact (ends_require h).mono fun _ _ => trivial

theorem execSelftestLoopback_endsIn (h : execSelftestLoopback s = .next t) : EndsIn s .selftestLoopback t :=
  endsIn_of_commit ((ends_posEncode s.vs fun _ => List.mem_append_left _).bind fun _ _ =>
    (ends_frameCfgCheck s.cfg (by decide)).bind fun _ _ =>
    (ends_loopbackCheck _ _ _ (by decide)).bind fun _ _ => ends_ok .selftestLoopback) h

theorem execCrcBufBytes_endsIn (h : execCrcBufBytes s = .next t) : EndsIn s .crcBufBytes t :=
  endsIn_of_commit ((ends_mult8Check (by decide)).bind fun _ _ =>
    (ends_inBits s).bind fun m hm => ends_ok (.crcBufBytes m hm)) h

theorem execCrcAppend_endsIn (h : execCrcAppend s = .next t) : EndsIn s .crcAppend t :=
  endsIn_of_commit ((ends_fits (by decide)).bind fun _ hn =>
    (ends_inBits s).bind fun m hm => ends_ok (.crcAppend m hm hn)) h

theorem execCrcCheck_endsIn (h : execCrcCheck s = .next t) : EndsIn s .crcCheck t :=
  endsIn_of_commit ((ends_require (by decide)).bind fun _ _ => (ends_inBits s).bind fun x hx =>
    (ends_require (by decide)).bind fun _ _ => ends_ok (.crcCheck x hx)) h

theorem execCrcSelftest_endsIn (h : execCrcSelftest s = .next t) : EndsIn s .crcSelftest t :=
  endsIn_of_commit ((ends_mult8Check (by decide)).bind fun _ _ => (ends_inBits s).bind fun m hm =>
    (ends_require (by decide)).bind fun _ _ => ends_ok (.crcSelftest m hm)) h

/-! ### The framer and the NRZI coder -/

theorem execStuffBit_endsIn {imm : Byte} (h : execStuffBit imm s = .next t) : EndsIn s (.stuffBit imm) t :=
  endsIn_of_commit ((ends_fits (.head _)).bind fun _ hn => ends_ok (.stuffBit imm hn)) h

theorem execDestuffBit_endsIn {imm : Byte} (h : execDestuffBit imm s = .next t) : EndsIn s (.destuffBit imm) t :=
  endsIn_of_commit (ends_ite
    (fun h5 => ends_ite (fun _ => ends_raise (.head _)) fun hb => ends_ok (.destuffDrop imm h5 hb))
    fun h5 => (ends_fits (.tail _ (.head _))).bind fun _ hn => ends_ok (.destuffKeep imm h5 hn)) h

theorem execStuffBuf_endsIn (h : execStuffBuf s = .next t) : EndsIn s .stuffBuf t :=
  endsIn_of_commit ((ends_inBits s).bind fun x hx => (ends_fits (by decide)).bind fun _ hn =>
    ends_ok (.stuffBuf x hx hn)) h

theorem execDestuffBuf_endsIn (h : execDestuffBuf s = .next t) : EndsIn s .destuffBuf t :=
  endsIn_of_commit ((ends_inBits s).bind fun x hx => (ends_destuff x (by decide)).bind fun y hy =>
    ends_ok (.destuffBuf x y hx hy)) h

theorem endsIn_of_endSearch {i : Instr} {r : Cmd (Option Nat)} (hi : i = .findFlag ∨ i = .findFlagFuzzy)
    (hr : Ends r (fun _ => True) (MayRaise i)) (h : endSearch s r = .next t) : EndsIn s i t := by
  rcases endSearch_eq_next.1 h with ⟨k, -, rfl⟩ | ⟨-, rfl⟩ | ⟨e, he, rfl⟩
  · rcases hi with rfl | rfl
    · exact .success _ (.findFlag k)
    · exact .success _ (.findFlagFuzzy k)
  · rcases hi with rfl | rfl
    · exact .error .search (by decide) _ .findFlag
    · exact .error .search (by decide) _ .findFlagFuzzy
  · exact .error e (hr.2 e he) s (.same i)

theorem execFindFlag_endsIn (h : execFindFlag s = .next t) : EndsIn s .findFlag t :=
  endsIn_of_endSearch (.inl rfl) (ends_flagScan ..) h

theorem execFindFlagFuzzy_endsIn (h : execFindFlagFuzzy s = .next t) : EndsIn s .findFlagFuzzy t :=
  endsIn_of_endSearch (.inr rfl) ((ends_require (by decide)).bind fun _ _ => ends_flagScan ..) h

theorem execBuildFrame_endsIn (h : execBuildFrame s = .next t) : EndsIn s .buildFrame t :=
  endsIn_of_commit ((ends_inBits s).bind fun m hm => (ends_fits (by decide)).bind fun _ hn =>
    ends_ok (.buildFrame m hm hn)) h

theorem execExtractPayload_endsIn (h : execExtractPayload s = .next t) : EndsIn s .extractPayload t :=
  endsIn_of_commit ((ends_frameCfgCheck s.cfg (by decide)).bind fun _ _ =>
    (ends_locate s.cfg s.inSnapshot (by decide)).bind fun l hl =>
    (ends_airBits s.inSnapshot l.q (l.e - l.q)).bind fun body hb =>
      ends_ok (.extractPayload body l.p l.q l.e (by
        have hlen : s.inSnapshot.length = s.inLen.toNat := snapshot_length ..
        omega))) h

theorem execDeframe_endsIn (h : execDeframe s = .next t) : EndsIn s .deframe t :=
  endsIn_of_commit ((ends_frameCfgCheck s.cfg (by decide)).bind fun _ _ =>
    (ends_deframeFn s.cfg s.inSnapshot fun _ => List.mem_cons_of_mem _).bind fun d hd =>
      ends_ok (.deframe d hd)) h

theorem execNrziEncBit_endsIn {imm : Byte} (h : execNrziEncBit imm s = .next t) : EndsIn s (.nrziEncBit imm) t :=
  endsIn_of_commit ((ends_fits (.head _)).bind fun _ hn => ends_ok (.nrziEncBit imm hn)) h

theorem execNrziDecBit_endsIn {imm : Byte} (h : execNrziDecBit imm s = .next t) : EndsIn s (.nrziDecBit imm) t :=
  endsIn_of_commit ((ends_fits (.head _)).bind fun _ hn => ends_ok (.nrziDecBit imm hn)) h

/-! ### The codec -/

theorem execEncodePos_endsIn (h : execEncodePos s = .next t) : EndsIn s .encodePos t :=
  endsIn_of_commit ((ends_posEncode s.vs fun _ he => he).bind fun _ ⟨hv, hm⟩ => ends_ok (hm ▸ .encodePos hv)) h

theorem execDecodePos_endsIn (h : execDecodePos s = .next t) : EndsIn s .decodePos t :=
  endsIn_of_commit ((ends_require (by decide)).bind fun _ _ => (ends_inFirst s 168).bind fun m _ =>
    (ends_typeCheck m fun _ => List.mem_cons_of_mem _).bind fun _ _ => ends_ok (.decodePos m)) h

theorem execAscii2six_endsIn {imm : Byte} (h : execAscii2six imm s = .next t) : EndsIn s (.ascii2six imm) t :=
  endsIn_of_commit ((ends_sixOf imm (.head _)).bind fun v hv => ends_ok (.ascii2six imm v hv)) h

theorem execArmor_endsIn (h : execArmor s = .next t) : EndsIn s .armor t :=
  endsIn_of_commit ((ends_inBits s).bind fun x hx => (ends_fits (by decide)).bind fun _ hn =>
    ends_ok (.armor x hx hn)) h

theorem execDearmor_endsIn (h : execDearmor s = .next t) : EndsIn s .dearmor t :=
  endsIn_of_commit ((ends_require (by decide)).bind fun _ _ =>
    (ends_readSeq (fun k => ends_chrSix s k (by decide)) 0 s.chrLen.toNat).bind fun vs hl =>
    (ends_fits (by decide)).bind fun _ hn => ends_ok (.dearmor vs hl hn)) h

/-! ### The signal commands -/

theorem execModulate_endsIn (h : execModulate s = .next t) : EndsIn s .modulate t :=
  endsIn_of_commit ((ends_modCfgCheck s.cfg (by decide)).bind fun sps hS => (ends_fits (by decide)).bind fun _ hn =>
    (ends_inBits s).bind fun B hB => ends_ok (.modulate sps hS.1 B hB hn)) h

theorem execTransmit_endsIn (h : execTransmit s = .next t) : EndsIn s .transmit t := by
  have hvs : ∀ e : CmdError, (e.err, e.detail) ∈ vesselErrors → MayRaise .transmit e := fun _ he =>
    List.mem_append_left _ (List.mem_append_right _ he)
  exact endsIn_of_commit ((ends_modCfgCheck s.cfg (by decide)).bind fun sps hS =>
    (ends_posEncode s.vs hvs).bind fun m hm => (ends_fits (by decide)).bind fun _ hn =>
    (ends_fits (by decide)).bind fun _ hz =>
      ends_ok (.transmit sps hS.1 (frameBits s.cfg m) (by rw [hm.2]) hn hz)) h

theorem execDemodulate_endsIn (h : execDemodulate s = .next t) : EndsIn s .demodulate t :=
  endsIn_of_commit ((ends_discCfgCheck s.cfg (by decide)).bind fun _ _ => (ends_sinSamples s).bind fun zs hz =>
    (ends_finiteCheck (by decide)).bind fun _ _ => ends_ok (.demodulate zs hz)) h

theorem execRecoverClock_endsIn (h : execRecoverClock s = .next t) : EndsIn s .recoverClock t :=
  endsIn_of_commit ((ends_acqCfgCheck s.cfg (by decide) (by decide)).bind fun sps _ =>
    (ends_discWords s).bind fun ws _ => (ends_finiteCheck (by decide)).bind fun _ _ =>
    (ends_recover s.cfg s.bitCap sps (ws.map val32) (by decide)).bind fun a ha => ends_ok (.recoverClock a ha)) h

theorem execReceive_endsIn (h : execReceive s = .next t) : EndsIn s .receive t := by
  have hdef : ∀ e : CmdError, (e.err, e.detail) ∈ deframeErrors → MayRaise .receive e := fun _ he =>
    List.mem_append_left _ (List.mem_append_right _ he)
  have htype : ∀ e : CmdError, (e.err, e.detail) ∈ typeErrors → MayRaise .receive e := fun _ he =>
    List.mem_append_right _ he
  exact endsIn_of_commit ((ends_discCfgCheck s.cfg (by decide)).bind fun sps _ =>
    (ends_acqCfgCheck s.cfg (by decide) (by decide)).bind fun _ _ =>
    (ends_frameCfgCheck s.cfg (by decide)).bind fun _ _ => (ends_sinSamples s).bind fun zs hz =>
    (ends_finiteCheck (by decide)).bind fun _ _ =>
    (ends_recover s.cfg s.bitCap sps _ (by decide)).bind fun a _ =>
    (ends_deframeFn s.cfg _ hdef).bind fun d hd => (ends_typeCheck d.msg htype).bind fun _ _ =>
      ends_ok (.receive zs hz a d hd)) h

end

/-! ### Every command -/

/-- The ways in which a command that answers a next state can end. -/
theorem exec_endsIn {i : Instr} {s t : State} (h : exec i s = .next t) : EndsIn s i t := by
  cases i with
  | nop => exact endsIn_of_commit (ends_ok .nop) h
  | moveOutIn => exact endsIn_of_commit ((ends_outBits s).bind fun x hx => ends_ok (.moveOutIn x hx)) h
  | moveSoutSin => exact endsIn_of_commit ((ends_soutSamples s).bind fun z hz => ends_ok (.moveSoutSin z hz)) h
  | packBytes => exact execPackBytes_endsIn h
  | unpackBytes => exact execUnpackBytes_endsIn h
  | reverseBytes => exact execReverseBytes_endsIn h
  | selftestLoopback => exact execSelftestLoopback_endsIn h
  | crcInit => exact endsIn_of_commit (ends_ok .crcInit) h
  | crcBit imm => exact endsIn_of_commit (ends_ok (.crcBit imm)) h
  | crcByte imm => exact endsIn_of_commit (ends_ok (.crcByte imm)) h
  | crcBuf => exact endsIn_of_commit ((ends_inBits s).bind fun m hm => ends_ok (.crcBuf m hm)) h
  | crcBufBytes => exact execCrcBufBytes_endsIn h
  | crcAppend => exact execCrcAppend_endsIn h
  | crcCheck => exact execCrcCheck_endsIn h
  | crcSelftest => exact execCrcSelftest_endsIn h
  | stuffReset => exact endsIn_of_commit (ends_ok .stuffReset) h
  | stuffBit imm => exact execStuffBit_endsIn h
  | destuffBit imm => exact execDestuffBit_endsIn h
  | stuffBuf => exact execStuffBuf_endsIn h
  | destuffBuf => exact execDestuffBuf_endsIn h
  | findFlag => exact execFindFlag_endsIn h
  | findFlagFuzzy => exact execFindFlagFuzzy_endsIn h
  | buildFrame => exact execBuildFrame_endsIn h
  | extractPayload => exact execExtractPayload_endsIn h
  | deframe => exact execDeframe_endsIn h
  | nrziReset => exact endsIn_of_commit (ends_ok .nrziReset) h
  | nrziEncBit imm => exact execNrziEncBit_endsIn h
  | nrziDecBit imm => exact execNrziDecBit_endsIn h
  | nrziEncBuf => exact endsIn_of_commit ((ends_inBits s).bind fun x hx => ends_ok (.nrziEncBuf x hx)) h
  | nrziDecBuf => exact endsIn_of_commit ((ends_inBits s).bind fun y hy => ends_ok (.nrziDecBuf y hy)) h
  | encodePos => exact execEncodePos_endsIn h
  | decodePos => exact execDecodePos_endsIn h
  | six2ascii imm => exact endsIn_of_commit (ends_ok (.six2ascii imm)) h
  | ascii2six imm => exact execAscii2six_endsIn h
  | armor => exact execArmor_endsIn h
  | dearmor => exact execDearmor_endsIn h
  | modulate => exact execModulate_endsIn h
  | transmit => exact execTransmit_endsIn h
  | demodulate => exact execDemodulate_endsIn h
  | recoverClock => exact execRecoverClock_endsIn h
  | receive => exact execReceive_endsIn h

/-- Settles O18: an error that a command raises is one that R170 lists for it, and a success is the success word. -/
theorem statusReportsOneListedOutcome : Obligations.StatusReportsOneListedOutcome := by
  intro i s t h
  cases exec_endsIn h with
  | success u _ => exact .inl rfl
  | error e he u _ => exact .inr ⟨(e.err, e.detail), he, rfl⟩

end Sys2Proof.Machine
end

section
/-! PROOFS. The invariant: each update that a command, a register write or a window write makes keeps it, and so does
every step (R27, R38, R42, R53, R170, R174). -/

namespace Sys2Proof.Machine

/-! ### STATUS words (R27, R170) -/

theorem statusWord_err (err detail : Byte) : (statusWord err detail).extractLsb' 0 8 = err := by
  apply BitVec.eq_of_getLsbD_eq
  intro k hk
  interval_cases k <;> simp [statusWord]

theorem statusWord_detail (err detail : Byte) : (statusWord err detail).extractLsb' 8 8 = detail := by
  apply BitVec.eq_of_getLsbD_eq
  intro k hk
  interval_cases k <;> simp [statusWord]

theorem statusWord_high (err detail : Byte) : (statusWord err detail).extractLsb' 16 16 = 1 := by
  apply BitVec.eq_of_getLsbD_eq
  intro k hk
  interval_cases k <;> simp [statusWord]

theorem statusLegal_statusWord {err detail : Byte} (h : legalPair err detail = true) :
    statusLegal (statusWord err detail) = true := by
  simp [statusLegal, statusWord_high, statusWord_err, statusWord_detail, h]

theorem statusLegal_statusOk : statusLegal statusOk = true := statusLegal_statusWord (by decide)

theorem mayReport_all_legal (i : Instr) : (mayReport i).all (fun p => legalPair p.1 p.2) = true := by
  cases i <;> rfl

/-- Every pair of R170's "raised by" column is a row of R170. -/
theorem legalPair_of_mem_mayReport {i : Instr} {err detail : Byte} (h : (err, detail) ∈ mayReport i) :
    legalPair err detail = true := List.all_eq_true.1 (mayReport_all_legal i) (err, detail) h

theorem statusLegal_of_mayRaise {i : Instr} {e : CmdError} (h : MayRaise i e) : statusLegal e.status = true := by
  rw [CmdError.status]
  exact statusLegal_statusWord (legalPair_of_mem_mayReport h)

theorem statusLegal_illegalError (e : Illegal) : statusLegal (illegalError e).status = true := by
  cases e <;> exact statusLegal_statusWord (by decide)

/-! ### Lengths (R38, R64) -/

theorem toNat_ofNat_le {n c : Nat} (h : n ≤ c) : (BitVec.ofNat 32 n).toNat ≤ c := by
  rw [BitVec.toNat_ofNat]
  exact (Nat.mod_le ..).trans h

theorem legalLen_le (w cap : Word) : (legalLen w cap).toNat ≤ cap.toNat := by
  unfold legalLen
  split_ifs with h
  · exact h
  · exact le_rfl

@[simp] theorem bytesOf_length (S : Bits) : (bytesOf S).length = S.length / 8 := by simp [bytesOf]

@[simp] theorem bitsOfBytes_length (C : List Byte) : (bitsOfBytes C).length = 8 * C.length := by
  induction C with
  | nil => rfl
  | cons c C ih => simp [bitsOfBytes] at ih ⊢; omega

@[simp] theorem bitsOfWord_length (v : Word) : (bitsOfWord v).length = 32 := ubits_length ..

@[simp] theorem charsOfWord_length (v : Word) : (charsOfWord v).length = 4 := by simp [charsOfWord]

@[simp] theorem reverseGroups_length (x : Bits) : (reverseGroups x).length = x.length := by simp [reverseGroups]

@[simp] theorem withCrc_length (x : BitVec 16) (m : Bits) : (withCrc x m).length = m.length + 16 := by
  simp [withCrc]

@[simp] theorem posBits_length (v : Vessel) : (posBits v).length = 168 := by simp [posBits, ubitsInt]

theorem dearmorBits_length_le (vs : List Nat) (f : Nat) : (dearmorBits vs f).length ≤ 6 * vs.length - f :=
  List.length_take_le ..

/-! ### The step counters (R42, R117, R118) -/

theorem stuffStep_count_le {c : BitVec 3} (h : c.toNat ≤ 4) (b : Bool) : (stuffStep c b).2.toNat ≤ 4 := by
  revert c b
  decide

theorem destuffCount_le {c : BitVec 3} (h : c.toNat ≤ 5) (h5 : c ≠ 5) (b : Bool) :
    (if b then c + 1 else 0 : BitVec 3).toNat ≤ 5 := by
  revert c b
  decide

/-! ### Updates that keep the invariant -/

section
variable {s : State}

theorem setStatus_inv {w : Word} (h : s.Inv) (hw : statusLegal w = true) : (s.setStatus w).Inv := by
  obtain ⟨hcaps, hmem, hlen, hstuff, hdestuff, -⟩ := h
  exact ⟨hcaps, hmem, hlen, hstuff, hdestuff, hw⟩

theorem putIn_inv {x : Bits} (h : s.Inv) (hx : x.length ≤ s.bitCap) : (s.putIn x).Inv := by
  obtain ⟨hcaps, ⟨hin, hbufs⟩, ⟨-, hlens⟩, hrest⟩ := h
  exact ⟨hcaps, ⟨bufPut_wf hin (by rwa [Nat.zero_add]), hbufs⟩, ⟨toNat_ofNat_le hx, hlens⟩, hrest⟩

theorem putOut_inv {base : Nat} {x : Bits} (h : s.Inv) (hx : base + x.length ≤ s.bitCap) :
    (s.putOut base x).Inv := by
  obtain ⟨hcaps, ⟨hin, hout, hbufs⟩, ⟨hinl, -, hlens⟩, hrest⟩ := h
  exact ⟨hcaps, ⟨hin, bufPut_wf hout hx, hbufs⟩, ⟨hinl, toNat_ofNat_le hx, hlens⟩, hrest⟩

theorem putOut_zero_inv {x : Bits} (h : s.Inv) (hx : x.length ≤ s.bitCap) : (s.putOut 0 x).Inv :=
  putOut_inv h (by rwa [Nat.zero_add])

theorem putChr_inv {cs : List Byte} (h : s.Inv) (hc : cs.length ≤ s.chrCap) : (s.putChr cs).Inv := by
  obtain ⟨hcaps, ⟨hin, hout, hchr, hbufs⟩, ⟨hinl, houtl, -, hlens⟩, hrest⟩ := h
  exact ⟨hcaps, ⟨hin, hout, bufPut_wf hchr (by rwa [Nat.zero_add]), hbufs⟩,
    ⟨hinl, houtl, toNat_ofNat_le hc, hlens⟩, hrest⟩

theorem interleave_fits {zs : List Sample} {cap : Nat} (hz : zs.length ≤ cap) :
    0 + (interleave zs).length ≤ 2 * cap := by rw [interleave_length]; omega

theorem putSin_inv {zs : List Sample} (h : s.Inv) (hz : zs.length ≤ s.smpCap) : (s.putSin zs).Inv := by
  obtain ⟨hcaps, ⟨hin, hout, hchr, hsin, hbufs⟩, ⟨hinl, houtl, hchrl, -, hlens⟩, hrest⟩ := h
  exact ⟨hcaps, ⟨hin, hout, hchr, bufPut_wf hsin (interleave_fits hz), hbufs⟩,
    ⟨hinl, houtl, hchrl, toNat_ofNat_le hz, hlens⟩, hrest⟩

theorem putSout_inv {zs : List Sample} (h : s.Inv) (hz : zs.length ≤ s.smpCap) : (s.putSout zs).Inv := by
  obtain ⟨hcaps, ⟨hin, hout, hchr, hsin, hsout, hdisc⟩, ⟨hinl, houtl, hchrl, hsinl, -, hdiscl⟩, hrest⟩ := h
  exact ⟨hcaps, ⟨hin, hout, hchr, hsin, bufPut_wf hsout (interleave_fits hz), hdisc⟩,
    ⟨hinl, houtl, hchrl, hsinl, toNat_ofNat_le hz, hdiscl⟩, hrest⟩

theorem putDisc_inv {ws : List Word} (h : s.Inv) (hw : ws.length ≤ s.smpCap) : (s.putDisc ws).Inv := by
  obtain ⟨hcaps, ⟨hin, hout, hchr, hsin, hsout, hdisc⟩, ⟨hinl, houtl, hchrl, hsinl, hsoutl, -⟩, hrest⟩ := h
  exact ⟨hcaps, ⟨hin, hout, hchr, hsin, hsout, bufPut_wf hdisc (by rwa [Nat.zero_add])⟩,
    ⟨hinl, houtl, hchrl, hsinl, hsoutl, toNat_ofNat_le hw⟩, hrest⟩

theorem setStuffCnt_inv {c : BitVec 3} (h : s.Inv) (hc : c.toNat ≤ 4) : State.Inv { s with stuffCnt := c } := by
  obtain ⟨hcaps, hmem, hlen, -, hrest⟩ := h
  exact ⟨hcaps, hmem, hlen, hc, hrest⟩

theorem setDestuffCnt_inv {c : BitVec 3} (h : s.Inv) (hc : c.toNat ≤ 5) :
    State.Inv { s with destuffCnt := c } := by
  obtain ⟨hcaps, hmem, hlen, hstuff, -, hstatus⟩ := h
  exact ⟨hcaps, hmem, hlen, hstuff, hc, hstatus⟩

/-! ### Commands -/

/-- A message of 168 bits fits in every legal build (R7). -/
theorem message_fits (h : s.Inv) : 168 ≤ s.bitCap := by
  obtain ⟨⟨⟨-, hbits, -⟩, -⟩, -⟩ := h
  exact le_trans (by omega) hbits

/-- An input of IN_LEN bits fits in IN and in OUT. -/
theorem inputBits_fit {x : Bits} (h : s.Inv) (hx : InputBits s x) : x.length ≤ s.bitCap := by
  obtain ⟨-, -, ⟨hinl, -⟩, -⟩ := h
  exact hx.1 ▸ hinl

theorem inputSamples_fit {zs : List Sample} (h : s.Inv) (hz : InputSamples s zs) : zs.length ≤ s.smpCap := by
  obtain ⟨-, -, ⟨-, -, -, hsinl, -⟩, -⟩ := h
  exact hz.1 ▸ hsinl

/-- What a command commits meets the invariant.  Where the state is not written below, the update touches no part that
the invariant speaks of. -/
theorem Commits.inv {i : Instr} {u : State} (hc : Commits s i u) (h : s.Inv) : u.Inv := by
  have ⟨_, _, hlens, hstuff, hdestuff, _⟩ := h
  obtain ⟨hinl, houtl, hchrl, -, hsoutl, -⟩ := hlens
  cases hc with
  | moveOutIn x hx => exact putIn_inv h (hx.1 ▸ houtl)
  | moveSoutSin zs hz => exact putSin_inv h (hz.1 ▸ hsoutl)
  | packBytes x hx _ hn => exact putChr_inv h (by rwa [bytesOf_length, ← hx.1])
  | unpackBytes cs hc hn => exact putOut_zero_inv h (by rwa [bitsOfBytes_length, ← hc.1])
  | reverseBytes x hx => exact putOut_zero_inv h (by simpa using inputBits_fit h hx)
  | crcAppend m hm hn => exact putOut_zero_inv h (by rwa [withCrc_length, ← hm.1])
  | stuffReset => exact setStuffCnt_inv (c := 0) (setDestuffCnt_inv (c := 0) h (by decide)) (by decide)
  | stuffBit imm hn => exact setStuffCnt_inv (putOut_inv h hn) (stuffStep_count_le hstuff _)
  | destuffDrop => exact setDestuffCnt_inv h (by decide)
  | destuffKeep imm h5 hn => exact setDestuffCnt_inv (putOut_inv h hn) (destuffCount_le hdestuff h5 _)
  | stuffBuf x _ hn => exact putOut_zero_inv h hn
  | destuffBuf x y hx hy => exact putOut_zero_inv h (hy.trans (inputBits_fit h hx))
  | buildFrame m _ hn => exact putOut_zero_inv h hn
  | extractPayload body p q e hn => exact putOut_zero_inv h (hn.trans hinl)
  | deframe d hd => exact putOut_zero_inv h (hd.trans (message_fits h))
  | nrziEncBit imm hn => exact putOut_inv h hn
  | nrziDecBit imm hn => exact putOut_inv h hn
  | nrziEncBuf x hx => exact putOut_zero_inv h (by simpa using inputBits_fit h hx)
  | nrziDecBuf y hy => exact putOut_zero_inv h (by simpa using inputBits_fit h hy)
  | encodePos => exact putOut_zero_inv h (by simpa using message_fits h)
  | armor x _ hn => exact putChr_inv h hn
  | dearmor vs hl hn => exact putOut_zero_inv h ((dearmorBits_length_le vs _).trans (by rwa [hl]))
  | modulate sps _ B hB hn => exact putSout_inv h (by rwa [modulated_length, ← hB.1])
  | transmit sps _ f _ hn hm => exact putSout_inv (putOut_zero_inv h hn) (by rwa [modulated_length])
  | demodulate zs hz => exact putDisc_inv h (by simpa using inputSamples_fit h hz)
  | recoverClock a ha => exact putOut_zero_inv h ha
  | receive zs hz a d hd =>
    exact putOut_zero_inv (putDisc_inv h (by simpa using inputSamples_fit h hz))
      (show d.msg.length ≤ s.bitCap from hd.trans (message_fits h))
  | _ => exact h

theorem Leaves.inv {i : Instr} {u : State} (hl : Leaves s i u) (h : s.Inv) : u.Inv := by
  cases hl <;> exact h

theorem EndsIn.inv {i : Instr} {t : State} (he : EndsIn s i t) (h : s.Inv) : t.Inv := by
  cases he with
  | success u hu => exact setStatus_inv (hu.inv h) statusLegal_statusOk
  | error e hr u hu => exact setStatus_inv (hu.inv h) (statusLegal_of_mayRaise hr)

/-! ### Host accesses -/

/-- A register write legalises the length registers (R38); the other registers that it may store are free. -/
theorem regWrite_inv (h : s.Inv) (w : Word) (r : Reg) : (regWrite s w r).Inv := by
  have ⟨hcaps, hmem, hlens, hrest⟩ := h
  obtain ⟨hinl, houtl, hchrl, hsinl, hsoutl, hdiscl⟩ := hlens
  cases r with
  | inLen => exact ⟨hcaps, hmem, ⟨legalLen_le .., houtl, hchrl, hsinl, hsoutl, hdiscl⟩, hrest⟩
  | outLen => exact ⟨hcaps, hmem, ⟨hinl, legalLen_le .., hchrl, hsinl, hsoutl, hdiscl⟩, hrest⟩
  | chrLen => exact ⟨hcaps, hmem, ⟨hinl, houtl, legalLen_le .., hsinl, hsoutl, hdiscl⟩, hrest⟩
  | sinLen => exact ⟨hcaps, hmem, ⟨hinl, houtl, hchrl, legalLen_le .., hsoutl, hdiscl⟩, hrest⟩
  | soutLen => exact ⟨hcaps, hmem, ⟨hinl, houtl, hchrl, hsinl, legalLen_le .., hdiscl⟩, hrest⟩
  | discLen => exact ⟨hcaps, hmem, ⟨hinl, houtl, hchrl, hsinl, hsoutl, legalLen_le ..⟩, hrest⟩
  | _ => exact h

/-- A write inside a window keeps the canonical form of the buffers. -/
theorem windowWrite_wf {c : Caps} {m : Memory} {b : BufferId} {k : Nat} (h : Memory.wf c m)
    (hk : windowFits c k b) (v : Word) : Memory.wf c (windowWrite m b k v) := by
  obtain ⟨hin, hout, hchr, hsin, hsout, hdisc⟩ := h
  cases b with
  | inp => exact ⟨bufPut_wf hin (by rwa [bitsOfWord_length]), hout, hchr, hsin, hsout, hdisc⟩
  | out => exact ⟨hin, bufPut_wf hout (by rwa [bitsOfWord_length]), hchr, hsin, hsout, hdisc⟩
  | chr => exact ⟨hin, hout, bufPut_wf hchr (by rwa [charsOfWord_length]), hsin, hsout, hdisc⟩
  | sin => exact ⟨hin, hout, hchr, bufSet_wf v hsin hk, hsout, hdisc⟩
  | sout => exact ⟨hin, hout, hchr, hsin, bufSet_wf v hsout hk, hdisc⟩
  | disc => exact ⟨hin, hout, hchr, hsin, hsout, bufSet_wf v hdisc hk⟩

theorem resetOf_inv {c : Caps} (h : c.legal) : (State.resetOf c).Inv :=
  ⟨h, memory_empty_wf c, by simp [State.lengthsFit, State.resetOf], by simp [State.resetOf],
    by simp [State.resetOf], by simp [State.resetOf, statusLegal]⟩

theorem Performs.inv {a : HostAction} {t : State} (hp : Performs s a t) (h : s.Inv) : t.Inv := by
  have ⟨hcaps, hmem, hrest⟩ := h
  cases hp with
  | read => exact h
  | register r => exact regWrite_inv h _ r
  | unlisted => exact h
  | window b k hk => exact ⟨hcaps, windowWrite_wf hmem (hk hcaps) _, hrest⟩
  | command w i _ _ ht => exact (exec_endsIn ht).inv (h : (s.taking w).Inv)
  | illegal w e => exact setStatus_inv (h : (s.taking w).Inv) (statusLegal_illegalError e)
  | reset => exact resetOf_inv hcaps

end

/-- Settles O8: a step is idle or performs one host action, and each of these keeps the invariant. -/
theorem everyStepKeepsTheInvariant : Obligations.EveryStepKeepsTheInvariant := by
  intro s t h hst
  rcases step_eq_next hst with rfl | ⟨a, rest, -, hp⟩
  · exact h
  · exact hp.inv (h : State.Inv { s with port := rest })

end Sys2Proof.Machine
end

section
/-! PROOFS. The step registers: only the commands of their unit write them (R40, R42 to R44). -/

namespace Sys2Proof.Machine

/-- The step registers (R40, R42, R43). -/
structure StepRegs where
  crcReg : BitVec 16
  stuffCnt : BitVec 3
  destuffCnt : BitVec 3
  nrziEncLevel : Bool
  nrziDecPrev : Bool

/-- The step registers of a state. -/
def State.stepRegs (s : State) : StepRegs :=
  { crcReg := s.crcReg, stuffCnt := s.stuffCnt, destuffCnt := s.destuffCnt, nrziEncLevel := s.nrziEncLevel,
    nrziDecPrev := s.nrziDecPrev }

theorem stepRegs_inj {s t : State} : t.stepRegs = s.stepRegs ↔
    t.crcReg = s.crcReg ∧ t.stuffCnt = s.stuffCnt ∧ t.destuffCnt = s.destuffCnt ∧
      t.nrziEncLevel = s.nrziEncLevel ∧ t.nrziDecPrev = s.nrziDecPrev := StepRegs.mk.injEq .. |>.to_iff

variable {s t u : State} {i : Instr} {a : HostAction}

/-! ### Commands -/

theorem Commits.crcReg_changed (h : Commits s i u) (hne : u.crcReg ≠ s.crcReg) :
    i = .crcInit ∨ (∃ b, i = .crcBit b) ∨ ∃ b, i = .crcByte b := by
  cases h with
  | crcInit | crcBit | crcByte => simp
  | _ => simp at hne

theorem Commits.stuffCnt_changed (h : Commits s i u) (hne : u.stuffCnt ≠ s.stuffCnt) :
    i = .stuffReset ∨ ∃ b, i = .stuffBit b := by
  cases h with
  | stuffReset | stuffBit => simp
  | _ => simp at hne

theorem Commits.destuffCnt_changed (h : Commits s i u) (hne : u.destuffCnt ≠ s.destuffCnt) :
    i = .stuffReset ∨ ∃ b, i = .destuffBit b := by
  cases h with
  | stuffReset | destuffDrop | destuffKeep => simp
  | _ => simp at hne

theorem Commits.nrziEncLevel_changed (h : Commits s i u) (hne : u.nrziEncLevel ≠ s.nrziEncLevel) :
    i = .nrziReset ∨ ∃ b, i = .nrziEncBit b := by
  cases h with
  | nrziReset | nrziEncBit => simp
  | _ => simp at hne

theorem Commits.nrziDecPrev_changed (h : Commits s i u) (hne : u.nrziDecPrev ≠ s.nrziDecPrev) :
    i = .nrziReset ∨ ∃ b, i = .nrziDecBit b := by
  cases h with
  | nrziReset | nrziDecBit => simp
  | _ => simp at hne

/-- A command that raises an error leaves the step registers as they are (R172). -/
theorem Leaves.stepRegs (h : Leaves s i u) : u.stepRegs = s.stepRegs := by
  cases h <;> rfl

theorem EndsIn.stepRegs (h : EndsIn s i t) :
    t.stepRegs = s.stepRegs ∨ ∃ u, Commits s i u ∧ t.stepRegs = u.stepRegs := by
  cases h with
  | success u hu => exact .inr ⟨u, hu, rfl⟩
  | error e _ u hu => exact .inl hu.stepRegs

/-! ### Host accesses -/

/-- The step registers are read-only to the host (R23). -/
theorem regWrite_stepRegs (s : State) (w : Word) (r : Reg) : (regWrite s w r).stepRegs = s.stepRegs := by
  cases r <;> rfl

/-- Of the host's actions only a reset and a command that succeeds can change a step register. -/
theorem Performs.stepRegs (h : Performs s a t) (ha : a ≠ .reset) :
    t.stepRegs = s.stepRegs ∨
      ∃ w i u, a = .write cmdAddr 32 w ∧ decode w = .ok i ∧ Commits (s.taking w) i u ∧
        t.stepRegs = u.stepRegs := by
  cases h with
  | read | unlisted | window | illegal => exact .inl rfl
  | register r => exact .inl (regWrite_stepRegs s _ r)
  | command w i _ hd ht =>
    rcases (exec_endsIn ht).stepRegs with hs | ⟨u, hu, hs⟩
    · exact .inl hs
    · exact .inr ⟨w, i, u, rfl, hd, hu, hs⟩
  | reset => exact absurd rfl ha

/-- Settles O16: a step that changes a step register runs a command that commits the change, and the commands that
write a given step register are those of its unit. -/
theorem stepRegistersChangeOnlyInTheirUnit : Obligations.StepRegistersChangeOnlyInTheirUnit := by
  intro s t a rest hport ha hstep
  rw [step_perform hport] at hstep
  rcases (performs_of_next hstep).stepRegs ha with hsame | ⟨w, i, u, rfl, hd, hc, hu⟩
  · obtain ⟨hcrc, hstuff, hdestuff, henc, hdec⟩ := stepRegs_inj.1 hsame
    exact ⟨fun hne => absurd hcrc hne, fun hne => absurd hstuff hne, fun hne => absurd hdestuff hne,
      fun hne => absurd henc hne, fun hne => absurd hdec hne⟩
  · obtain ⟨hcrc, hstuff, hdestuff, henc, hdec⟩ := stepRegs_inj.1 hu
    refine ⟨fun hne => ⟨w, rfl, ?_⟩, fun hne => ⟨w, rfl, ?_⟩, fun hne => ⟨w, rfl, ?_⟩, fun hne => ⟨w, rfl, ?_⟩,
      fun hne => ⟨w, rfl, ?_⟩⟩
    · simpa [hd] using hc.crcReg_changed (hcrc.symm.trans_ne hne)
    · simpa [hd] using hc.stuffCnt_changed (hstuff.symm.trans_ne hne)
    · simpa [hd] using hc.destuffCnt_changed (hdestuff.symm.trans_ne hne)
    · simpa [hd] using hc.nrziEncLevel_changed (henc.symm.trans_ne hne)
    · simpa [hd] using hc.nrziDecPrev_changed (hdec.symm.trans_ne hne)

end Sys2Proof.Machine
end

section
/-! PROOFS. The register region: what a host read of an offset returns after a host write (R23 to R50). -/

namespace Sys2Proof.Machine

/-! ### One register -/

section
variable (s : State) (w : Word)

theorem legalLen_eq_min (w cap : Word) : legalLen w cap = BitVec.ofNat 32 (min w.toNat cap.toNat) := by
  unfold legalLen
  split_ifs with h
  · rw [Nat.min_eq_left h, BitVec.ofNat_toNat, BitVec.setWidth_eq]
  · rw [Nat.min_eq_right (BitVec.not_le.1 h).le, BitVec.ofNat_toNat, BitVec.setWidth_eq]

/-- A register that keeps the low bits of the word written reads back as the word under a mask. -/
theorem setWidth_extractLsb'_eq_and {n : Nat} (hn : n ≤ 32) :
    (w.extractLsb' 0 n).setWidth 32 = w &&& BitVec.ofNat 32 (2 ^ n - 1) := by
  apply BitVec.eq_of_toNat_eq
  have hp : 2 ^ n ≤ 2 ^ 32 := Nat.pow_le_pow_right (by omega) hn
  have hpos : 0 < 2 ^ n := Nat.two_pow_pos n
  rw [BitVec.toNat_and, BitVec.toNat_ofNat, Nat.mod_eq_of_lt (by omega), Nat.and_two_pow_sub_one_eq_mod]
  simp only [BitVec.toNat_setWidth, BitVec.extractLsb'_toNat, Nat.shiftRight_zero]
  exact Nat.mod_eq_of_lt (lt_of_lt_of_le (Nat.mod_lt _ hpos) hp)

/-- A register that stores a host write reads back as R23 legalises the word. -/
theorem regRead_regWrite_self {r : Reg} {v : Word} (h : storedAs s.caps r.offset w = some v) :
    regRead (regWrite s w r) r = v := by
  cases r with
  | config => exact (setWidth_extractLsb'_eq_and w (n := 5) (by decide)).trans (Option.some.inj h)
  | crcXorout => exact (setWidth_extractLsb'_eq_and w (n := 16) (by decide)).trans (Option.some.inj h)
  | fillBits => exact (setWidth_extractLsb'_eq_and w (n := 3) (by decide)).trans (Option.some.inj h)
  | inLen | outLen | chrLen | sinLen | soutLen | discLen =>
    exact (legalLen_eq_min ..).trans (Option.some.inj h)
  | sampleRate | symbolRate | btX100 | gaussSpan | fskDevHz | trainSpan | trainMinAgree | flagMinAgree
  | acqThreshold | acqWindow | searchStart | vsMmsi | vsNav | vsSog | vsLon | vsLat | vsCog | vsHdg | vsTs =>
    exact Option.some.inj h
  | _ => exact nomatch h

/-- A register that stores no host write ignores it; CMD stores every word. -/
theorem regWrite_of_storedAs_none {r : Reg} (hr : r ≠ .cmd) (h : storedAs s.caps r.offset w = none) :
    regWrite s w r = s := by
  cases r with
  | cmd => exact absurd rfl hr
  | config | crcXorout | fillBits | inLen | outLen | chrLen | sinLen | soutLen | discLen
  | sampleRate | symbolRate | btX100 | gaussSpan | fskDevHz | trainSpan | trainMinAgree | flagMinAgree
  | acqThreshold | acqWindow | searchStart | vsMmsi | vsNav | vsSog | vsLon | vsLat | vsCog | vsHdg | vsTs =>
    exact nomatch h
  | _ => rfl

/-- A host write leaves every other register as it was, the view CRC_OUT apart (R41). -/
theorem regRead_regWrite_of_ne {r r' : Reg} (hne : r' ≠ r) (hview : r' ≠ .crcOut) :
    regRead (regWrite s w r) r' = regRead s r' := by
  cases r with
  | cmd | config | crcXorout | fillBits | inLen | outLen | chrLen | sinLen | soutLen | discLen
  | sampleRate | symbolRate | btX100 | gaussSpan | fskDevHz | trainSpan | trainMinAgree | flagMinAgree
  | acqThreshold | acqWindow | searchStart | vsMmsi | vsNav | vsSog | vsLon | vsLat | vsCog | vsHdg | vsTs =>
    cases r' <;> first | rfl | contradiction
  | _ => rfl

@[simp] theorem regWrite_mem (r : Reg) : (regWrite s w r).mem = s.mem := by cases r <;> rfl

@[simp] theorem regWrite_port (r : Reg) : (regWrite s w r).port = s.port := by cases r <;> rfl

@[simp] theorem regWrite_tick (r : Reg) : (regWrite s w r).tick = s.tick := by cases r <;> rfl

end

/-! ### The register region -/

/-- What a host read of an offset of the register region returns: an unlisted offset reads 0 (R55). -/
def State.readAt (s : State) (off : Nat) : Word := ((regAt off).map (regRead s)).getD 0

/-- What a host write to an offset of the register region other than CMD's stores. -/
def State.writeAt (s : State) (off : Nat) (w : Word) : State := ((regAt off).map (regWrite s w)).getD s

theorem readAt_register {s : State} {off : Nat} {r : Reg} (h : regAt off = some r) : s.readAt off = regRead s r := by
  rw [State.readAt, h]; rfl

theorem writeAt_register {s : State} {off : Nat} {r : Reg} (w : Word) (h : regAt off = some r) :
    s.writeAt off w = regWrite s w r := by
  rw [State.writeAt, h]; rfl

theorem writeAt_unlisted {s : State} {off : Nat} (w : Word) (h : regAt off = none) : s.writeAt off w = s := by
  rw [State.writeAt, h]; rfl

section
variable {s : State} {off : Nat}

theorem hostRead_readAt (h : off < 0x1000) (h4 : off % 4 = 0) :
    hostRead (BitVec.ofNat 19 off) 32 s = .next { s with rdata := some (s.readAt off) } := by
  simp only [hostRead, access_register s.caps h h4, State.readAt]
  cases regAt off <;> rfl

theorem readsAs_iff (h : off < 0x1000) (h4 : off % 4 = 0) {v : Word} : ReadsAs s off v ↔ s.readAt off = v := by
  rw [ReadsAs, perform, hostRead_readAt h h4]
  constructor
  · intro he
    injection he with he
    injection congrArg State.rdata he
  · rintro rfl; rfl

theorem perform_writeAt (h : off < 0x1000) (h4 : off % 4 = 0) (hcmd : off ≠ 0x010) (w : Word) :
    perform (.write (BitVec.ofNat 19 off) 32 w) s = .next (s.writeAt off w) := by
  simp only [perform, hostWrite, access_register s.caps h h4, State.writeAt]
  split
  next hr => exact absurd (offset_of_regAt hr).symm hcmd
  next hr => rw [hr]; rfl
  next hr => rw [hr]; rfl

/-- R23's table lists every offset that stores a host write. -/
theorem regAt_of_storedAs {c : Caps} {w v : Word} (h : storedAs c off w = some v) : ∃ r, regAt off = some r := by
  have hrw : rwOffsets.all (fun o => (regAt o).isSome) = true := by decide
  rw [← Option.isSome_iff_exists]
  unfold storedAs at h
  split_ifs at h with h0 h1 h2 h3 h4 h5 h6
  · exact List.all_eq_true.1 hrw off h0
  · subst h1; rfl
  · subst h2; rfl
  · rcases h3 with rfl | rfl <;> rfl
  · subst h4; rfl
  · rcases h5 with rfl | rfl | rfl <;> rfl
  · subst h6; rfl

variable {w : Word}

theorem readAt_writeAt_self {v : Word} (hv : storedAs s.caps off w = some v) :
    (s.writeAt off w).readAt off = v := by
  obtain ⟨r, hr⟩ := regAt_of_storedAs hv
  rw [← offset_of_regAt hr] at hv
  rw [readAt_register hr, writeAt_register w hr, regRead_regWrite_self s w hv]

theorem writeAt_of_storedAs_none (hcmd : off ≠ 0x010) (hv : storedAs s.caps off w = none) :
    s.writeAt off w = s := by
  cases hr : regAt off with
  | none => exact writeAt_unlisted w hr
  | some r =>
    have hoff := offset_of_regAt hr
    rw [writeAt_register w hr, regWrite_of_storedAs_none s w (by rintro rfl; exact hcmd hoff.symm) (hoff ▸ hv)]

theorem readAt_writeAt_of_ne {off' : Nat} (hne : off' ≠ off) (hview : off' ≠ 0x074) :
    (s.writeAt off w).readAt off' = s.readAt off' := by
  cases hr : regAt off with
  | none => rw [writeAt_unlisted w hr]
  | some r =>
    cases hr' : regAt off' with
    | none => simp only [State.readAt, hr']; rfl
    | some r' =>
      have hoff := offset_of_regAt hr
      have hoff' := offset_of_regAt hr'
      rw [readAt_register hr', readAt_register hr', writeAt_register w hr, regRead_regWrite_of_ne]
      · rintro rfl; exact hne (hoff'.symm.trans hoff)
      · rintro rfl; exact hview hoff'.symm

/-- A register write touches neither the buffers nor the model's own fields. -/
theorem writeAt_frame : (s.writeAt off w).mem = s.mem ∧ (s.writeAt off w).port = s.port ∧
    (s.writeAt off w).tick = s.tick := by
  cases hr : regAt off with
  | none => rw [writeAt_unlisted w hr]; exact ⟨rfl, rfl, rfl⟩
  | some r => rw [writeAt_register w hr]; exact ⟨regWrite_mem .., regWrite_port .., regWrite_tick ..⟩

end

/-- Settles O12: the write stores at its offset, and reads of the region go back to reads of the registers. -/
theorem registerWritesStoreLegalisedValues : Obligations.RegisterWritesStoreLegalisedValues := by
  intro s off w h h4 hcmd
  refine ⟨s.writeAt off w, perform_writeAt h h4 hcmd w, fun v hv => ?_, writeAt_of_storedAs_none hcmd,
    fun off' v h' h4' hne hview hread => ?_, ?_, writeAt_frame⟩
  · exact (readsAs_iff h h4).2 (readAt_writeAt_self hv)
  · rw [readsAs_iff h' h4'] at hread ⊢
    rw [readAt_writeAt_of_ne hne hview, hread]
  · exact (readsAs_iff (by decide) (by decide)).2 rfl

end Sys2Proof.Machine
end

section
/-! PROOFS. RECOVER_CLOCK: its errors in their order, and what its success commits (R161, R163, R166). -/

namespace Sys2Proof.Machine

/-! ### Checks that fail -/

theorem spsCheck_raise {c : Cfg} (h : ∀ S, ¬ c.hasSps S) : spsCheck c = raise .spsNonInteger := by
  cases hc : spsCheck c with
  | ok S => exact absurd (spsCheck_eq_ok.1 hc) (h S)
  | error e => rw [spsCheck_eq_error hc]; rfl

theorem acqCfgCheck_raise_sps {c : Cfg} (h : ∀ S, ¬ c.hasSps S) : acqCfgCheck c = raise .spsNonInteger := by
  rw [acqCfgCheck, spsCheck_raise h, raise_bind]

theorem acqCfgCheck_raise_threshold {c : Cfg} {S : Nat} (hS : c.hasSps S) (h : ¬ c.acqLegal) :
    acqCfgCheck c = raise .thresholdRange := by
  have hreq : ¬ (1 ≤ c.acqThreshold.toNat && c.acqThreshold.toNat ≤ 65536 && 1 ≤ c.acqWindow.toNat) = true := by
    simpa only [Bool.and_eq_true, decide_eq_true_eq] using h
  rw [acqCfgCheck, spsCheck_eq_ok.2 hS, cmd_ok_bind, Bool.eq_false_iff.2 hreq, require_false, raise_bind]

theorem finiteCheck_of_all {α : Type} {ok : α → Bool} {xs : List α} (h : ∀ x ∈ xs, ok x = true) :
    finiteCheck ok xs = .ok () := by
  rw [finiteCheck, List.all_eq_true.2 h, require_true]

theorem finiteCheck_raise {α : Type} {ok : α → Bool} {xs : List α} (h : ∃ x ∈ xs, ok x = false) :
    finiteCheck ok xs = raise .nonfiniteSample := by
  rw [finiteCheck, List.all_eq_false.2 (by simpa using h), require_false]

/-! ### What `recover` answers -/

theorem lag_lt_of_mem_candidates {M : Nat} {mp : Nat × Bool} (h : mp ∈ candidates M) : mp.1 < M := by
  simp only [candidates, List.mem_flatMap, List.mem_range] at h
  obtain ⟨m, hm, h⟩ := h
  simp only [List.mem_cons, List.not_mem_nil, or_false] at h
  rcases h with rfl | rfl <;> exact hm

/-- The lag answered is a candidate, its score is at or above the threshold, and the bits fit (R163). -/
theorem recover_eq_ok {c : Cfg} {cap S : Nat} {D : List ℚ} {a : Acquired} (h : recover c cap S D = .ok a) :
    a.lag < c.acqWindow.toNat ∧ (c.acqThreshold.toNat : ℚ) / 65536 ≤ a.score ∧ a.bits.length ≤ cap := by
  unfold recover at h
  obtain ⟨-, -, h⟩ := cmd_bind_ok.1 h
  dsimp only at h
  split at h
  next => cases h
  next m inverted hfind =>
    obtain ⟨_, hfits, h⟩ := cmd_bind_ok.1 h
    have hpeak := List.find?_some hfind
    have hlag := lag_lt_of_mem_candidates (List.mem_of_find?_eq_some hfind)
    cases h
    refine ⟨lt_of_lt_of_le hlag (min_le_left ..), ?_, by simpa [sliceBits] using fits_eq_ok.1 hfits⟩
    simp only [isPeak, Bool.and_eq_true, decide_eq_true_eq] at hpeak
    exact hpeak.1

theorem scoreWord_toInt (g : ℚ) : (scoreWord g).toInt = max (-2 ^ 31) (min ⌊g * 65536⌋ (2 ^ 31 - 1)) := by
  have hfloor : (g * 65536).floor = ⌊g * 65536⌋ := rfl
  rw [scoreWord, hfloor]
  refine BitVec.toInt_ofInt_eq_self (by decide) (le_max_left ..) ?_
  have hmin : min ⌊g * 65536⌋ (2 ^ 31 - 1) ≤ (2 ^ 31 - 1 : Int) := min_le_right ..
  omega

/-- ACQ_SCORE of a score at or above a legal threshold is positive (R48). -/
theorem one_le_scoreWord {θ : Nat} {g : ℚ} (hθ : 1 ≤ θ) (hg : (θ : ℚ) / 65536 ≤ g) : 1 ≤ (scoreWord g).toInt := by
  have hθ' : (1 : ℚ) ≤ θ := by exact_mod_cast hθ
  have hfloor : 1 ≤ ⌊g * 65536⌋ := Int.le_floor.2 (by push_cast; linarith)
  rw [scoreWord_toInt]
  omega

/-! ### The command -/

section
variable {s : State}

theorem recoverClock_cfg_raise {e : CmdError} (he : acqCfgCheck s.cfg = raise e) :
    FailsWith .recoverClock s e.status := by
  show execRecoverClock s = _
  rw [execRecoverClock, he, raise_bind, commit_raise]
  rfl

/-- Behind the configuration check and the read of DISC, RECOVER_CLOCK is the check of the words and `recover`. -/
theorem execRecoverClock_eq {S : Nat} {ws : List Word} (hS : s.cfg.hasSps S) (hc : s.cfg.acqLegal)
    (hw : InputDisc s ws) : execRecoverClock s = commit s (do
      finiteCheck finite32 ws
      let a ← recover s.cfg s.bitCap S (ws.map val32)
      .ok { s.putOut 0 a.bits with acq := a.acq }) := by
  rw [execRecoverClock, acqCfgCheck_eq_ok.2 ⟨hS, hc⟩, cmd_ok_bind, discWords_eq_ok.2 hw, cmd_ok_bind]

variable {S : Nat} {ws : List Word}

theorem recoverClock_nonfinite (hS : s.cfg.hasSps S) (hc : s.cfg.acqLegal) (hw : InputDisc s ws)
    (hf : ∃ w ∈ ws, finite32 w = false) : FailsWith .recoverClock s 0x00010F01 := by
  show execRecoverClock s = _
  rw [execRecoverClock_eq hS hc hw, finiteCheck_raise hf, raise_bind, commit_raise]
  rfl

theorem recoverClock_recover_raise (hS : s.cfg.hasSps S) (hc : s.cfg.acqLegal) (hw : InputDisc s ws)
    (hf : ∀ w ∈ ws, finite32 w = true) {e : CmdError} (he : recover s.cfg s.bitCap S (ws.map val32) = raise e) :
    FailsWith .recoverClock s e.status := by
  show execRecoverClock s = _
  rw [execRecoverClock_eq hS hc hw, finiteCheck_of_all hf, cmd_ok_bind, he, raise_bind, commit_raise]
  rfl

theorem recoverClock_recover_ok (hS : s.cfg.hasSps S) (hc : s.cfg.acqLegal) (hw : InputDisc s ws)
    (hf : ∀ w ∈ ws, finite32 w = true) {a : Acquired} (ha : recover s.cfg s.bitCap S (ws.map val32) = .ok a) :
    exec .recoverClock s = .next (State.setStatus { s.putOut 0 a.bits with acq := a.acq } statusOk) := by
  show execRecoverClock s = _
  rw [execRecoverClock_eq hS hc hw, finiteCheck_of_all hf, cmd_ok_bind, ha, cmd_ok_bind, commit_ok]

end

/-- Settles O59: the errors are the checks that fail, in the order of R166; a success commits what `recover` answers,
whose score the threshold bounds from below. -/
theorem recoverClockWritesBitsAndAcquisition : Obligations.RecoverClockWritesBitsAndAcquisition := by
  refine ⟨fun s h => recoverClock_cfg_raise (acqCfgCheck_raise_sps h), fun s S hS =>
    ⟨fun hc => recoverClock_cfg_raise (acqCfgCheck_raise_threshold hS hc), fun ws hc hw =>
      ⟨recoverClock_nonfinite hS hc hw, fun hf =>
        ⟨fun e => recoverClock_recover_raise hS hc hw hf, fun a ha => ?_⟩⟩⟩⟩
  obtain ⟨hlag, hscore, hlen⟩ := recover_eq_ok ha
  have hlag32 : a.lag < 2 ^ 32 := hlag.trans s.cfg.acqWindow.isLt
  have hlen32 : a.bits.length < 2 ^ 32 := hlen.trans_lt s.caps.bits.isLt
  refine ⟨_, recoverClock_recover_ok hS hc hw hf ha, writes_bufPut .., ?_, ?_, scoreWord_toInt _,
    one_le_scoreWord hc.1.1 hscore, rfl, rfl, rfl⟩
  · simpa using Nat.mod_eq_of_lt hlen32
  · simpa [Acquired.acq] using Nat.mod_eq_of_lt hlag32

end Sys2Proof.Machine
end

section
/-! PROOFS. Host accesses: which of them are bus errors, what a read leaves unchanged, and how the six windows lay out
their buffers (R54 to R63). -/

namespace Sys2Proof.Machine

/-! ### Accesses that fault -/

theorem windowWord_eq_none {b : BufferId} {base used a : Nat} (h : ¬ (base ≤ a ∧ a < base + used)) :
    windowWord b base used a = none := if_neg h

theorem placeOf_eq_none {c : Caps} {a : Nat} (h : ¬ Mapped c a) : placeOf c a = none := by
  obtain ⟨hreg, hin, hout, hchr, hsin, hsout, hdisc⟩ := by simpa only [Mapped, not_or] using h
  rw [placeOf, if_neg hreg, windowWord_eq_none hin, windowWord_eq_none hout, windowWord_eq_none hchr,
    windowWord_eq_none hsin, windowWord_eq_none hsout, windowWord_eq_none hdisc]
  rfl

/-- An access that is not 32 bits wide, not aligned or not mapped is one of the three bus errors (R54, R55). -/
theorem access_eq_error {c : Caps} {addr : BitVec 19} {width : Nat}
    (h : width ≠ 32 ∨ addr.toNat % 4 ≠ 0 ∨ ¬ Mapped c addr.toNat) :
    ∃ f, (f = .busWidth width ∨ f = .busMisaligned addr ∨ f = .busUnmapped addr) ∧
      access c addr width = .error f := by
  unfold access
  by_cases hw : width ≠ 32
  · exact ⟨_, .inl rfl, if_pos hw⟩
  by_cases ha : addr.toNat % 4 ≠ 0
  · exact ⟨_, .inr (.inl rfl), by rw [if_neg hw, if_pos ha]⟩
  have hm : ¬ Mapped c addr.toNat := (h.resolve_left hw).resolve_left ha
  exact ⟨_, .inr (.inr rfl), by rw [if_neg hw, if_neg ha, placeOf_eq_none hm]⟩

section
variable {s : State} {addr : BitVec 19} {width : Nat} {f : Fault}

theorem perform_read_fault (h : access s.caps addr width = .error f) :
    perform (.read addr width) s = .fault f := by
  rw [perform, hostRead, h]

theorem perform_write_fault (h : access s.caps addr width = .error f) (v : Word) :
    perform (.write addr width v) s = .fault f := by
  rw [perform, hostWrite, h]

end

/-! ### Offsets of the register region -/

/-- R23's table lists the offsets of the registers. -/
theorem resetTable_offsets (c : Caps) : (resetTable c).map Prod.fst = allRegs.map Reg.offset := rfl

theorem mem_allRegs (r : Reg) : r ∈ allRegs := List.mem_of_find?_eq_some (regAt_offset r)

theorem regAt_eq_none {c : Caps} {off : Nat} (h : off ∉ (resetTable c).map Prod.fst) : regAt off = none := by
  rw [resetTable_offsets] at h
  exact List.find?_eq_none.2 fun r hr hoff => h (List.mem_map.2 ⟨r, hr, by simpa using hoff⟩)

/-- Settles O9: the access of a bus error reaches no place, and at an unlisted offset there is no register to read
or to write. -/
theorem busErrorsAndUnlistedOffsets : Obligations.BusErrorsAndUnlistedOffsets := by
  refine fun s addr width v => ⟨fun h => ?_, ?_⟩
  · obtain ⟨f, hf, ha⟩ := access_eq_error h
    exact ⟨f, hf, perform_read_fault ha, perform_write_fault ha v⟩
  · rintro rfl h4 hlt hoff
    have hnone := regAt_eq_none hoff
    have hcmd : addr.toNat ≠ 0x010 := fun he => hoff (he ▸ (by decide : 0x010 ∈ allRegs.map Reg.offset))
    have haddr : BitVec.ofNat 19 addr.toNat = addr := by rw [BitVec.ofNat_toNat, BitVec.setWidth_eq]
    have hread := hostRead_readAt (s := s) hlt h4
    have hwrite := perform_writeAt (s := s) hlt h4 hcmd v
    rw [haddr, State.readAt, hnone] at hread
    rw [haddr, writeAt_unlisted v hnone] at hwrite
    exact ⟨hread, hwrite⟩

/-! ### Reads change nothing -/

/-- No register shows the model's own record of the last read. -/
theorem regRead_setRdata (s : State) (x : Option Word) (r : Reg) : regRead { s with rdata := x } r = regRead s r := by
  cases r <;> rfl

theorem hostRead_setRdata (s : State) (x : Option Word) (addr : BitVec 19) (width : Nat) :
    hostRead addr width { s with rdata := x } = hostRead addr width s := by
  simp only [hostRead, regRead_setRdata]

theorem offset_mapped (r : Reg) : r.offset < 0x1000 ∧ r.offset % 4 = 0 := by cases r <;> decide

/-- R23's table outside reset lists each register with the value that it reads as. -/
theorem registerFields_eq (s : State) : registerFields s = allRegs.map fun r => (r.offset, regRead s r) := rfl

/-- Settles O10: a read stores only its value, which no read depends on, and the table of R23 is the register map. -/
theorem hostReadsArePureAndIdempotent : Obligations.HostReadsArePureAndIdempotent := by
  constructor
  · intro s t addr width h
    obtain ⟨v, rfl⟩ : ∃ v, t = { s with rdata := some v } := by
      cases performs_of_next h with
      | read _ v => exact ⟨v, rfl⟩
    exact ⟨v, rfl, (hostRead_setRdata s _ addr width).trans h⟩
  · intro s p hp
    rw [registerFields_eq] at hp
    obtain ⟨r, -, rfl⟩ := List.mem_map.1 hp
    obtain ⟨hlt, h4⟩ := offset_mapped r
    exact (readsAs_iff hlt h4).2 (readAt_register (regAt_offset r))

/-! ### Windows -/

/-- The address of a buffer's window (R52). -/
def windowBase : BufferId → Nat
  | .inp => 0x01000
  | .out => 0x02000
  | .chr => 0x03000
  | .sin => 0x10000
  | .sout => 0x30000
  | .disc => 0x50000

theorem windowWord_eq_window {b : BufferId} {base used k a : Nat} (ha : a = base + 4 * k) (h : 4 * k < used) :
    windowWord b base used a = some (.window b k) := by
  rw [windowWord, if_pos (by omega), ha, Nat.add_sub_cancel_left, Nat.mul_div_cancel_left _ (by decide)]

section
variable {c : Caps} {b : BufferId} {k a : Nat}

/-- In a legal build the windows do not overlap, so the address of a word inside one leads to that word. -/
theorem placeOf_window (hc : c.legal) (hk : windowFits c k b) (ha : a = windowBase b + 4 * k) :
    placeOf c a = some (.window b k) := by
  obtain ⟨⟨-, -, hbits⟩, ⟨-, -, hchr⟩, -, hsmp⟩ := hc
  unfold placeOf
  cases b with
  | inp =>
    simp only [windowBase, windowFits] at ha hk
    rw [if_neg (by omega), windowWord_eq_window ha (by omega)]
    rfl
  | out =>
    simp only [windowBase, windowFits] at ha hk
    rw [if_neg (by omega), windowWord_eq_none (by omega), windowWord_eq_window ha (by omega)]
    rfl
  | chr =>
    simp only [windowBase, windowFits] at ha hk
    rw [if_neg (by omega), windowWord_eq_none (by omega), windowWord_eq_none (by omega),
      windowWord_eq_window ha (by omega)]
    rfl
  | sin =>
    simp only [windowBase, windowFits] at ha hk
    rw [if_neg (by omega), windowWord_eq_none (by omega), windowWord_eq_none (by omega),
      windowWord_eq_none (by omega), windowWord_eq_window ha (by omega)]
    rfl
  | sout =>
    simp only [windowBase, windowFits] at ha hk
    rw [if_neg (by omega), windowWord_eq_none (by omega), windowWord_eq_none (by omega),
      windowWord_eq_none (by omega), windowWord_eq_none (by omega), windowWord_eq_window ha (by omega)]
    rfl
  | disc =>
    simp only [windowBase, windowFits] at ha hk
    rw [if_neg (by omega), windowWord_eq_none (by omega), windowWord_eq_none (by omega),
      windowWord_eq_none (by omega), windowWord_eq_none (by omega), windowWord_eq_none (by omega),
      windowWord_eq_window ha (by omega)]
    rfl

theorem windowAddress_lt (hc : c.legal) (hk : windowFits c k b) : windowBase b + 4 * k < 2 ^ 19 := by
  obtain ⟨⟨-, -, hbits⟩, ⟨-, -, hchr⟩, -, hsmp⟩ := hc
  cases b <;> simp only [windowBase, windowFits] at hk ⊢ <;> omega

theorem windowBase_aligned (b : BufferId) : windowBase b % 4 = 0 := by cases b <;> rfl

theorem access_window (hc : c.legal) (hk : windowFits c k b) (ha : a = windowBase b + 4 * k) :
    access c (BitVec.ofNat 19 a) 32 = .ok (.window b k) := by
  have haddr : (BitVec.ofNat 19 a).toNat = a := by
    rw [BitVec.toNat_ofNat, Nat.mod_eq_of_lt (ha ▸ windowAddress_lt hc hk)]
  have h4 := windowBase_aligned b
  rw [access, haddr, if_neg (by simp), if_neg (by omega), placeOf_window hc hk ha]

/-- The state after a host write of v to the word k of a window. -/
def State.putWindow (s : State) (b : BufferId) (k : Nat) (v : Word) : State :=
  { s with mem := windowWrite s.mem b k v }

/-- A host read inside a window returns the window word. -/
theorem readsAs_window (s : State) (b : BufferId) (hc : s.caps.legal) (hk : windowFits s.caps k b)
    (ha : a = windowBase b + 4 * k) {v : Word} (h : windowRead s.mem b k = .ok v) : ReadsAs s a v := by
  rw [ReadsAs, perform, hostRead, access_window hc hk ha]
  simp only [h]

/-- A host read inside a window that meets an unwritten element faults. -/
theorem perform_read_window_fault (s : State) (b : BufferId) (hc : s.caps.legal) (hk : windowFits s.caps k b)
    (ha : a = windowBase b + 4 * k) {f : Fault} (h : windowRead s.mem b k = .error f) :
    perform (.read (BitVec.ofNat 19 a) 32) s = .fault f := by
  rw [perform, hostRead, access_window hc hk ha]
  simp only [h]

/-- A host write inside a window writes the window word and nothing else. -/
theorem perform_write_window (s : State) (b : BufferId) (hc : s.caps.legal) (hk : windowFits s.caps k b)
    (ha : a = windowBase b + 4 * k) (v : Word) :
    perform (.write (BitVec.ofNat 19 a) 32 v) s = .next (s.putWindow b k v) := by
  rw [perform, hostWrite, access_window hc hk ha]
  rfl

end

/-- The state after host writes of both words of sample n, I before Q (R60). -/
def State.putSample (s : State) (b : BufferId) (n : Nat) (i q : Word) : State :=
  (s.putWindow b (2 * n) i).putWindow b (2 * n + 1) q

/-! ### Reads of unwritten elements -/

/-- A read of a block with an unwritten element faults at one such element (R63). -/
theorem readSeq_held_unwritten {α : Type} {id : BufferId} {b : Buf α} {i n k : Nat} (hk : k < n)
    (h : bufGet b (i + k) = none) :
    ∃ j, bufGet b j = none ∧ readSeq (held id b) i n = .error (.unwritten id j) := by
  cases hr : readSeq (held id b) i n with
  | ok xs =>
    obtain ⟨hl, hget⟩ := readSeq_eq_ok.1 hr
    have hsome := held_eq_ok.1 (hget k (hl ▸ hk))
    rw [h] at hsome
    cases hsome
  | error f =>
    obtain ⟨j, -, hj⟩ := readSeq_eq_error hr
    obtain ⟨hnone, rfl⟩ := held_eq_error.1 hj
    exact ⟨i + j, hnone, rfl⟩

/-- A read of either word of a sample that holds no value faults (R60, R63). -/
theorem samplePart_unwritten {id : BufferId} {b : Buf Word} {n w : Nat} (hw : w / 2 = n)
    (h : sampleGet b n = none) : samplePart id b w = .error (.unwritten id n) := by
  rw [samplePart, hw, heldSample_eq_error.2 ⟨h, rfl⟩, cmd_error_bind]

theorem samplePart_held {id : BufferId} {b : Buf Word} {n : Nat} {z : Sample} (h : sampleGet b n = some z) :
    samplePart id b (2 * n) = .ok z.1 ∧ samplePart id b (2 * n + 1) = .ok z.2 := by
  constructor
  · rw [samplePart, show 2 * n / 2 = n by omega, heldSample_eq_ok.2 h, cmd_ok_bind, if_pos (by omega)]
  · rw [samplePart, show (2 * n + 1) / 2 = n by omega, heldSample_eq_ok.2 h, cmd_ok_bind, if_neg (by omega)]

section
variable {m : Memory} {w k : Nat}

theorem windowRead_inp_unwritten (hk : k < 32) (h : bufGet m.inp (32 * w + k) = none) :
    ∃ j, bufGet m.inp j = none ∧ windowRead m .inp w = .error (.unwritten .inp j) := by
  obtain ⟨j, hj, hr⟩ := readSeq_held_unwritten (id := .inp) hk h
  exact ⟨j, hj, by rw [windowRead, hr, cmd_error_bind]⟩

theorem windowRead_out_unwritten (hk : k < 32) (h : bufGet m.out (32 * w + k) = none) :
    ∃ j, bufGet m.out j = none ∧ windowRead m .out w = .error (.unwritten .out j) := by
  obtain ⟨j, hj, hr⟩ := readSeq_held_unwritten (id := .out) hk h
  exact ⟨j, hj, by rw [windowRead, hr, cmd_error_bind]⟩

theorem windowRead_chr_unwritten (hk : k < 4) (h : bufGet m.chr (4 * w + k) = none) :
    ∃ j, bufGet m.chr j = none ∧ windowRead m .chr w = .error (.unwritten .chr j) := by
  obtain ⟨j, hj, hr⟩ := readSeq_held_unwritten (id := .chr) hk h
  exact ⟨j, hj, by rw [windowRead, hr, cmd_error_bind]⟩

end

/-- The word k of sample n, counted in bytes and in words from the base of a sample window (R60). -/
theorem sampleAddress (base n k : Nat) : base + 8 * n + 4 * k = base + 4 * (2 * n + k) := by omega

/-- Settles O11: the access reaches the window word, and the read of that word meets an unwritten element. -/
theorem unwrittenWindowReadsFault : Obligations.UnwrittenWindowReadsFault := by
  intro s w k hc
  refine ⟨fun hw hk => ⟨fun h => ?_, fun h => ?_⟩, fun hw hk h => ?_, fun hw hk =>
    ⟨fun h => ?_, fun h => ?_, fun h => ?_⟩⟩
  · obtain ⟨j, hj, hr⟩ := windowRead_inp_unwritten hk h
    exact ⟨j, hj, perform_read_window_fault s .inp hc hw rfl hr⟩
  · obtain ⟨j, hj, hr⟩ := windowRead_out_unwritten hk h
    exact ⟨j, hj, perform_read_window_fault s .out hc hw rfl hr⟩
  · obtain ⟨j, hj, hr⟩ := windowRead_chr_unwritten hk h
    exact ⟨j, hj, perform_read_window_fault s .chr hc hw rfl hr⟩
  · have hfits : windowFits s.caps (2 * w + k) .sin := show 2 * w + k < 2 * s.caps.smp.toNat by omega
    exact perform_read_window_fault s _ hc hfits (sampleAddress _ w k) (samplePart_unwritten (by omega) h)
  · have hfits : windowFits s.caps (2 * w + k) .sout := show 2 * w + k < 2 * s.caps.smp.toNat by omega
    exact perform_read_window_fault s _ hc hfits (sampleAddress _ w k) (samplePart_unwritten (by omega) h)
  · exact perform_read_window_fault s .disc hc hw rfl (held_eq_error.2 ⟨h, rfl⟩)

/-! ### Words as bits and characters -/

theorem bitsOfWord_getElem (v : Word) {k : Nat} (h : k < (bitsOfWord v).length) :
    (bitsOfWord v)[k] = v.getLsbD (31 - k) := by
  simp only [bitsOfWord, ubits, List.getElem_map, List.getElem_range]
  rfl

theorem wordOfBits_bitsOfWord (v : Word) : wordOfBits (bitsOfWord v) = v := by
  rw [wordOfBits, bitsOfWord, uval_ubits, Nat.mod_eq_of_lt v.isLt, BitVec.ofNat_toNat, BitVec.setWidth_eq]

/-- The bits of `ubits` from a on are the low bits of the number shifted right. -/
theorem slice_ubits {n v a l : Nat} (h : a + l ≤ n) :
    slice (ubits n v) a (a + l) = ubits l (v >>> (n - (a + l))) := by
  apply List.ext_getElem
  · simp [slice]; omega
  · intro i h1 h2
    have hi : i < l := by simpa using h2
    simp only [slice, ubits, List.getElem_take, List.getElem_drop, List.getElem_map, List.getElem_range,
      Nat.testBit_shiftRight]
    congr 1
    omega

theorem charsOfWord_getElem (v : Word) {k : Nat} (h : k < (charsOfWord v).length) :
    (charsOfWord v)[k] = v.extractLsb' (24 - 8 * k) 8 := by
  have hk : k < 4 := by simpa using h
  have hbyte : (charsOfWord v)[k] = byteAt (bitsOfWord v) k := by simp [charsOfWord, bytesOf]
  apply BitVec.eq_of_toNat_eq
  rw [hbyte, byteAt, bitsOfWord, slice_ubits (by omega), uval_ubits, BitVec.toNat_ofNat, Nat.mod_mod,
    BitVec.extractLsb'_toNat, show 32 - (8 * k + 8) = 24 - 8 * k by omega]

theorem ubits_byteAt {S : Bits} {k : Nat} (h : 8 * k + 8 ≤ S.length) :
    ubits 8 (byteAt S k).toNat = slice S (8 * k) (8 * k + 8) := by
  have hl : (slice S (8 * k) (8 * k + 8)).length = 8 := by simp [slice]; omega
  have hlt := uval_lt (slice S (8 * k) (8 * k + 8))
  have hbits := ubits_uval (slice S (8 * k) (8 * k + 8))
  rw [hl] at hlt hbits
  rw [byteAt, BitVec.toNat_ofNat, Nat.mod_eq_of_lt hlt, hbits]

theorem flatMap_byteAt {S : Bits} {n : Nat} (h : 8 * n ≤ S.length) :
    (List.range n).flatMap (fun k => ubits 8 (byteAt S k).toNat) = S.take (8 * n) := by
  induction n with
  | zero => rfl
  | succ n ih =>
    rw [List.range_succ, List.flatMap_append, ih (by omega), List.flatMap_singleton, ubits_byteAt (by omega), slice,
      Nat.add_sub_cancel_left, ← List.take_add]
    rfl

/-- The bytes of a sequence of whole bytes give back its bits (R81). -/
theorem bitsOfBytes_bytesOf {S : Bits} (h : S.length % 8 = 0) : bitsOfBytes (bytesOf S) = S := by
  rw [bitsOfBytes, bytesOf, List.flatMap_map, flatMap_byteAt (by omega), List.take_of_length_le (by omega)]

theorem wordOfChars_charsOfWord (v : Word) : wordOfChars (charsOfWord v) = v := by
  rw [wordOfChars, charsOfWord, bitsOfBytes_bytesOf (by simp)]
  exact wordOfBits_bitsOfWord v

/-! ### The bit and character windows -/

theorem readSeq_held {α : Type} {id : BufferId} {b : Buf α} {i n : Nat} {xs : List α} (hl : xs.length = n)
    (h : ∀ k, ∀ hk : k < xs.length, bufGet b (i + k) = some xs[k]) : readSeq (held id b) i n = .ok xs :=
  readSeq_eq_ok.2 ⟨hl, fun k hk => held_eq_ok.2 (h k hk)⟩

/-- A block of 32 bits that holds the bits of v reads as those bits (R58). -/
theorem readSeq_held_bits {id : BufferId} {b : Buf Bool} {i : Nat} {v : Word}
    (h : ∀ j, j < 32 → bufGet b (i + j) = some (v.getLsbD (31 - j))) :
    readSeq (held id b) i 32 = .ok (bitsOfWord v) :=
  readSeq_held (bitsOfWord_length v) fun k hk => by
    rw [bitsOfWord_getElem, h k (by simpa using hk)]

theorem readSeq_held_chars {id : BufferId} {b : Buf Byte} {i : Nat} {v : Word}
    (h : ∀ j, j < 4 → bufGet b (i + j) = some (v.extractLsb' (24 - 8 * j) 8)) :
    readSeq (held id b) i 4 = .ok (charsOfWord v) :=
  readSeq_held (charsOfWord_length v) fun k hk => by
    rw [charsOfWord_getElem, h k (by simpa using hk)]

section
variable {m : Memory} {w : Nat} {v : Word}

theorem windowRead_inp (h : ∀ j, j < 32 → bufGet m.inp (32 * w + j) = some (v.getLsbD (31 - j))) :
    windowRead m .inp w = .ok v := by
  rw [windowRead, readSeq_held_bits h, cmd_ok_bind, wordOfBits_bitsOfWord]

theorem windowRead_out (h : ∀ j, j < 32 → bufGet m.out (32 * w + j) = some (v.getLsbD (31 - j))) :
    windowRead m .out w = .ok v := by
  rw [windowRead, readSeq_held_bits h, cmd_ok_bind, wordOfBits_bitsOfWord]

theorem windowRead_chr (h : ∀ j, j < 4 → bufGet m.chr (4 * w + j) = some (v.extractLsb' (24 - 8 * j) 8)) :
    windowRead m .chr w = .ok v := by
  rw [windowRead, readSeq_held_chars h, cmd_ok_bind, wordOfChars_charsOfWord]

end

/-- A block write of the bits of v sets them and no other element (R58). -/
theorem bufPut_bitsOfWord (b : Buf Bool) (i : Nat) (v : Word) :
    (∀ j, j < 32 → bufGet (bufPut b i (bitsOfWord v)) (i + j) = some (v.getLsbD (31 - j))) ∧
      ∀ k, k < i ∨ i + 32 ≤ k → bufGet (bufPut b i (bitsOfWord v)) k = bufGet b k := by
  obtain ⟨hset, hkeep⟩ := writes_bufPut b i (bitsOfWord v)
  refine ⟨fun j hj => ?_, fun k hk => hkeep k (by simpa using hk)⟩
  rw [hset j (by simpa using hj), bitsOfWord_getElem]

/-- A block write of the characters of v sets them and no other element (R59). -/
theorem bufPut_charsOfWord (b : Buf Byte) (i : Nat) (v : Word) :
    (∀ j, j < 4 → bufGet (bufPut b i (charsOfWord v)) (i + j) = some (v.extractLsb' (24 - 8 * j) 8)) ∧
      ∀ k, k < i ∨ i + 4 ≤ k → bufGet (bufPut b i (charsOfWord v)) k = bufGet b k := by
  obtain ⟨hset, hkeep⟩ := writes_bufPut b i (charsOfWord v)
  refine ⟨fun j hj => ?_, fun k hk => hkeep k (by simpa using hk)⟩
  rw [hset j (by simpa using hj), charsOfWord_getElem]

/-- Settles O13: the access reaches the window word, whose block is read and written as the bits or characters of
the word. -/
theorem bitAndCharWindowWrites : Obligations.BitAndCharWindowWrites := by
  refine fun s w v hc => ⟨fun hw => ⟨fun h => ?_, fun h => ?_, ?_, ?_⟩, fun hw => ⟨fun h => ?_, ?_⟩⟩
  · exact readsAs_window s .inp hc hw rfl (windowRead_inp h)
  · exact readsAs_window s .out hc hw rfl (windowRead_out h)
  · obtain ⟨hset, hkeep⟩ := bufPut_bitsOfWord s.mem.inp (32 * w) v
    exact ⟨_, perform_write_window s .inp hc hw rfl v, hset, hkeep, rfl⟩
  · obtain ⟨hset, hkeep⟩ := bufPut_bitsOfWord s.mem.out (32 * w) v
    exact ⟨_, perform_write_window s .out hc hw rfl v, hset, hkeep, rfl⟩
  · exact readsAs_window s .chr hc hw rfl (windowRead_chr h)
  · obtain ⟨hset, hkeep⟩ := bufPut_charsOfWord s.mem.chr (4 * w) v
    exact ⟨_, perform_write_window s .chr hc hw rfl v, hset, hkeep, rfl⟩

/-! ### The sample windows -/

theorem sampleGet_eq_none_of_q {b : Buf Word} {n : Nat} (h : bufGet b (2 * n + 1) = none) : sampleGet b n = none := by
  rw [sampleGet, h]
  cases bufGet b (2 * n) <;> rfl

theorem sampleGet_congr {b b' : Buf Word} {n : Nat} (hi : bufGet b' (2 * n) = bufGet b (2 * n))
    (hq : bufGet b' (2 * n + 1) = bufGet b (2 * n + 1)) : sampleGet b' n = sampleGet b n := by
  rw [sampleGet, sampleGet, hi, hq]

section
variable (b : Buf Word) (n : Nat) (i q : Word)

/-- Writing I alone gives the sample no value while Q is missing (R60). -/
theorem sampleGet_bufSet_i (h : bufGet b (2 * n + 1) = none) : sampleGet (bufSet b (2 * n) i) n = none :=
  sampleGet_eq_none_of_q (by rw [bufGet_bufSet, if_neg (by omega), h])

/-- Writing I and Q gives the sample its value (R60). -/
theorem sampleGet_bufSet_pair : sampleGet (bufSet (bufSet b (2 * n) i) (2 * n + 1) q) n = some (i, q) := by
  have hi : bufGet (bufSet (bufSet b (2 * n) i) (2 * n + 1) q) (2 * n) = some i := by
    rw [bufGet_bufSet, if_neg (by omega), bufGet_bufSet, if_pos rfl]
  have hq : bufGet (bufSet (bufSet b (2 * n) i) (2 * n + 1) q) (2 * n + 1) = some q := by
    rw [bufGet_bufSet, if_pos rfl]
  rw [sampleGet, hi, hq]

/-- Writing I and Q of one sample leaves every other sample as it was. -/
theorem sampleGet_bufSet_pair_of_ne {k : Nat} (h : k ≠ n) :
    sampleGet (bufSet (bufSet b (2 * n) i) (2 * n + 1) q) k = sampleGet b k := by
  apply sampleGet_congr
  · rw [bufGet_bufSet, if_neg (by omega), bufGet_bufSet, if_neg (by omega)]
  · rw [bufGet_bufSet, if_neg (by omega), bufGet_bufSet, if_neg (by omega)]

end

/-- Settles O14: I and Q of sample n are the window words 2n and 2n + 1, and a sample is read through both. -/
theorem sampleWindowWrites : Obligations.SampleWindowWrites := by
  intro s n i q hn hc
  have hi : 2 * n < 2 * s.caps.smp.toNat := by omega
  have hq : 2 * n + 1 < 2 * s.caps.smp.toNat := by omega
  have hai (base : Nat) : base + 8 * n = base + 4 * (2 * n) := sampleAddress base n 0
  have haq (base : Nat) : base + 8 * n + 4 = base + 4 * (2 * n + 1) := sampleAddress base n 1
  refine ⟨?_, ?_, ?_⟩
  · have hpair : sampleGet (s.putSample .sin n i q).mem.sin n = some (i, q) := sampleGet_bufSet_pair ..
    obtain ⟨hreadI, hreadQ⟩ := samplePart_held (id := .sin) hpair
    exact ⟨s.putWindow .sin (2 * n) i, s.putSample .sin n i q, perform_write_window s .sin hc hi (hai _) i,
      perform_write_window (s.putWindow .sin (2 * n) i) .sin hc hq (haq _) q,
      fun h => perform_read_window_fault (s.putWindow .sin (2 * n) i) .sin hc hi (hai _)
        (samplePart_unwritten (by omega) (sampleGet_bufSet_i _ n i h)),
      hpair, fun _ => sampleGet_bufSet_pair_of_ne _ n i q, rfl,
      readsAs_window (s.putSample .sin n i q) .sin hc hi (hai _) hreadI,
      readsAs_window (s.putSample .sin n i q) .sin hc hq (haq _) hreadQ⟩
  · have hpair : sampleGet (s.putSample .sout n i q).mem.sout n = some (i, q) := sampleGet_bufSet_pair ..
    obtain ⟨hreadI, hreadQ⟩ := samplePart_held (id := .sout) hpair
    exact ⟨s.putWindow .sout (2 * n) i, s.putSample .sout n i q, perform_write_window s .sout hc hi (hai _) i,
      perform_write_window (s.putWindow .sout (2 * n) i) .sout hc hq (haq _) q,
      fun h => perform_read_window_fault (s.putWindow .sout (2 * n) i) .sout hc hi (hai _)
        (samplePart_unwritten (by omega) (sampleGet_bufSet_i _ n i h)),
      hpair, fun _ => sampleGet_bufSet_pair_of_ne _ n i q, rfl,
      readsAs_window (s.putSample .sout n i q) .sout hc hi (hai _) hreadI,
      readsAs_window (s.putSample .sout n i q) .sout hc hq (haq _) hreadQ⟩
  · have hget : bufGet (s.putWindow .disc n i).mem.disc n = some i := (bufGet_bufSet ..).trans (if_pos rfl)
    exact ⟨s.putWindow .disc n i, perform_write_window s .disc hc hn rfl i, hget,
      fun k hk => (bufGet_bufSet ..).trans (if_neg hk), rfl,
      readsAs_window (s.putWindow .disc n i) .disc hc hn rfl (held_eq_ok.2 hget)⟩

end Sys2Proof.Machine
end

section
/-! PROOFS. The frame of every command: which parts of the state each command leaves as they are (R64, R172, R202). -/

namespace Sys2Proof.Machine

section
variable {s t u : State} {i : Instr} {g : Target}

theorem Target.same_refl (g : Target) (s : State) : g.same s s := by
  cases g <;> simp [Target.same]

/-- STATUS is no part that a Writes line lists. -/
theorem Target.same_setStatus (w : Word) (h : g.same s u) : g.same s (u.setStatus w) := by
  cases g <;> exact h

/-- A command that succeeds writes only the parts that its Writes line lists: the commands named under a part are
those that write it. -/
theorem Commits.same_of_notMem_writeSet (h : Commits s i u) (hg : g ∉ writeSet i) : g.same s u := by
  cases g with
  | inp =>
    cases h with
    | moveOutIn => simp [writeSet] at hg
    | _ => simp [Target.same]
  | out =>
    cases h with
    | unpackBytes | reverseBytes | crcAppend | stuffBit | destuffDrop | destuffKeep | stuffBuf | destuffBuf
    | buildFrame | extractPayload | deframe | nrziEncBit | nrziDecBit | nrziEncBuf | nrziDecBuf | encodePos
    | dearmor | transmit | recoverClock | receive => simp [writeSet] at hg
    | _ => simp [Target.same]
  | chr =>
    cases h with
    | packBytes | armor => simp [writeSet] at hg
    | _ => simp [Target.same]
  | sin =>
    cases h with
    | moveSoutSin => simp [writeSet] at hg
    | _ => simp [Target.same]
  | sout =>
    cases h with
    | modulate | transmit => simp [writeSet] at hg
    | _ => simp [Target.same]
  | disc =>
    cases h with
    | demodulate | receive => simp [writeSet] at hg
    | _ => simp [Target.same]
  | fillBits =>
    cases h with
    | armor => simp [writeSet] at hg
    | _ => simp [Target.same]
  | crcReg =>
    cases h with
    | crcInit | crcBit | crcByte => simp [writeSet] at hg
    | _ => simp [Target.same]
  | stuffCnt =>
    cases h with
    | stuffReset | stuffBit => simp [writeSet] at hg
    | _ => simp [Target.same]
  | destuffCnt =>
    cases h with
    | stuffReset | destuffDrop | destuffKeep => simp [writeSet] at hg
    | _ => simp [Target.same]
  | nrziEncLevel =>
    cases h with
    | nrziReset | nrziEncBit => simp [writeSet] at hg
    | _ => simp [Target.same]
  | nrziDecPrev =>
    cases h with
    | nrziReset | nrziDecBit => simp [writeSet] at hg
    | _ => simp [Target.same]
  | crcValue =>
    cases h with
    | crcBuf | crcBufBytes | crcAppend | crcCheck | crcSelftest | deframe | receive => simp [writeSet] at hg
    | _ => simp [Target.same]
  | crcRx =>
    cases h with
    | crcCheck | deframe | receive => simp [writeSet] at hg
    | _ => simp [Target.same]
  | flagPos =>
    cases h with
    | findFlag | findFlagFuzzy => simp [writeSet] at hg
    | _ => simp [Target.same]
  | framePos =>
    cases h with
    | extractPayload | deframe | receive => simp [writeSet] at hg
    | _ => simp [Target.same]
  | result =>
    cases h with
    | six2ascii | ascii2six => simp [writeSet] at hg
    | _ => simp [Target.same]
  | acq =>
    cases h with
    | recoverClock | receive => simp [writeSet] at hg
    | _ => simp [Target.same]
  | rx =>
    cases h with
    | decodePos | receive => simp [writeSet] at hg
    | _ => simp [Target.same]

/-- An error leaves every part as it was, FLAG_POS of a flag search apart (R172). -/
theorem Leaves.same_of_notMem_writeSet (h : Leaves s i u) (hg : g ∉ writeSet i) : g.same s u := by
  cases h with
  | same => exact g.same_refl s
  | findFlag | findFlagFuzzy =>
    cases g with
    | flagPos => simp [writeSet] at hg
    | _ => simp [Target.same]

theorem EndsIn.same_of_notMem_writeSet (h : EndsIn s i t) (hg : g ∉ writeSet i) : g.same s t := by
  cases h with
  | success u hu => exact Target.same_setStatus _ (hu.same_of_notMem_writeSet hg)
  | error e _ u hu => exact Target.same_setStatus _ (hu.same_of_notMem_writeSet hg)

/-- t keeps what no command writes: the capacities, CMD, the configuration and VS registers and the model's own
fields. -/
def State.Keeps (s t : State) : Prop :=
  t.caps = s.caps ∧ t.cmd = s.cmd ∧ t.cfg = s.cfg ∧ t.vs = s.vs ∧ t.port = s.port ∧ t.rdata = s.rdata ∧
    t.tick = s.tick

theorem Commits.keeps (h : Commits s i u) : s.Keeps u := by
  cases h <;> simp [State.Keeps]

theorem Leaves.keeps (h : Leaves s i u) : s.Keeps u := by
  cases h <;> simp [State.Keeps]

theorem EndsIn.keeps (h : EndsIn s i t) : s.Keeps t := by
  cases h with
  | success u hu => exact hu.keeps
  | error e _ u hu => exact hu.keeps

end

/-- Settles O15: a command that ends has committed its result or left its error, and neither touches more than the
Writes line lists. -/
theorem commandsWriteOnlyWhatTheirRulesList : Obligations.CommandsWriteOnlyWhatTheirRulesList := by
  intro i s t h
  have hends := exec_endsIn h
  exact ⟨fun _ => hends.same_of_notMem_writeSet, hends.keeps⟩

end Sys2Proof.Machine
end

section
/-! PROOFS. How a command can stop: the one model fault it knows is that of an element which is unwritten below its
length register (R63, R201, R204). -/

namespace Sys2Proof.Machine

/-! ### A rule of reasoning for model faults -/

/-- Every model fault that the computation x can end in satisfies F. -/
def FaultsOnly {α : Type} (x : Cmd α) (F : Fault → Prop) : Prop := ∀ f, x = .error (.fault f) → F f

section
variable {α β : Type} {F : Fault → Prop}

theorem faultsOnly_ok {a : α} : FaultsOnly (.ok a) F := nofun

theorem faultsOnly_raise {e : CmdError} : FaultsOnly (raise e : Cmd α) F := nofun

theorem FaultsOnly.bind {x : Cmd α} {f : α → Cmd β} (hx : FaultsOnly x F)
    (hf : ∀ a, x = .ok a → FaultsOnly (f a) F) : FaultsOnly (x >>= f) F := by
  intro g hg
  rcases cmd_bind_error.1 hg with hg | ⟨a, ha, hg⟩
  · exact hx g hg
  · exact hf a ha g hg

theorem FaultsOnly.mono {x : Cmd α} {G : Fault → Prop} (hx : FaultsOnly x F) (h : ∀ f, F f → G f) :
    FaultsOnly x G := fun f hf => h f (hx f hf)

theorem faultsOnly_ite {c : Prop} [Decidable c] {x y : Cmd α} (hx : c → FaultsOnly x F)
    (hy : ¬ c → FaultsOnly y F) : FaultsOnly (if c then x else y) F := by
  split_ifs with hc
  · exact hx hc
  · exact hy hc

theorem faultsOnly_require {c : Bool} {e : CmdError} : FaultsOnly (require c e) F := by
  cases c <;> exact nofun

theorem faultsOnly_fits {n cap : Nat} {e : CmdError} : FaultsOnly (fits n cap e) F := faultsOnly_require

theorem faultsOnly_readSeq {get : Nat → Cmd α} {i n : Nat} (h : ∀ k < n, FaultsOnly (get (i + k)) F) :
    FaultsOnly (readSeq get i n) F := by
  intro f hf
  obtain ⟨k, hk, he⟩ := readSeq_eq_error hf
  exact h k hk f he

theorem faultsOnly_foldlM {f : β → α → Cmd β} {l : List α} (h : ∀ a ∈ l, ∀ b, FaultsOnly (f b a) F) (b : β) :
    FaultsOnly (l.foldlM f b) F := by
  induction l generalizing b with
  | nil => exact faultsOnly_ok
  | cons a l ih =>
    exact (h a (.head _) b).bind fun b' _ => ih (fun a' ha' => h a' (.tail _ ha')) b'

/-! ### Computations that read nothing -/

theorem faultsOnly_spsCheck (c : Cfg) : FaultsOnly (spsCheck c) F :=
  faultsOnly_require.bind fun _ _ => faultsOnly_require.bind fun _ _ => faultsOnly_ok

theorem faultsOnly_filterCheck (c : Cfg) : FaultsOnly (filterCheck c) F :=
  faultsOnly_require.bind fun _ _ => faultsOnly_require

theorem faultsOnly_modCfgCheck (c : Cfg) : FaultsOnly (modCfgCheck c) F :=
  (faultsOnly_spsCheck c).bind fun _ _ => faultsOnly_ite
    (fun _ => (faultsOnly_filterCheck c).bind fun _ _ => faultsOnly_ok)
    fun _ => faultsOnly_require.bind fun _ _ => faultsOnly_ok

theorem faultsOnly_discCfgCheck (c : Cfg) : FaultsOnly (discCfgCheck c) F := by
  refine (faultsOnly_spsCheck c).bind fun S _ => ?_
  have hfilter : FaultsOnly (if c.lpfEn then filterCheck c >>= fun _ => .ok S else .ok S) F :=
    faultsOnly_ite (fun _ => (faultsOnly_filterCheck c).bind fun _ _ => faultsOnly_ok) fun _ => faultsOnly_ok
  exact faultsOnly_ite (fun _ => hfilter) fun _ => faultsOnly_require.bind fun _ _ => hfilter

theorem faultsOnly_acqCfgCheck (c : Cfg) : FaultsOnly (acqCfgCheck c) F :=
  (faultsOnly_spsCheck c).bind fun _ _ => faultsOnly_require.bind fun _ _ => faultsOnly_ok

theorem faultsOnly_posEncode (v : Vessel) : FaultsOnly (posEncode v) F := by
  have hcheck : FaultsOnly (posCheck v) F :=
    faultsOnly_require.bind fun _ _ => faultsOnly_require.bind fun _ _ => faultsOnly_require.bind fun _ _ =>
      faultsOnly_require.bind fun _ _ => faultsOnly_require.bind fun _ _ => faultsOnly_require
  exact hcheck.bind fun _ _ => faultsOnly_ok

theorem faultsOnly_sixOf (c : Byte) : FaultsOnly (sixOf c) F := by
  unfold sixOf
  cases ascii2six c with
  | none => exact faultsOnly_raise
  | some v => exact faultsOnly_ok

theorem faultsOnly_destuff (x : Bits) : FaultsOnly (destuff x) F := by
  suffices ∀ c, FaultsOnly (destuffFrom c x) F from this 0
  induction x with
  | nil => exact fun c => faultsOnly_ok
  | cons b x ih =>
    exact fun c => faultsOnly_ite (fun _ => faultsOnly_ite (fun _ => faultsOnly_raise) fun _ => ih 0)
      fun _ => (ih _).bind fun _ _ => faultsOnly_ok

theorem faultsOnly_recover (c : Cfg) (cap S : Nat) (D : List ℚ) : FaultsOnly (recover c cap S D) F := by
  refine faultsOnly_require.bind fun _ _ => ?_
  dsimp only
  split
  · exact faultsOnly_raise
  · exact faultsOnly_fits.bind fun _ _ => faultsOnly_ok

end

/-! ### Reads of an on-air sequence -/

/-- The fault of an element inside the on-air sequence B that holds no value. -/
def Hole (B : List (Option Bool)) (f : Fault) : Prop := ∃ k, B[k]? = some none ∧ f = .unwritten .inp k

/-- A sequence whose elements all hold values has no hole. -/
theorem not_hole_map_some (B : Bits) (f : Fault) : ¬ Hole (B.map some) f := by
  rintro ⟨k, hk, -⟩
  simp at hk

section
variable {B : List (Option Bool)}

theorem faultsOnly_airBit {i : Nat} (h : i < B.length) : FaultsOnly (airBit B i) (Hole B) := by
  unfold airBit
  rw [List.getD_eq_getElem _ _ h]
  cases hb : B[i] with
  | some b => exact nofun
  | none =>
    rintro f ⟨⟩
    exact ⟨i, by rw [List.getElem?_eq_getElem h, hb], rfl⟩

theorem faultsOnly_airBits {i n : Nat} (h : ∀ k < n, i + k < B.length) : FaultsOnly (airBits B i n) (Hole B) :=
  faultsOnly_readSeq fun k hk => faultsOnly_airBit (h k hk)

/-- The payload loop reads on through the rest of the sequence from on-air index i. -/
theorem faultsOnly_takePayload {R : List (Option Bool)} {prev : Bool} {c need i : Nat} (h : R = B.drop i) :
    FaultsOnly (takePayload prev c need i R) (Hole B) := by
  induction R generalizing prev c need i with
  | nil => exact faultsOnly_ite (fun _ => faultsOnly_ok) fun _ => faultsOnly_raise
  | cons y R ih =>
    have hy : B[i]? = some y := by rw [← List.head?_drop, ← h]; rfl
    have hR : R = B.drop (i + 1) := by rw [← List.tail_drop, ← h]; rfl
    refine faultsOnly_ite (fun _ => faultsOnly_ok) fun _ => FaultsOnly.bind ?_ fun b _ => ?_
    · cases y with
      | none =>
        rintro f ⟨⟩
        exact ⟨i, hy, rfl⟩
      | some b => exact faultsOnly_ok
    · exact faultsOnly_ite (fun _ => faultsOnly_ite (fun _ => faultsOnly_raise) fun _ => ih hR)
        fun _ => (ih hR).bind fun _ _ => faultsOnly_ok

theorem faultsOnly_scanStep (c : Cfg) (a : Scan) {t : Nat} (h : t + 32 ≤ B.length) :
    FaultsOnly (scanStep c B a t) (Hole B) :=
  (faultsOnly_airBits fun _ _ => by omega).bind fun _ _ => faultsOnly_ite (fun _ => faultsOnly_ok) fun _ =>
    (faultsOnly_airBits fun _ _ => by omega).bind fun _ _ =>
      faultsOnly_ite (fun _ => faultsOnly_ok) fun _ => faultsOnly_ok

/-- The search for the frame start stays inside the sequence (R114). -/
theorem faultsOnly_scanFrame (c : Cfg) (h : 32 ≤ B.length) : FaultsOnly (scanFrame c B) (Hole B) :=
  faultsOnly_foldlM (fun t ht a => faultsOnly_scanStep c a (by have := List.mem_range.1 ht; omega)) _

theorem faultsOnly_locate (c : Cfg) : FaultsOnly (locate c B) (Hole B) := by
  refine faultsOnly_require.bind fun _ hlen => ?_
  have h208 : 208 ≤ B.length := of_decide_eq_true (require_eq_ok.1 hlen)
  refine (faultsOnly_scanFrame c (by omega)).bind fun a _ => ?_
  rcases a.best with _ | ⟨p, sc⟩
  · exact faultsOnly_ite (fun _ => faultsOnly_raise) fun _ => faultsOnly_raise
  · refine (faultsOnly_takePayload rfl).bind fun pe _ => faultsOnly_require.bind fun _ hend => ?_
    have he : pe.2 + 8 ≤ B.length := of_decide_eq_true (require_eq_ok.1 hend)
    exact (faultsOnly_airBits fun _ _ => by omega).bind fun _ _ => faultsOnly_require.bind fun _ _ => faultsOnly_ok

theorem faultsOnly_deframeFn (c : Cfg) : FaultsOnly (deframeFn c B) (Hole B) :=
  (faultsOnly_locate c).bind fun _ _ => faultsOnly_require.bind fun _ _ => faultsOnly_ok

theorem faultsOnly_flagScan {k i n : Nat} (h : ∀ j < n, i + j + 8 ≤ B.length) :
    FaultsOnly (flagScan B k i n) (Hole B) := by
  induction n generalizing i with
  | zero => exact faultsOnly_ok
  | succ n ih =>
    have h0 := h 0 (by omega)
    refine (faultsOnly_airBits fun _ _ => by omega).bind fun _ _ => faultsOnly_ite (fun _ => faultsOnly_ok)
      fun _ => ih fun j hj => ?_
    have hj' := h (j + 1) (by omega)
    omega

end

/-- A message built by the machine holds a value at every bit, so that deframing it faults nowhere. -/
theorem faultsOnly_deframeFn_map_some {F : Fault → Prop} (c : Cfg) (B : Bits) :
    FaultsOnly (deframeFn c (B.map some)) F :=
  (faultsOnly_deframeFn c).mono fun f hf => absurd hf (not_hole_map_some B f)

theorem faultsOnly_loopbackCheck {F : Fault → Prop} (c : Cfg) (v : Vessel) (fr : Bits) :
    FaultsOnly (loopbackCheck c v fr) F := by
  unfold loopbackCheck
  split
  next f hf => exact fun _ _ => absurd hf (faultsOnly_deframeFn_map_some (F := fun _ => False) c fr f)
  next => exact faultsOnly_raise
  next => exact faultsOnly_require

/-! ### Reads below a length register -/

/-- The fault names an element that is unwritten below its length register. -/
def State.Lacks (s : State) (f : Fault) : Prop := ∃ b k, f = .unwritten b k ∧ s.missing b k

section
variable (s : State)

theorem faultsOnly_memReads {α : Type} {id : BufferId} {b : Buf α} {n : Nat}
    (h : ∀ k < n, bufGet b k = none → s.missing id k) : FaultsOnly (readSeq (memRead id b) 0 n) s.Lacks := by
  intro f hf
  obtain ⟨k, -, hk, hnone, he⟩ := readSeq_memRead_error hf
  cases he
  exact ⟨id, k, rfl, h k (by omega) hnone⟩

theorem faultsOnly_sampleReads {id : BufferId} {b : Buf Word} {n : Nat}
    (h : ∀ k < n, sampleGet b k = none → s.missing id k) : FaultsOnly (readSeq (sampleRead id b) 0 n) s.Lacks := by
  intro f hf
  obtain ⟨k, -, hk, hnone, he⟩ := readSeq_sampleRead_error hf
  cases he
  exact ⟨id, k, rfl, h k (by omega) hnone⟩

theorem faultsOnly_inFirst {n : Nat} (h : n ≤ s.inLen.toNat) : FaultsOnly (s.inFirst n) s.Lacks :=
  faultsOnly_memReads s fun _ hk hnone => ⟨lt_of_lt_of_le hk h, hnone⟩

theorem faultsOnly_inBits : FaultsOnly s.inBits s.Lacks := faultsOnly_inFirst s le_rfl

theorem faultsOnly_outBits : FaultsOnly s.outBits s.Lacks := faultsOnly_memReads s fun _ hk hnone => ⟨hk, hnone⟩

theorem faultsOnly_chars : FaultsOnly s.chars s.Lacks := faultsOnly_memReads s fun _ hk hnone => ⟨hk, hnone⟩

theorem faultsOnly_sinSamples : FaultsOnly s.sinSamples s.Lacks :=
  faultsOnly_sampleReads s fun _ hk hnone => ⟨hk, hnone⟩

theorem faultsOnly_soutSamples : FaultsOnly s.soutSamples s.Lacks :=
  faultsOnly_sampleReads s fun _ hk hnone => ⟨hk, hnone⟩

theorem faultsOnly_discWords : FaultsOnly s.discWords s.Lacks :=
  faultsOnly_memReads s fun _ hk hnone => ⟨hk, hnone⟩

theorem faultsOnly_chrSix {k : Nat} (h : k < s.chrLen.toNat) : FaultsOnly (chrSix s k) s.Lacks := by
  refine FaultsOnly.bind (fun f hf => ?_) fun c _ => faultsOnly_sixOf c
  obtain ⟨hnone, he⟩ := memRead_eq_error.1 hf
  cases he
  exact ⟨.chr, k, rfl, h, hnone⟩

/-- A hole of `IN[0..IN_LEN)` is an unwritten element below IN_LEN. -/
theorem lacks_of_hole {f : Fault} (h : Hole s.inSnapshot f) : s.Lacks f := by
  obtain ⟨k, hk, rfl⟩ := h
  obtain ⟨hlt, hget⟩ := List.getElem?_eq_some_iff.1 hk
  have hlen : k < s.inLen.toNat := by simpa [State.inSnapshot] using hlt
  exact ⟨.inp, k, rfl, hlen, by simpa [State.inSnapshot, snapshot] using hget⟩

theorem faultsOnly_findFlagFrom (k : Nat) : FaultsOnly (findFlagFrom s k) s.Lacks := by
  refine (faultsOnly_flagScan fun j hj => ?_).mono fun _ => lacks_of_hole s
  have hlen : s.inSnapshot.length = s.inLen.toNat := snapshot_length ..
  omega

theorem faultsOnly_locate_in : FaultsOnly (locate s.cfg s.inSnapshot) s.Lacks :=
  (faultsOnly_locate s.cfg).mono fun _ => lacks_of_hole s

theorem faultsOnly_deframeFn_in : FaultsOnly (deframeFn s.cfg s.inSnapshot) s.Lacks :=
  (faultsOnly_deframeFn s.cfg).mono fun _ => lacks_of_hole s

/-- The payload that EXTRACT_PAYLOAD copies lies inside the sequence in which it was located. -/
theorem faultsOnly_locatedBits {l : Located} (hl : locate s.cfg s.inSnapshot = .ok l) :
    FaultsOnly (airBits s.inSnapshot l.q (l.e - l.q)) s.Lacks := by
  have hend : l.e + 8 ≤ s.inSnapshot.length :=
    (ends_locate (E := fun _ => True) s.cfg s.inSnapshot fun _ _ => trivial).1 l hl
  exact (faultsOnly_airBits fun _ _ => by omega).mono fun _ => lacks_of_hole s

end

/-! ### Every command -/

/-- The outcome is a next state, or the fault of an element that is unwritten below its length register. -/
def State.Answers (s : State) (o : Host.Outcome State Fault Refusal) : Prop :=
  (∃ t, o = .next t) ∨ ∃ b k, o = .fault (.unwritten b k) ∧ s.missing b k

section
variable {s : State}

theorem commit_answers {r : Cmd State} (h : FaultsOnly r s.Lacks) : s.Answers (commit s r) := by
  cases r with
  | ok u => exact .inl ⟨_, rfl⟩
  | error x =>
    cases x with
    | raise e => exact .inl ⟨_, rfl⟩
    | fault f =>
      obtain ⟨b, k, rfl, hm⟩ := h f rfl
      exact .inr ⟨b, k, rfl, hm⟩

theorem endSearch_answers {r : Cmd (Option Nat)} (h : FaultsOnly r s.Lacks) : s.Answers (endSearch s r) := by
  cases r with
  | ok x => cases x <;> exact .inl ⟨_, rfl⟩
  | error x =>
    cases x with
    | raise e => exact .inl ⟨_, rfl⟩
    | fault f =>
      obtain ⟨b, k, rfl, hm⟩ := h f rfl
      exact .inr ⟨b, k, rfl, hm⟩

variable (s)

theorem execSelftestLoopback_answers : s.Answers (execSelftestLoopback s) :=
  commit_answers ((faultsOnly_posEncode s.vs).bind fun _ _ => faultsOnly_require.bind fun _ _ =>
    (faultsOnly_loopbackCheck _ _ _).bind fun _ _ => faultsOnly_ok)

theorem execDestuffBit_answers (imm : Byte) : s.Answers (execDestuffBit imm s) :=
  commit_answers (faultsOnly_ite
    (fun _ => faultsOnly_ite (fun _ => faultsOnly_raise) fun _ => faultsOnly_ok)
    fun _ => faultsOnly_fits.bind fun _ _ => faultsOnly_ok)

theorem execExtractPayload_answers : s.Answers (execExtractPayload s) :=
  commit_answers (faultsOnly_require.bind fun _ _ => (faultsOnly_locate_in s).bind fun _ hl =>
    (faultsOnly_locatedBits s hl).bind fun _ _ => faultsOnly_ok)

theorem execDeframe_answers : s.Answers (execDeframe s) :=
  commit_answers (faultsOnly_require.bind fun _ _ => (faultsOnly_deframeFn_in s).bind fun _ _ => faultsOnly_ok)

theorem execDecodePos_answers : s.Answers (execDecodePos s) :=
  commit_answers (faultsOnly_require.bind fun _ hlen =>
    (faultsOnly_inFirst s (of_decide_eq_true (require_eq_ok.1 hlen))).bind fun _ _ =>
    faultsOnly_require.bind fun _ _ => faultsOnly_ok)

theorem execDearmor_answers : s.Answers (execDearmor s) := by
  have hread : FaultsOnly (readSeq (chrSix s) 0 s.chrLen.toNat) s.Lacks :=
    faultsOnly_readSeq fun k hk => faultsOnly_chrSix s (by omega)
  exact commit_answers (faultsOnly_require.bind fun _ _ => hread.bind fun _ _ =>
    faultsOnly_fits.bind fun _ _ => faultsOnly_ok)

theorem execRecoverClock_answers : s.Answers (execRecoverClock s) :=
  commit_answers ((faultsOnly_acqCfgCheck s.cfg).bind fun _ _ => (faultsOnly_discWords s).bind fun _ _ =>
    faultsOnly_require.bind fun _ _ => (faultsOnly_recover _ _ _ _).bind fun _ _ => faultsOnly_ok)

theorem execReceive_answers : s.Answers (execReceive s) := by
  have hfrom (sps : Nat) (ws : List Word) : FaultsOnly (receiveFrom s sps ws) s.Lacks :=
    (faultsOnly_recover _ _ _ _).bind fun _ _ => (faultsOnly_deframeFn_map_some _ _).bind fun _ _ =>
      faultsOnly_require.bind fun _ _ => faultsOnly_ok
  exact commit_answers ((faultsOnly_discCfgCheck s.cfg).bind fun _ _ => (faultsOnly_acqCfgCheck s.cfg).bind fun _ _ =>
    faultsOnly_require.bind fun _ _ => (faultsOnly_sinSamples s).bind fun _ _ =>
    faultsOnly_require.bind fun _ _ => hfrom _ _)

theorem exec_answers (i : Instr) : s.Answers (exec i s) := by
  have hin := faultsOnly_inBits s
  cases i with
  | nop | crcInit | crcBit | crcByte | stuffReset | nrziReset | six2ascii => exact commit_answers faultsOnly_ok
  | moveOutIn => exact commit_answers ((faultsOnly_outBits s).bind fun _ _ => faultsOnly_ok)
  | moveSoutSin => exact commit_answers ((faultsOnly_soutSamples s).bind fun _ _ => faultsOnly_ok)
  | packBytes =>
    exact commit_answers (faultsOnly_require.bind fun _ _ => faultsOnly_fits.bind fun _ _ =>
      hin.bind fun _ _ => faultsOnly_ok)
  | unpackBytes =>
    exact commit_answers (faultsOnly_fits.bind fun _ _ => (faultsOnly_chars s).bind fun _ _ => faultsOnly_ok)
  | reverseBytes | crcBufBytes =>
    exact commit_answers (faultsOnly_require.bind fun _ _ => hin.bind fun _ _ => faultsOnly_ok)
  | selftestLoopback => exact execSelftestLoopback_answers s
  | crcBuf | nrziEncBuf | nrziDecBuf => exact commit_answers (hin.bind fun _ _ => faultsOnly_ok)
  | crcAppend => exact commit_answers (faultsOnly_fits.bind fun _ _ => hin.bind fun _ _ => faultsOnly_ok)
  | crcCheck | crcSelftest =>
    exact commit_answers (faultsOnly_require.bind fun _ _ => hin.bind fun _ _ =>
      faultsOnly_require.bind fun _ _ => faultsOnly_ok)
  | stuffBit | nrziEncBit | nrziDecBit => exact commit_answers (faultsOnly_fits.bind fun _ _ => faultsOnly_ok)
  | destuffBit imm => exact execDestuffBit_answers s imm
  | stuffBuf | buildFrame | armor =>
    exact commit_answers (hin.bind fun _ _ => faultsOnly_fits.bind fun _ _ => faultsOnly_ok)
  | destuffBuf => exact commit_answers (hin.bind fun x _ => (faultsOnly_destuff x).bind fun _ _ => faultsOnly_ok)
  | findFlag => exact endSearch_answers (faultsOnly_findFlagFrom s _)
  | findFlagFuzzy => exact endSearch_answers (faultsOnly_require.bind fun _ _ => faultsOnly_findFlagFrom s _)
  | extractPayload => exact execExtractPayload_answers s
  | deframe => exact execDeframe_answers s
  | encodePos => exact commit_answers ((faultsOnly_posEncode s.vs).bind fun _ _ => faultsOnly_ok)
  | decodePos => exact execDecodePos_answers s
  | ascii2six imm => exact commit_answers ((faultsOnly_sixOf imm).bind fun _ _ => faultsOnly_ok)
  | dearmor => exact execDearmor_answers s
  | modulate =>
    exact commit_answers ((faultsOnly_modCfgCheck s.cfg).bind fun _ _ => faultsOnly_fits.bind fun _ _ =>
      hin.bind fun _ _ => faultsOnly_ok)
  | transmit =>
    exact commit_answers ((faultsOnly_modCfgCheck s.cfg).bind fun _ _ => (faultsOnly_posEncode s.vs).bind fun _ _ =>
      faultsOnly_fits.bind fun _ _ => faultsOnly_fits.bind fun _ _ => faultsOnly_ok)
  | demodulate =>
    exact commit_answers ((faultsOnly_discCfgCheck s.cfg).bind fun _ _ => (faultsOnly_sinSamples s).bind fun _ _ =>
      faultsOnly_require.bind fun _ _ => faultsOnly_ok)
  | recoverClock => exact execRecoverClock_answers s
  | receive => exact execReceive_answers s

/-- When the host has loaded what its length registers say, no element is missing. -/
theorem not_missing_of_loaded {s : State} (h : s.loaded) (b : BufferId) (k : Nat) : ¬ s.missing b k := by
  obtain ⟨hin, hout, hchr, hsin, hsout, hdisc⟩ := h
  intro hm
  cases b with
  | inp => exact hin k hm.1 hm.2
  | out => exact hout k hm.1 hm.2
  | chr => exact hchr k hm.1 hm.2
  | sin => exact hsin k hm.1 hm.2
  | sout => exact hsout k hm.1 hm.2
  | disc => exact hdisc k hm.1 hm.2

end

/-- Settles O20: every read of a command stays below a length register, so its one fault is a missing element, which a
loaded state does not have. -/
theorem everyCommandEnds : Obligations.EveryCommandEnds := by
  refine ⟨fun i s => exec_answers s i, fun i s h => ?_⟩
  rcases exec_answers s i with hnext | ⟨b, k, -, hm⟩
  · exact hnext
  · exact absurd hm (not_missing_of_loaded h b k)

end Sys2Proof.Machine
end

section
/-! PROOFS. Command words: a word is its four fields, the decoder and the encoder agree, and the legal words are those
of the opcode table (R73 to R78). -/

namespace Sys2Proof.Machine

/-! ### A word is its four fields -/

theorem word_eq_of_fields {v w : Word} (hopc : fieldOpc v = fieldOpc w) (himm : fieldImm v = fieldImm w)
    (hf : fieldF v = fieldF w) (hrsv : fieldRsv v = fieldRsv w) : v = w := by
  refine BitVec.eq_of_getLsbD_eq fun k hk => ?_
  rcases (by omega : k < 8 ∨ (8 ≤ k ∧ k < 16) ∨ k = 16 ∨ 17 ≤ k) with h | ⟨h, h'⟩ | rfl | h
  · simpa [fieldOpc, BitVec.getLsbD_extractLsb', h] using congrArg (·.getLsbD k) hopc
  · simpa [fieldImm, BitVec.getLsbD_extractLsb', Nat.add_sub_cancel' h, (by omega : k - 8 < 8)] using
      congrArg (·.getLsbD (k - 8)) himm
  · exact hf
  · simpa [fieldRsv, BitVec.getLsbD_extractLsb', Nat.add_sub_cancel' h, (by omega : k - 17 < 15)] using
      congrArg (·.getLsbD (k - 17)) hrsv

/-- The word with the given fields and RSV = 0 (R73), as `encode` builds it. -/
def wordOfFields (opc imm : Byte) (f : Bool) : Word :=
  opc.setWidth 32 ||| (imm.setWidth 32 <<< 8) ||| (if f then 0x00010000 else 0)

theorem encode_eq_wordOfFields (i : Instr) : encode i = wordOfFields i.opc i.imm i.fuzzy := rfl

section
variable (opc imm : Byte) (f : Bool)

theorem getLsbD_wordOfFields (k : Nat) : (wordOfFields opc imm f).getLsbD k =
    (opc.getLsbD k || (decide (8 ≤ k) && imm.getLsbD (k - 8)) || (f && decide (k = 16))) := by
  have hflag : (if f then 0x00010000 else 0 : Word).getLsbD k = (f && decide (k = 16)) := by
    cases f with
    | false => exact BitVec.getLsbD_zero
    | true => exact (BitVec.getLsbD_twoPow 16 k).trans (by grind)
  have hopc (h : 32 ≤ k) : opc.getLsbD k = false := BitVec.getLsbD_of_ge opc k (by omega)
  have himm (h : 32 ≤ k) : imm.getLsbD (k - 8) = false := BitVec.getLsbD_of_ge imm _ (by omega)
  rw [wordOfFields, BitVec.getLsbD_or, BitVec.getLsbD_or, hflag, BitVec.getLsbD_shiftLeft, BitVec.getLsbD_setWidth,
    BitVec.getLsbD_setWidth]
  grind

@[simp] theorem fieldOpc_wordOfFields : fieldOpc (wordOfFields opc imm f) = opc := by
  refine BitVec.eq_of_getLsbD_eq fun k hk => ?_
  rw [fieldOpc, BitVec.getLsbD_extractLsb', getLsbD_wordOfFields]
  grind

@[simp] theorem fieldImm_wordOfFields : fieldImm (wordOfFields opc imm f) = imm := by
  refine BitVec.eq_of_getLsbD_eq fun k hk => ?_
  have hopc : opc.getLsbD (8 + k) = false := BitVec.getLsbD_of_ge opc _ (by omega)
  rw [fieldImm, BitVec.getLsbD_extractLsb', getLsbD_wordOfFields, hopc]
  grind

@[simp] theorem fieldF_wordOfFields : fieldF (wordOfFields opc imm f) = f := by
  rw [fieldF, getLsbD_wordOfFields, BitVec.getLsbD_of_ge opc 16 (by omega), BitVec.getLsbD_of_ge imm _ (by omega)]
  simp

@[simp] theorem fieldRsv_wordOfFields : fieldRsv (wordOfFields opc imm f) = 0 := by
  refine BitVec.eq_of_getLsbD_eq fun k hk => ?_
  have hopc : opc.getLsbD (17 + k) = false := BitVec.getLsbD_of_ge opc _ (by omega)
  have himm : imm.getLsbD (17 + k - 8) = false := BitVec.getLsbD_of_ge imm _ (by omega)
  rw [fieldRsv, BitVec.getLsbD_extractLsb', getLsbD_wordOfFields, hopc, himm,
    decide_eq_false (by omega : ¬ 17 + k = 16)]
  simp

theorem wordOfFields_eq_iff {w : Word} :
    w = wordOfFields opc imm f ↔ fieldOpc w = opc ∧ fieldImm w = imm ∧ fieldF w = f ∧ fieldRsv w = 0 := by
  constructor
  · rintro rfl; simp
  · rintro ⟨rfl, rfl, rfl, hrsv⟩
    exact word_eq_of_fields (by simp) (by simp) (by simp) (by simpa using hrsv)

end

section
variable (v w : Word)

theorem fieldOpc_and : fieldOpc (v &&& w) = fieldOpc v &&& fieldOpc w := BitVec.extractLsb'_and

theorem fieldImm_and : fieldImm (v &&& w) = fieldImm v &&& fieldImm w := BitVec.extractLsb'_and

theorem fieldF_and : fieldF (v &&& w) = (fieldF v && fieldF w) := BitVec.getLsbD_and

theorem fieldRsv_and : fieldRsv (v &&& w) = fieldRsv v &&& fieldRsv w := BitVec.extractLsb'_and

theorem fieldOpc_not : fieldOpc (~~~ w) = ~~~ fieldOpc w := BitVec.extractLsb'_not_of_lt (by decide)

theorem fieldImm_not : fieldImm (~~~ w) = ~~~ fieldImm w := BitVec.extractLsb'_not_of_lt (by decide)

theorem fieldF_not : fieldF (~~~ w) = !fieldF w := by simp [fieldF]

theorem fieldRsv_not : fieldRsv (~~~ w) = ~~~ fieldRsv w := by
  refine BitVec.eq_of_getLsbD_eq fun k hk => ?_
  simp only [fieldRsv, BitVec.getLsbD_extractLsb', BitVec.getLsbD_not]
  simp [hk, (by omega : 17 + k < 32)]

end

/-! ### The opcode map (R75) -/

theorem opcodeMap_fields (i : Instr) : opcodeMap i.opc i.imm i.fuzzy = some i := by cases i <;> rfl

/-- The IMM8 bits that R74 holds to 0 under an opcode are those that the command's form does not use. -/
theorem immZero_opc (i : Instr) : immZero i.opc = ~~~ i.form.used := by
  cases i <;> rw [Instr.opc, Instr.form] <;> decide

theorem opc_of_fuzzy {i : Instr} (h : i.fuzzy = true) : i.opc = 0x25 := by
  rw [of_decide_eq_true h]; rfl

section
variable {opc imm : Byte} {f : Bool} {i : Instr}

/-- What the opcode map can answer: a command of that opcode which takes IMM8 as its operand, if it has one, and F
where F selects between two commands. -/
theorem opcodeMap_eq_some (h : opcodeMap opc imm f = some i) :
    i.opc = opc ∧ (i.imm = imm ∨ i.form = .none ∧ i.imm = 0) ∧ i.fuzzy = (f && decide (opc = 0x25)) := by
  unfold opcodeMap at h
  split at h <;> cases h
  case h_21 => cases f <;> exact ⟨rfl, .inr ⟨rfl, rfl⟩, rfl⟩
  all_goals exact ⟨rfl, by simp [Instr.form, Instr.imm], by simp [Instr.fuzzy]⟩

theorem exists_opcodeMap (imm : Byte) (f : Bool) (h : opc ∈ definedOpcodes) :
    ∃ i, opcodeMap opc imm f = some i := by
  have hall : definedOpcodes.all (fun o => (opcodeMap o imm f).isSome) = true := rfl
  exact Option.isSome_iff_exists.1 (List.all_eq_true.1 hall opc h)

theorem opcodeMap_eq_none (imm : Byte) (f : Bool) (h : opc ∉ definedOpcodes) : opcodeMap opc imm f = none := by
  refine Option.eq_none_iff_forall_ne_some.2 fun i hi => h ?_
  rw [← (opcodeMap_eq_some hi).1]
  cases i <;> rw [Instr.opc] <;> decide

theorem eq_zero_of_admits_none (h : ImmForm.none.admits imm = true) : imm = 0 := by
  have hand : imm &&& BitVec.allOnes 8 = 0 := eq_of_beq h
  rwa [BitVec.and_allOnes] at hand

/-! ### The decoder (R76) -/

/-- R76's check (3) under an opcode is that of the command's form. -/
theorem admits_eq_false_iff (h : opcodeMap opc imm f = some i) :
    i.form.admits imm = false ↔ imm &&& immZero opc ≠ 0 := by
  rw [← (opcodeMap_eq_some h).1, immZero_opc, ImmForm.admits, beq_eq_false_iff_ne]

end

section
variable {w : Word} {i : Instr}

theorem decode_undefined (h : fieldOpc w ∉ definedOpcodes) : decode w = .error .badOpcode := by
  rw [decode, opcodeMap_eq_none _ _ h]

/-- Under a defined opcode the decoder makes R76's checks (2) to (4), in this order. -/
theorem decode_defined (h : fieldOpc w ∈ definedOpcodes) : ∃ i, decode w =
    if fieldRsv w ≠ 0 then .error .rsvNonzero
    else if fieldImm w &&& immZero (fieldOpc w) ≠ 0 then .error .immNonzero
    else if fieldF w = true ∧ fieldOpc w ≠ 0x25 then .error .fNonzero
    else .ok i := by
  obtain ⟨i, hi⟩ := exists_opcodeMap (fieldImm w) (fieldF w) h
  refine ⟨i, ?_⟩
  rw [decode, hi]
  simp only [admits_eq_false_iff hi]

theorem decode_eq_ok_iff : decode w = .ok i ↔ opcodeMap (fieldOpc w) (fieldImm w) (fieldF w) = some i ∧
    fieldRsv w = 0 ∧ i.form.admits (fieldImm w) = true ∧ (fieldF w = true → fieldOpc w = 0x25) := by
  unfold decode
  cases hm : opcodeMap (fieldOpc w) (fieldImm w) (fieldF w) <;> grind

/-- A word decodes to a command exactly when the command is well formed and the word is its encoding. -/
theorem decode_eq_ok_iff_encode : decode w = .ok i ↔ i.wf = true ∧ encode i = w := by
  constructor
  · intro h
    obtain ⟨hmap, hrsv, hadm, hf⟩ := decode_eq_ok_iff.1 h
    obtain ⟨hopc, himm, hfuzzy⟩ := opcodeMap_eq_some hmap
    have himm : i.imm = fieldImm w := by
      rcases himm with himm | ⟨hform, himm⟩
      · exact himm
      · rw [hform] at hadm
        exact himm.trans (eq_zero_of_admits_none hadm).symm
    have hfuzzy : i.fuzzy = fieldF w := by
      rw [hfuzzy, Bool.and_eq_left_iff_imp]
      exact fun h => decide_eq_true (hf h)
    refine ⟨by rwa [Instr.wf, himm], Eq.symm ?_⟩
    rw [encode_eq_wordOfFields, wordOfFields_eq_iff]
    exact ⟨hopc.symm, himm.symm, hfuzzy.symm, hrsv⟩
  · rintro ⟨hwf, rfl⟩
    rw [encode_eq_wordOfFields, decode_eq_ok_iff]
    simp only [fieldOpc_wordOfFields, fieldImm_wordOfFields, fieldF_wordOfFields, fieldRsv_wordOfFields]
    exact ⟨opcodeMap_fields i, trivial, hwf, opc_of_fuzzy⟩

/-- The legal words: those that pass R76's four checks. -/
theorem exists_decode_iff : (∃ i, decode w = .ok i) ↔ fieldOpc w ∈ definedOpcodes ∧ fieldRsv w = 0 ∧
    fieldImm w &&& immZero (fieldOpc w) = 0 ∧ (fieldF w = false ∨ fieldOpc w = 0x25) := by
  by_cases h : fieldOpc w ∈ definedOpcodes
  · obtain ⟨i, hi⟩ := decode_defined h
    grind
  · simp [decode_undefined h, h]

end

/-- Settles O1: a word decodes to the well-formed command it encodes. -/
theorem decodeOfEncodeIsTheInstruction : Obligations.DecodeOfEncodeIsTheInstruction :=
  fun _ hwf => decode_eq_ok_iff_encode.2 ⟨hwf, rfl⟩

/-! ### The rows of the opcode table (R74) -/

/-- The row of the opcode table for an opcode and an F bit: IMM8 must be 0 where `immZero` says so, and every other
field is fixed. -/
def opcodeRow (opc : Byte) (f : Bool) : Word × Word :=
  (wordOfFields opc 0 f, ~~~ wordOfFields 0 (~~~ immZero opc) false)

/-- The table has one row for each opcode, and a second one for FIND_FLAG with F = 1. -/
theorem tableRows_eq : tableRows =
    definedOpcodes.flatMap fun opc => (if opc = 0x25 then [false, true] else [false]).map (opcodeRow opc) := by decide

theorem mem_tableRows {r : Word × Word} : r ∈ tableRows ↔
    ∃ opc ∈ definedOpcodes, ∃ f, (f = false ∨ opc = 0x25) ∧ opcodeRow opc f = r := by
  have hflags (opc : Byte) (f : Bool) :
      f ∈ (if opc = 0x25 then [false, true] else [false]) ↔ f = false ∨ opc = 0x25 := by
    split
    next h => cases f <;> simp [h]
    next h => exact List.mem_singleton.trans (or_iff_left h).symm
  simp only [tableRows_eq, List.mem_flatMap, List.mem_map, hflags]

/-- A row's pair admits a word when its OPC and F are the row's, RSV is 0 and so are the IMM8 bits that must be. -/
theorem and_opcodeRow_eq_iff (w : Word) (opc : Byte) (f : Bool) : w &&& (opcodeRow opc f).2 = (opcodeRow opc f).1 ↔
    fieldOpc w = opc ∧ fieldImm w &&& immZero opc = 0 ∧ fieldF w = f ∧ fieldRsv w = 0 := by
  have hopc : ~~~ (0 : Byte) = BitVec.allOnes 8 := rfl
  have hrsv : ~~~ (0 : BitVec 15) = BitVec.allOnes 15 := rfl
  rw [opcodeRow, wordOfFields_eq_iff]
  simp only [fieldOpc_and, fieldImm_and, fieldF_and, fieldRsv_and, fieldOpc_not, fieldImm_not, fieldF_not, fieldRsv_not,
    fieldOpc_wordOfFields, fieldImm_wordOfFields, fieldF_wordOfFields, fieldRsv_wordOfFields,
    BitVec.not_not, hopc, hrsv, BitVec.and_allOnes, Bool.not_false, Bool.and_true]

/-- Settles O2: the words that a row admits are those that pass R76's four checks. -/
theorem legalWordsAreTheTableRows : Obligations.LegalWordsAreTheTableRows := by
  refine ⟨fun w i => decode_eq_ok_iff_encode.1, fun w => exists_decode_iff.trans ?_⟩
  constructor
  · rintro ⟨hopc, hrsv, himm, hf⟩
    exact ⟨_, mem_tableRows.2 ⟨_, hopc, _, hf, rfl⟩, (and_opcodeRow_eq_iff ..).2 ⟨rfl, himm, rfl, hrsv⟩⟩
  · rintro ⟨r, hr, hw⟩
    obtain ⟨opc, hopc, f, hf, rfl⟩ := mem_tableRows.1 hr
    obtain ⟨rfl, himm, rfl, hrsv⟩ := (and_opcodeRow_eq_iff ..).1 hw
    exact ⟨hopc, hrsv, himm, hf⟩

/-! ### A word written to CMD -/

/-- A CMD write of an illegal word stores the word and reports the check that failed (R76). -/
theorem step_illegal_word {s : State} {rest : List HostAction} {w : Word} {e : Illegal}
    (hp : s.port = .write cmdAddr 32 w :: rest) (hd : decode w = .error e) :
    step s = .next ((State.taking { s with port := rest } w).setStatus (illegalError e).status) := by
  calc step s = hostWrite cmdAddr 32 w { s with port := rest } := step_perform hp
    _ = runWord w (State.taking { s with port := rest } w) := hostWrite_cmd _ w
    _ = raiseError (State.taking { s with port := rest } w) (illegalError e) := by rw [runWord, hd]

/-- Settles O3: the decoder's answer is that of the first check that fails, and the step reports it. -/
theorem everyCommandWordHasOneOutcome : Obligations.EveryCommandWordHasOneOutcome := by
  intro s rest w hp
  refine ⟨fun hopc => step_illegal_word hp (decode_undefined hopc), fun hopc hrsv => ?_, fun hopc hrsv himm => ?_,
    fun hopc hrsv himm hf hne => ?_, fun hopc hrsv himm hf => ?_⟩
  · obtain ⟨i, hd⟩ := decode_defined hopc
    exact step_illegal_word hp (hd.trans (if_pos hrsv))
  · obtain ⟨i, hd⟩ := decode_defined hopc
    exact step_illegal_word hp (hd.trans ((if_neg (not_not.2 hrsv)).trans (if_pos himm)))
  · obtain ⟨i, hd⟩ := decode_defined hopc
    exact step_illegal_word hp
      (hd.trans ((if_neg (not_not.2 hrsv)).trans ((if_neg (not_not.2 himm)).trans (if_pos ⟨hf, hne⟩))))
  · obtain ⟨i, hd⟩ := exists_decode_iff.2 ⟨hopc, hrsv, himm, hf⟩
    exact ⟨i, hd, commandWriteRunsTheDecodedCommand.1 s rest w i hp hd⟩

/-- Settles O4: each word is the encoding of its command. -/
theorem printedWordsDecode : Obligations.PrintedWordsDecode := by
  refine ⟨?_, ?_, ?_, ?_, ?_, ?_, ?_, ?_, ?_, ?_, ?_⟩ <;> exact decode_eq_ok_iff_encode.2 (by decide)

end Sys2Proof.Machine
end

section
/-! PROOFS. The conversions of the BitVector unit and the buffer moves: what each reads, what it commits, and how it
fails (R81 to R87). -/

namespace Sys2Proof.Machine

/-! ### Checks and reads that end a command early -/

theorem failsWith_of_raise {i : Instr} {s : State} {e : CmdError} (h : exec i s = commit s (raise e)) :
    FailsWith i s e.status := h.trans (commit_raise s e)

theorem require_of {p : Prop} [Decidable p] (e : CmdError) (h : p) : require (decide p) e = .ok () :=
  require_eq_ok.2 (decide_eq_true h)

theorem mult8Check_ok {n : Nat} (h : n % 8 = 0) : mult8Check n = .ok () := require_of _ h

theorem mult8Check_raise {n : Nat} (h : n % 8 ≠ 0) : mult8Check n = raise .lenNotMult8 :=
  require_eq_error.2 ⟨decide_eq_false h, rfl⟩

theorem fits_ok {n cap : Nat} {e : CmdError} (h : n ≤ cap) : fits n cap e = .ok () := fits_eq_ok.2 h

theorem fits_raise {n cap : Nat} {e : CmdError} (h : cap < n) : fits n cap e = raise e := fits_eq_error.2 ⟨h, rfl⟩

section
variable {s : State} {k : Nat}

/-- OUT with an unwritten element below OUT_LEN cannot be read whole (R63). -/
theorem outBits_unwritten (hk : k < s.outLen.toNat) (h : bufGet s.mem.out k = none) :
    ∃ j, s.outBits = .error (.fault (.unwritten .out j)) := by
  cases hr : s.outBits with
  | ok x =>
    obtain ⟨hlen, hx⟩ := outBits_eq_ok.1 hr
    cases h.symm.trans (hx k (hlen ▸ hk))
  | error e =>
    obtain ⟨j, -, -, -, rfl⟩ := readSeq_memRead_error hr
    exact ⟨j, rfl⟩

/-- SOUT with an unwritten sample below SOUT_LEN cannot be read whole (R60, R63). -/
theorem soutSamples_unwritten (hk : k < s.soutLen.toNat) (h : sampleGet s.mem.sout k = none) :
    ∃ j, s.soutSamples = .error (.fault (.unwritten .sout j)) := by
  cases hr : s.soutSamples with
  | ok zs =>
    obtain ⟨hlen, hz⟩ := soutSamples_eq_ok.1 hr
    cases h.symm.trans (hz k (hlen ▸ hk))
  | error e =>
    obtain ⟨j, -, -, -, rfl⟩ := readSeq_sampleRead_error hr
    exact ⟨j, rfl⟩

end

/-! ### Bits and bytes (R10, R81) -/

theorem ofNat_eq_of_toNat {w : Word} {n : Nat} (h : w.toNat = n) : BitVec.ofNat 32 n = w := by
  rw [← h, BitVec.ofNat_toNat, BitVec.setWidth_eq]

theorem toNat_ofNat_of_le_toNat {w : Word} {n : Nat} (h : n ≤ w.toNat) : (BitVec.ofNat 32 n).toNat = n := by
  rw [BitVec.toNat_ofNat, Nat.mod_eq_of_lt (h.trans_lt w.isLt)]

theorem ubits_getD {n i : Nat} (v : Nat) (h : i < n) : (ubits n v).getD i false = v.testBit (n - 1 - i) := by
  rw [List.getD_eq_getElem _ _ (by simpa using h)]
  simp [ubits]

theorem slice_getD {α : Type} (S : List α) (d : α) {a b i : Nat} (h : i < b - a) :
    (slice S a b).getD i d = S.getD (a + i) d := by
  simp [slice, List.getD, h]

/-- Bit 7 of byte k is the first bit of its group (R81). -/
theorem byteAt_getLsbD {S : Bits} {k j : Nat} (hk : 8 * k + 8 ≤ S.length) (hj : j < 8) :
    (byteAt S k).getLsbD (7 - j) = S.getD (8 * k + j) false := by
  calc (byteAt S k).getLsbD (7 - j) = (ubits 8 (byteAt S k).toNat).getD j false := (ubits_getD _ hj).symm
    _ = (slice S (8 * k) (8 * k + 8)).getD j false := by rw [ubits_byteAt hk]
    _ = S.getD (8 * k + j) false := slice_getD S false (by omega)

theorem bytesOf_getD {S : Bits} {k : Nat} (h : k < S.length / 8) : (bytesOf S).getD k 0 = byteAt S k := by
  rw [List.getD_eq_getElem _ _ (by simpa using h)]
  simp [bytesOf]

/-- The first bit of group k is bit 7 of character k (R81). -/
theorem bitsOfBytes_getD {C : List Byte} {k j : Nat} (hk : k < C.length) (hj : j < 8) :
    (bitsOfBytes C).getD (8 * k + j) false = (C.getD k 0).getLsbD (7 - j) := by
  induction C generalizing k with
  | nil => simp at hk
  | cons c C ih =>
    have hcons : bitsOfBytes (c :: C) = ubits 8 c.toNat ++ bitsOfBytes C := List.flatMap_cons
    cases k with
    | zero =>
      rw [hcons, List.getD_append _ _ _ _ (by simpa using hj), Nat.mul_zero, Nat.zero_add, ubits_getD _ hj]
      rfl
    | succ k =>
      rw [hcons, List.getD_append_right _ _ _ _ (by simp; omega), List.getD_cons_succ, ← ih (by simpa using hk),
        ubits_length, show 8 * (k + 1) + j - 8 = 8 * k + j by omega]

theorem reverseGroups_getD {x : Bits} {k j : Nat} (hk : 8 * k + j < x.length) (hj : j < 8) :
    (reverseGroups x).getD (8 * k + j) false = x.getD (8 * k + 7 - j) false := by
  rw [List.getD_eq_getElem _ _ (by simpa using hk)]
  simp only [reverseGroups, List.getElem_map, List.getElem_range]
  congr 1
  omega

/-! ### The commands over a written input -/

section
variable {s : State}

theorem exec_moveOutIn {x : Bits} (hx : OutputBits s x) :
    exec .moveOutIn s = .next ((s.putIn x).setStatus statusOk) := by
  show execMoveOutIn s = _
  rw [execMoveOutIn, outBits_eq_ok.2 hx, cmd_ok_bind, commit_ok]

theorem exec_moveSoutSin {zs : List Sample} (hz : OutputSamples s zs) :
    exec .moveSoutSin s = .next ((s.putSin zs).setStatus statusOk) := by
  show execMoveSoutSin s = _
  rw [execMoveSoutSin, soutSamples_eq_ok.2 hz, cmd_ok_bind, commit_ok]

theorem exec_packBytes {x : Bits} (hx : InputBits s x) (h8 : x.length % 8 = 0)
    (hcap : x.length / 8 ≤ s.caps.chr.toNat) :
    exec .packBytes s = .next ((s.putChr (bytesOf x)).setStatus statusOk) := by
  show execPackBytes s = _
  rw [execPackBytes, hx.1, mult8Check_ok h8, cmd_ok_bind, State.chrCap, fits_ok hcap, cmd_ok_bind,
    inBits_eq_ok.2 hx, cmd_ok_bind, commit_ok]

theorem exec_unpackBytes {cs : List Byte} (hc : InputChars s cs) (hcap : 8 * cs.length ≤ s.caps.bits.toNat) :
    exec .unpackBytes s = .next ((s.putOut 0 (bitsOfBytes cs)).setStatus statusOk) := by
  show execUnpackBytes s = _
  rw [execUnpackBytes, hc.1, State.bitCap, fits_ok hcap, cmd_ok_bind, chars_eq_ok.2 hc, cmd_ok_bind, commit_ok]

theorem exec_reverseBytes {x : Bits} (hx : InputBits s x) (h8 : x.length % 8 = 0) :
    exec .reverseBytes s = .next ((s.putOut 0 (reverseGroups x)).setStatus statusOk) := by
  show execReverseBytes s = _
  rw [execReverseBytes, hx.1, mult8Check_ok h8, cmd_ok_bind, inBits_eq_ok.2 hx, cmd_ok_bind, commit_ok]

end

/-! ### The statements -/

/-- Settles O21: NOP commits the state it finds. -/
theorem nopWritesOnlyStatus : Obligations.NopWritesOnlyStatus :=
  ⟨decode_eq_ok_iff_encode.2 (by decide), fun s => commit_ok s s⟩

/-- Settles O22: a move is a block write of the elements read, and an unwritten element stops the read. -/
theorem movesCopyTheOutputBuffer : Obligations.MovesCopyTheOutputBuffer := by
  refine ⟨decode_eq_ok_iff_encode.2 (by decide), decode_eq_ok_iff_encode.2 (by decide), fun s x hx => ?_,
    fun s k hk h => ?_, fun s zs hz => ?_, fun s k hk h => ?_⟩
  · refine ⟨_, exec_moveOutIn hx, writes_bufPut .., ?_⟩
    rw [State.putIn, ofNat_eq_of_toNat hx.1]
    rfl
  · obtain ⟨j, hj⟩ := outBits_unwritten hk h
    exact ⟨j, commit_eq_fault.2 (by rw [hj, cmd_error_bind])⟩
  · refine ⟨_, exec_moveSoutSin hz, writesSamples_bufPut .., ?_⟩
    rw [State.putSin, ofNat_eq_of_toNat hz.1]
    rfl
  · obtain ⟨j, hj⟩ := soutSamples_unwritten hk h
    exact ⟨j, commit_eq_fault.2 (by rw [hj, cmd_error_bind])⟩

/-- Settles O23: the bytes of the input and the bits of the characters, element by element; the checks come before the
reads. -/
theorem packAndUnpackBytes : Obligations.PackAndUnpackBytes := by
  refine ⟨fun s x hx h8 hcap => ?_, fun s h8 => ?_, fun s h8 hcap => ?_, fun s cs hc hcap => ?_, fun s hcap => ?_⟩
  · refine ⟨_, bytesOf x, exec_packBytes hx h8 hcap, bytesOf_length x, fun k j hk hj => ?_, writes_bufPut ..,
      toNat_ofNat_of_le_toNat ((bytesOf_length x).trans_le hcap), rfl⟩
    rw [bytesOf_length] at hk
    rw [bytesOf_getD hk, byteAt_getLsbD (by omega) hj]
  · apply failsWith_of_raise (e := .lenNotMult8)
    show execPackBytes s = _
    rw [execPackBytes, mult8Check_raise h8, raise_bind]
  · apply failsWith_of_raise (e := .capChr)
    show execPackBytes s = _
    rw [execPackBytes, mult8Check_ok h8, cmd_ok_bind, State.chrCap, fits_raise hcap, raise_bind]
  · refine ⟨_, bitsOfBytes cs, exec_unpackBytes hc hcap, bitsOfBytes_length cs, fun k j => bitsOfBytes_getD,
      writes_bufPut .., ?_, rfl⟩
    simpa using toNat_ofNat_of_le_toNat hcap
  · apply failsWith_of_raise (e := .capBits)
    show execUnpackBytes s = _
    rw [execUnpackBytes, State.bitCap, fits_raise hcap, raise_bind]

/-- Settles O24: the groups of the input, each reversed, under the check that they are whole. -/
theorem reverseBytesReversesEachGroup : Obligations.ReverseBytesReversesEachGroup := by
  refine ⟨fun s x hx h8 => ?_, fun s h8 => ?_⟩
  · refine ⟨_, reverseGroups x, exec_reverseBytes hx h8, reverseGroups_length x,
      fun k j hk hj => reverseGroups_getD (by omega) hj, writes_bufPut .., ?_⟩
    rw [State.putOut, reverseGroups_length, Nat.zero_add, ofNat_eq_of_toNat hx.1]
    rfl
  · apply failsWith_of_raise (e := .lenNotMult8)
    show execReverseBytes s = _
    rw [execReverseBytes, mult8Check_raise h8, raise_bind]

end Sys2Proof.Machine
end

section
/-! PROOFS. The loop that SELFTEST_LOOPBACK closes: deframing gives back the message of a frame, and the fields of a
report are the values it was packed from (R88, R111, R114, R115, R136). -/

namespace Sys2Proof.Machine

/-! ### Agreement and sub-sequences (R8, R12) -/

theorem agree_le_length (S T : Bits) : agree S T ≤ T.length := by
  refine List.countP_le_length.trans ?_
  rw [List.length_zip]
  exact min_le_right ..

theorem slice_append_mid {α : Type} (A X R : List α) :
    slice (A ++ (X ++ R)) A.length (A.length + X.length) = X := by
  simp [slice]

/-! ### The frame start (R114) -/

@[simp] theorem trainBits_length : trainBits.length = 24 := rfl

@[simp] theorem flagBits_length : flagBits.length = 8 := rfl

section
variable {c : Cfg} {R : Bits}

/-- A sequence that begins with TRAIN and FLAG is a candidate at offset 0, with the highest score there is. -/
theorem goodAt_zero (hc : c.searchLegal) :
    goodAt c (trainBits ++ (flagBits ++ R)) 0 ∧ scoreAt (trainBits ++ (flagBits ++ R)) 0 = 32 := by
  obtain ⟨-, ⟨-, htrain⟩, -, hflag⟩ := hc
  refine ⟨⟨?_, ?_⟩, rfl⟩
  · show c.trainMinAgree.toNat ≤ 24
    exact htrain
  · show c.flagMinAgree.toNat ≤ 8
    exact hflag

theorem scoreAt_le (B : Bits) (t : Nat) : scoreAt B t ≤ 32 := agree_le_length _ _

/-- The search finds a frame that begins at offset 0: no other candidate scores more, and of equals the first wins. -/
theorem scanFrame_frame (hc : c.searchLegal) :
    ∃ a sc, scanFrame c ((trainBits ++ (flagBits ++ R)).map some) = .ok a ∧ a.best = some (0, sc) := by
  obtain ⟨a, ha, -, hbest⟩ := scanFrame_spec c (trainBits ++ (flagBits ++ R)) (by simp; omega)
  obtain ⟨hgood, hscore⟩ := goodAt_zero (R := R) hc
  cases hb : a.best with
  | none =>
    rw [hb] at hbest
    exact absurd hgood (hbest 0 (by omega))
  | some ps =>
    obtain ⟨p, sc⟩ := ps
    rw [hb] at hbest
    obtain ⟨-, -, rfl, hmax⟩ := hbest
    have hle := scoreAt_le (trainBits ++ (flagBits ++ R)) p
    have hp : p = 0 := by
      rcases hmax 0 (by omega) hgood with hlt | ⟨-, hp⟩ <;> omega
    exact ⟨a, _, ha, by rw [hb, hp]⟩

end

/-! ### Locating and deframing a frame (R111, R114, R115) -/

/-- `locate` succeeds when its search has a best candidate, the payload behind it decodes and its end flag agrees. -/
theorem locate_eq_ok {c : Cfg} {B : List (Option Bool)} {a : Scan} {p sc e : Nat} {pay fl : Bits}
    (hB : 208 ≤ B.length) (ha : scanFrame c B = .ok a) (hbest : a.best = some (p, sc))
    (hpay : takePayload c.nrziInit 0 184 (p + 32) (B.drop (p + 32)) = .ok (pay, e)) (he : e + 8 ≤ B.length)
    (hfl : airBits B e 8 = .ok fl) (hend : c.flagMinAgree.toNat ≤ agree fl flagBits) :
    locate c B = .ok { p := p, q := p + 32, e := e, pay := pay } := by
  rw [locate, require_of _ hB, cmd_ok_bind, ha, cmd_ok_bind, hbest]
  dsimp only
  rw [hpay, cmd_ok_bind]
  dsimp only
  rw [require_of _ he, cmd_ok_bind, hfl, cmd_ok_bind, require_of _ hend, cmd_ok_bind]

/-- A frame on the air: TRAIN, FLAG, the coded payload, FLAG and whatever follows. -/
def airFrame (c : Cfg) (pay rest : Bits) : Bits :=
  trainBits ++ (flagBits ++ (nrziEnc c.nrziInit (stuff pay) ++ (flagBits ++ rest)))

theorem frameBits_append (c : Cfg) (m tail : Bits) : frameBits c m ++ tail =
    airFrame c (withCrc c.crcXorout m) ((if c.bufferBits then bufferBits8 else []) ++ tail) := by
  simp only [frameBits, frameBody, airFrame, List.append_assoc]

section
variable (c : Cfg) (pay rest : Bits)

theorem airFrame_length : (airFrame c pay rest).length = 32 + (stuff pay).length + 8 + rest.length := by
  simp only [airFrame, List.length_append, nrziEnc_length, trainBits_length, flagBits_length]
  omega

/-- Behind TRAIN and FLAG the payload loop decodes the payload whole and stops at the end flag. -/
theorem takePayload_airFrame (hpay : pay.length = 184) :
    takePayload c.nrziInit 0 184 32 (((airFrame c pay rest).map some).drop 32) =
      .ok (pay, 32 + (stuff pay).length) := by
  have hdrop : ((airFrame c pay rest).map some).drop 32 =
      (nrziEnc c.nrziInit (stuff pay)).map some ++ (flagBits ++ rest).map some := by
    simp [airFrame, trainBits, flagBits]
  rw [hdrop, ← hpay]
  exact takePayload_body pay _ _ 0 32 (by omega)

theorem airBits_airFrame_endFlag :
    airBits ((airFrame c pay rest).map some) (32 + (stuff pay).length) 8 = .ok flagBits := by
  have hsplit : airFrame c pay rest =
      (trainBits ++ flagBits ++ nrziEnc c.nrziInit (stuff pay)) ++ (flagBits ++ rest) := by
    simp only [airFrame, List.append_assoc]
  have hpre : (trainBits ++ flagBits ++ nrziEnc c.nrziInit (stuff pay)).length = 32 + (stuff pay).length := by
    simp only [List.length_append, nrziEnc_length, trainBits_length, flagBits_length]
  rw [airBits_some _ _ _ (by rw [airFrame_length]; omega), hsplit, ← hpre]
  exact congrArg _ (slice_append_mid _ flagBits rest)

/-- `locate` finds the frame at offset 0 and its payload of 184 bits. -/
theorem locate_airFrame (hc : c.searchLegal) (hpay : pay.length = 184) :
    locate c ((airFrame c pay rest).map some) =
      .ok { p := 0, q := 32, e := 32 + (stuff pay).length, pay := pay } := by
  have hlen := airFrame_length c pay rest
  have hstuff : pay.length ≤ (stuff pay).length := stuffFrom_length_le pay 0
  obtain ⟨a, sc, ha, hbest⟩ := scanFrame_frame (R := nrziEnc c.nrziInit (stuff pay) ++ (flagBits ++ rest)) hc
  obtain ⟨-, -, -, hflag⟩ := hc
  exact locate_eq_ok (by rw [List.length_map]; omega) ha hbest (takePayload_airFrame c pay rest hpay)
    (by rw [List.length_map]; omega) (airBits_airFrame_endFlag c pay rest) hflag

end

/-- Deframing inverts framing, whatever follows the frame (R115). -/
theorem deframeFn_frameBits {c : Cfg} {m : Bits} (tail : Bits) (hm : m.length = 168) (hc : c.searchLegal) :
    deframeFn c ((frameBits c m ++ tail).map some) =
      .ok { msg := m, p := 0, q := 32, e := 32 + (stuff (withCrc c.crcXorout m)).length,
            crc := crc16 c.crcXorout m, rx := crc16 c.crcXorout m } := by
  have hmsg : (withCrc c.crcXorout m).take 168 = m := List.take_left' hm
  have hcrc : slice (withCrc c.crcXorout m) 168 184 = ubits 16 (crc16 c.crcXorout m).toNat := by
    rw [withCrc, slice_right _ _ _ _ 168 hm le_rfl]
    exact slice_all _ 16 (ubits_length ..)
  have hrx : BitVec.ofNat 16 (uval (ubits 16 (crc16 c.crcXorout m).toNat)) = crc16 c.crcXorout m := by
    rw [uval_ubits, Nat.mod_eq_of_lt (crc16 c.crcXorout m).isLt, BitVec.ofNat_toNat, BitVec.setWidth_eq]
  rw [deframeFn, frameBits_append, locate_airFrame c _ _ hc (by simp [hm]), cmd_ok_bind]
  simp only [hmsg, hcrc, hrx, decide_true, require_true, cmd_ok_bind]

/-! ### The fields of a report (R134 to R136) -/

@[simp] theorem ubitsInt_length (n : Nat) (v : Int) : (ubitsInt n v).length = n := ubits_length ..

section
variable {A B : Bits} {a w : Nat}

theorem field_append_left (h : a + w ≤ A.length) : field (A ++ B) a w = field A a w := by
  rw [field, field, slice_left _ _ _ _ h]

theorem sfield_append_left (h : a + w ≤ A.length) : sfield (A ++ B) a w = sfield A a w := by
  rw [sfield, sfield, slice_left _ _ _ _ h]

/-- What follows the first a bits, whole. -/
theorem slice_append_last (ha : A.length = a) (hw : B.length = w) : slice (A ++ B) a (a + w) = B := by
  rw [slice_right _ _ _ _ a ha le_rfl, Nat.sub_self, Nat.add_sub_cancel_left, slice_all _ _ hw]

theorem field_ubits (v : Nat) : field (ubits w v) 0 w = v % 2 ^ w := by
  rw [field, Nat.zero_add, slice_all _ _ (ubits_length ..), uval_ubits]

theorem field_append_ubits {v : Nat} (ha : A.length = a) : field (A ++ ubits w v) a w = v % 2 ^ w := by
  rw [field, slice_append_last ha (ubits_length ..), uval_ubits]

theorem sfield_append_ubitsInt {v : Int} (ha : A.length = a) (hlo : -2 ^ w ≤ v) (hhi : v < 2 ^ w) :
    sfield (A ++ ubitsInt (w + 1) v) a (w + 1) = v := by
  rw [sfield, slice_append_last ha (ubitsInt_length ..), sval_ubitsInt _ _ hlo hhi]

end

/-- The fields of a packed report are the values written (R136). -/
theorem posFields_posBits {v : Vessel} (hv : v.legal) : posFields (posBits v) = expectedFields v := by
  obtain ⟨⟨-, hmmsi⟩, hnav, ⟨hlonlo, hlonhi⟩, ⟨hlatlo, hlathi⟩, hcog, hhdg⟩ := hv
  have hlon (A : Bits) (hA : A.length = 61) : sfield (A ++ ubitsInt 28 (s32 v.lon)) 61 28 = s32 v.lon :=
    sfield_append_ubitsInt hA (by rw [s32]; omega) (by rw [s32]; omega)
  have hlat (A : Bits) (hA : A.length = 89) : sfield (A ++ ubitsInt 27 (s32 v.lat)) 89 27 = s32 v.lat :=
    sfield_append_ubitsInt hA (by rw [s32]; omega) (by rw [s32]; omega)
  simp [posFields, posBits, expectedFields, -List.append_assoc, field_append_left, sfield_append_left, field_ubits,
    field_append_ubits, hlon, hlat]
  omega

/-! ### The self-test (R88) -/

theorem frameCfgCheck_raise {c : Cfg} (h : ¬ c.searchLegal) : frameCfgCheck c = raise .thresholdRange := by
  cases hc : frameCfgCheck c with
  | ok u => exact absurd (frameCfgCheck_eq_ok.1 hc) h
  | error e => rw [(require_eq_error.1 hc).2]; rfl

/-- The report that is packed, framed, deframed and unpacked compares equal. -/
theorem loopbackCheck_frameBits {c : Cfg} {v : Vessel} (hv : v.legal) (hc : c.searchLegal) :
    loopbackCheck c v (frameBits c (posBits v)) = .ok () := by
  have hd := deframeFn_frameBits [] (posBits_length v) hc
  rw [List.append_nil] at hd
  rw [loopbackCheck, hd]
  exact require_of _ (posFields_posBits hv)

section
variable {s : State}

/-- Behind `pos_encode` the self-test is the check of the frame-search registers and the comparison. -/
theorem exec_selftestLoopback (hv : s.vs.legal) : exec .selftestLoopback s = commit s (do
    frameCfgCheck s.cfg
    loopbackCheck s.cfg s.vs (frameBits s.cfg (posBits s.vs))
    .ok s) := by
  show execSelftestLoopback s = _
  rw [execSelftestLoopback, posEncode_eq_ok.2 ⟨hv, rfl⟩, cmd_ok_bind]

/-- Where `pos_encode` fails, ENCODE_POS and the self-test end alike. -/
theorem exec_selftestLoopback_eq_encodePos (hv : ¬ s.vs.legal) : exec .selftestLoopback s = exec .encodePos s := by
  show execSelftestLoopback s = execEncodePos s
  cases he : posEncode s.vs with
  | ok m => exact absurd (posEncode_eq_ok.1 he).1 hv
  | error e => rw [execSelftestLoopback, execEncodePos, he, cmd_error_bind, cmd_error_bind]

end

/-- Settles O25: the deframer inverts the framer and the codec's fields are the values packed, so the comparison never
fails; the checks before it fail in the order of R88. -/
theorem loopbackSelftestSucceeds : Obligations.LoopbackSelftestSucceeds := by
  refine ⟨fun s hv hc => ?_, fun s hv hc => ?_, fun s st hv hf => (exec_selftestLoopback_eq_encodePos hv).trans hf⟩
  · rw [exec_selftestLoopback hv, frameCfgCheck_eq_ok (u := ()).2 hc, cmd_ok_bind,
      loopbackCheck_frameBits hv hc, cmd_ok_bind, commit_ok]
    rfl
  · apply failsWith_of_raise (e := .thresholdRange)
    rw [exec_selftestLoopback hv, frameCfgCheck_raise hc, raise_bind]

end Sys2Proof.Machine
end

section
/-! PROOFS. The CRC engine: that its shift is linear and loses nothing carries the agreement of the byte and the bit
variant and the effect of a flipped bit; the commands follow (R89 to R104). -/

namespace Sys2Proof.Machine

/-! ### The register (R89, R93) -/

/-- What one shift XORs into the register: for the bit shifted out, or for the input bit that met it there (R89). -/
def crcFeedback (b : Bool) : BitVec 16 := if b then 0x1021 else 0

theorem crcFeedback_xor (a b : Bool) : crcFeedback (a ^^ b) = crcFeedback a ^^^ crcFeedback b := by
  cases a <;> cases b <;> rfl

theorem crcFeedback_getLsbD_zero (b : Bool) : (crcFeedback b).getLsbD 0 = b := by cases b <;> rfl

theorem crcFeedback_injective : Function.Injective crcFeedback := fun a b h => by
  rw [← crcFeedback_getLsbD_zero a, h, crcFeedback_getLsbD_zero]

theorem crcShift_eq (t : BitVec 16) : crcShift t = t <<< 1 ^^^ crcFeedback (t.getLsbD 15) := by
  rw [crcShift, crcFeedback]
  split
  · rfl
  · exact BitVec.xor_zero.symm

/-- The shift is linear over XOR. -/
theorem crcShift_xor (a b : BitVec 16) : crcShift (a ^^^ b) = crcShift a ^^^ crcShift b := by
  simp only [crcShift_eq, BitVec.shiftLeft_xor_distrib, BitVec.getLsbD_xor, crcFeedback_xor]
  ac_rfl

theorem crcStep_eq (r : BitVec 16) (b : Bool) : crcStep r b = crcShift r ^^^ crcFeedback b := by
  have htop : crcShift (if b then 0x8000 else 0) = crcFeedback b := by cases b <;> rfl
  rw [crcStep, crcShift_xor, htop]

/-- A pattern that waits in the register is one input bit, its bit 15, and shifts on towards that place. -/
theorem crcShift_xor_waiting (r x : BitVec 16) : crcShift (r ^^^ x) = crcStep r (x.getLsbD 15) ^^^ x <<< 1 := by
  rw [crcShift_xor, crcShift_eq x, crcStep_eq]
  ac_rfl

/-- Bit 0 of the polynomial keeps what the shift drops. -/
theorem crcShift_getLsbD_zero (t : BitVec 16) : (crcShift t).getLsbD 0 = t.getLsbD 15 := by
  rw [crcShift_eq, BitVec.getLsbD_xor, crcFeedback_getLsbD_zero, BitVec.getLsbD_shiftLeft]
  simp

theorem eq_of_shiftLeft_one_eq {a b : BitVec 16} (htop : a.getLsbD 15 = b.getLsbD 15) (h : a <<< 1 = b <<< 1) :
    a = b := by
  apply BitVec.eq_of_getLsbD_eq
  intro i hi
  rcases Nat.lt_or_ge i 15 with hlt | hge
  · have hnext := congrArg (·.getLsbD (i + 1)) h
    simpa only [BitVec.getLsbD_shiftLeft, show i + 1 < 16 by omega, show ¬ i + 1 < 1 by omega, decide_true,
      decide_false, Bool.not_false, Bool.true_and, Nat.add_sub_cancel] using hnext
  · rwa [show i = 15 by omega]

theorem crcShift_injective : Function.Injective crcShift := fun a b h => by
  have htop : a.getLsbD 15 = b.getLsbD 15 := by rw [← crcShift_getLsbD_zero, h, crcShift_getLsbD_zero]
  rw [crcShift_eq, crcShift_eq, htop] at h
  exact eq_of_shiftLeft_one_eq htop ((BitVec.xor_left_inj _).1 h)

theorem crcStep_left_injective (b : Bool) : Function.Injective (crcStep · b) := fun _ _ h =>
  (BitVec.xor_left_inj _).1 (crcShift_injective h)

theorem crcStep_not_ne (r : BitVec 16) (b : Bool) : crcStep r (!b) ≠ crcStep r b := by
  rw [crcStep_eq, crcStep_eq]
  exact fun h => Bool.not_ne_self b (crcFeedback_injective ((BitVec.xor_right_inj _).1 h))

/-! ### Bytes and bits (R93, R94) -/

/-- The bits of a word, the highest first (R10). -/
theorem ubits_toNat {w : Nat} (v : BitVec w) :
    ubits w v.toNat = (List.range w).map fun j => v.getLsbD (w - 1 - j) := rfl

theorem ofNat_uval_ubits {w : Nat} (v : BitVec w) : BitVec.ofNat w (uval (ubits w v.toNat)) = v := by
  rw [uval_ubits, Nat.mod_eq_of_lt v.isLt, BitVec.ofNat_toNat, BitVec.setWidth_eq]

/-- After k shifts of the byte step the register has taken in the first k bits of the byte, and the rest wait, shifted
up, in its high half. -/
theorem crcShift_repeat (r : BitVec 16) (B : Byte) {k : Nat} (hk : k ≤ 8) :
    Nat.repeat crcShift k (r ^^^ (B.setWidth 16 <<< 8)) =
      ((List.range k).map fun j => B.getLsbD (7 - j)).foldl crcStep r ^^^ (B.setWidth 16 <<< (8 + k)) := by
  induction k with
  | zero => rfl
  | succ k ih =>
    have hbit : (B.setWidth 16 <<< (8 + k)).getLsbD 15 = B.getLsbD (7 - k) := by
      simp [show ¬ 15 < 8 + k by omega, show 15 - (8 + k) = 7 - k by omega]
    rw [Nat.repeat, ih (by omega), crcShift_xor_waiting, hbit, ← BitVec.shiftLeft_add, List.range_succ,
      List.map_append, List.foldl_append]
    rfl

theorem crcByteStep_eq_foldl (r : BitVec 16) (B : Byte) : crcByteStep r B = (ubits 8 B.toNat).foldl crcStep r := by
  have hout : B.setWidth 16 <<< (8 + 8) = 0 := BitVec.shiftLeft_eq_zero le_rfl
  rw [crcByteStep, crcShift_repeat r B le_rfl, hout, ubits_toNat]
  exact BitVec.xor_zero

theorem foldl_crcByteStep (r : BitVec 16) (C : List Byte) :
    C.foldl crcByteStep r = (bitsOfBytes C).foldl crcStep r := by
  simp only [bitsOfBytes, List.foldl_flatMap, ← crcByteStep_eq_foldl]

theorem crc16Bytes_bytesOf (xorout : BitVec 16) {x : Bits} (h8 : x.length % 8 = 0) :
    crc16Bytes xorout (bytesOf x) = crc16 xorout x := by
  rw [crc16Bytes, foldl_crcByteStep, bitsOfBytes_bytesOf h8]
  rfl

/-! ### Flipped bits (R96) -/

/-- Two registers that differ stay different under the same further bits. -/
theorem foldl_crcStep_injective (S : Bits) : Function.Injective (S.foldl crcStep ·) := by
  induction S with
  | nil => exact fun _ _ h => h
  | cons b S ih => exact fun _ _ h => crcStep_left_injective b (ih h)

theorem foldl_crcStep_set_ne (S : Bits) (r : BitVec 16) (i : Nat) (h : i < S.length) :
    (S.set i (!S[i])).foldl crcStep r ≠ S.foldl crcStep r := by
  induction S generalizing r i with
  | nil => exact absurd h (Nat.not_lt_zero i)
  | cons b S ih =>
    cases i with
    | zero => exact fun heq => crcStep_not_ne r b (foldl_crcStep_injective S heq)
    | succ i => exact ih (crcStep r b) i (Nat.lt_of_succ_lt_succ h)

/-! ### The commands over a written input (R97 to R104) -/

section
variable {s : State} {x : Bits}

theorem exec_crcBuf (hx : InputBits s x) :
    exec .crcBuf s = .next ({ s with crcValue := crc16 s.cfg.crcXorout x }.setStatus statusOk) := by
  show execCrcBuf s = _
  rw [execCrcBuf, inBits_eq_ok.2 hx, cmd_ok_bind, commit_ok]

theorem exec_crcBufBytes (hx : InputBits s x) (h8 : x.length % 8 = 0) :
    exec .crcBufBytes s = .next ({ s with crcValue := crc16 s.cfg.crcXorout x }.setStatus statusOk) := by
  show execCrcBufBytes s = _
  rw [execCrcBufBytes, hx.1, mult8Check_ok h8, cmd_ok_bind, inBits_eq_ok.2 hx, cmd_ok_bind, crc16Bytes_bytesOf _ h8,
    commit_ok]

/-- The comparison of CRC_SELFTEST never fails (R94, R104). -/
theorem exec_crcSelftest (hx : InputBits s x) (h8 : x.length % 8 = 0) :
    exec .crcSelftest s = .next ({ s with crcValue := crc16 s.cfg.crcXorout x }.setStatus statusOk) := by
  have hsame : crc16 s.cfg.crcXorout x = crc16Bytes s.cfg.crcXorout (bytesOf x) := (crc16Bytes_bytesOf _ h8).symm
  show execCrcSelftest s = _
  rw [execCrcSelftest, hx.1, mult8Check_ok h8, cmd_ok_bind, inBits_eq_ok.2 hx, cmd_ok_bind]
  dsimp only
  rw [require_of _ hsame, cmd_ok_bind, commit_ok]

theorem exec_crcAppend (hx : InputBits s x) (hcap : x.length + 16 ≤ s.caps.bits.toNat) :
    exec .crcAppend s = .next ({ s.putOut 0 (withCrc s.cfg.crcXorout x) with
      crcValue := crc16 s.cfg.crcXorout x }.setStatus statusOk) := by
  show execCrcAppend s = _
  rw [execCrcAppend, hx.1, State.bitCap, fits_ok hcap, cmd_ok_bind, inBits_eq_ok.2 hx, cmd_ok_bind, commit_ok]

/-- On a message and a 16-bit field CRC_CHECK is the comparison of the field with the message's CRC. -/
theorem exec_crcCheck {m : Bits} {rx : BitVec 16} (hx : InputBits s (m ++ ubits 16 rx.toNat)) :
    exec .crcCheck s = commit s (do
      require (crc16 s.cfg.crcXorout m = rx) .crcMismatch
      .ok { s with crcValue := crc16 s.cfg.crcXorout m, crcRx := rx }) := by
  have hlen : s.inLen.toNat = m.length + 16 := by simpa using hx.1
  have h16 : 16 ≤ s.inLen.toNat := by omega
  show execCrcCheck s = _
  rw [execCrcCheck, require_of _ h16, cmd_ok_bind, inBits_eq_ok.2 hx, cmd_ok_bind]
  dsimp only
  rw [hlen, Nat.add_sub_cancel, List.take_left, List.drop_left, ofNat_uval_ubits]

end

/-! ### The statements -/

/-- Settles O30: the byte step is eight bit steps, and the bits of a byte string are the bits of its bytes. -/
theorem byteAndBitCrcAgree : Obligations.ByteAndBitCrcAgree := ⟨crcByteStep_eq_foldl, foldl_crcByteStep 0xFFFF⟩

/-- Settles O31: the step at the flipped bit separates the registers, the steps behind it and the final XOR keep them
apart. -/
theorem everyBitFlipChangesTheCrc : Obligations.EveryBitFlipChangesTheCrc := fun _ S i h heq =>
  foldl_crcStep_set_ne S 0xFFFF i h ((BitVec.xor_left_inj _).1 heq)

/-- Settles O26: the step commands commit the register's step; CRC_BYTE by the agreement of R94. -/
theorem crcStepCommands : Obligations.CrcStepCommands := by
  refine ⟨fun s => commit_ok s _, fun s imm => commit_ok s _, fun s B => ?_⟩
  show execCrcByte B s = _
  rw [execCrcByte, commit_ok, crcByteStep_eq_foldl, ubits_toNat]
  rfl

/-- Settles O27: the CRC of the input, the byte forms by the agreement of R94 and under the check of R80. -/
theorem crcBufferCommands : Obligations.CrcBufferCommands := by
  refine ⟨fun s x hx => exec_crcBuf hx, fun s x hx h8 => ⟨exec_crcBufBytes hx h8, exec_crcSelftest hx h8⟩,
    fun s h8 => ⟨?_, ?_⟩⟩
  · apply failsWith_of_raise (e := .lenNotMult8)
    show execCrcBufBytes s = _
    rw [execCrcBufBytes, mult8Check_raise h8, raise_bind]
  · apply failsWith_of_raise (e := .lenNotMult8)
    show execCrcSelftest s = _
    rw [execCrcSelftest, mult8Check_raise h8, raise_bind]

/-- Settles O28: a block write of the message and its CRC, under the check that it fits. -/
theorem crcAppendWritesMessageAndCrc : Obligations.CrcAppendWritesMessageAndCrc := by
  refine ⟨fun s x hx hcap => ?_, fun s hcap => ?_⟩
  · refine ⟨_, exec_crcAppend hx hcap, writes_bufPut .., ?_, rfl⟩
    simpa using toNat_ofNat_of_le_toNat hcap
  · apply failsWith_of_raise (e := .capBits)
    show execCrcAppend s = _
    rw [execCrcAppend, State.bitCap, fits_raise hcap, raise_bind]

/-- Settles O29: the check is the comparison of the field with the CRC of what stands before it. -/
theorem crcCheckComparesTheField : Obligations.CrcCheckComparesTheField := by
  refine ⟨fun s m rx hx => ⟨fun hcrc => ?_, fun hcrc => ?_⟩, fun s hlen => ?_⟩
  · have heq : crc16 s.cfg.crcXorout m = rx := hcrc
    rw [exec_crcCheck hx, require_of _ heq, cmd_ok_bind, commit_ok, heq]
    rfl
  · have hne : ¬ crc16 s.cfg.crcXorout m = rx := hcrc
    apply failsWith_of_raise (e := .crcMismatch)
    rw [exec_crcCheck hx, decide_eq_false hne, require_false, raise_bind]
  · apply failsWith_of_raise (e := .inputTooShort)
    show execCrcCheck s = _
    rw [execCrcCheck, decide_eq_false (by omega), require_false, raise_bind]

end Sys2Proof.Machine
end

section
/-! PROOFS. Bit stuffing: destuffing gives back what was stuffed, and what it refuses is six 1s in a row
(R106 to R109). -/

namespace Sys2Proof.Machine

/-! ### What the destuffer does at each bit (R107) -/

theorem destuffFrom_five (b : Bool) (t : Bits) :
    destuffFrom 5 (b :: t) = if b then raise .destuffViolation else destuffFrom 0 t := rfl

theorem destuffFrom_cons {c : Nat} (hc : c ≠ 5) (b : Bool) (t : Bits) :
    destuffFrom c (b :: t) = (destuffFrom (if b then c + 1 else 0) t >>= fun r => .ok (b :: r)) := by
  rw [destuffFrom, if_neg hc]

/-- Destuffing raises nothing but DESTUFF_VIOLATION. -/
theorem destuff_ok_or_raise (x : Bits) : (∃ y, destuff x = .ok y) ∨ destuff x = raise .destuffViolation := by
  cases h : destuff x with
  | ok y => exact .inl ⟨y, rfl⟩
  | error e =>
    cases e with
    | raise e => exact .inr (by rw [(ends_destuff (E := (· = .destuffViolation)) x rfl).2 e h]; rfl)
    | fault f => exact (faultsOnly_destuff (F := fun _ => False) x f h).elim

/-! ### Destuffing inverts stuffing (R108) -/

theorem destuffFrom_stuffFrom (x : Bits) {c : Nat} (hc : c ≤ 4) : destuffFrom c (stuffFrom c x) = .ok x := by
  induction x generalizing c with
  | nil => rfl
  | cons b t ih =>
    have h5 : c ≠ 5 := by omega
    cases b with
    | false => rw [stuffFrom, destuffFrom_cons h5, if_neg Bool.false_ne_true, ih (Nat.zero_le 4), cmd_ok_bind]
    | true =>
      by_cases hfifth : c + 1 = 5
      · rw [stuffFrom, if_pos hfifth, destuffFrom_cons h5, if_pos rfl, hfifth, destuffFrom_five,
          if_neg Bool.false_ne_true, ih (Nat.zero_le 4), cmd_ok_bind]
      · rw [stuffFrom, if_neg hfifth, destuffFrom_cons h5, if_pos rfl, ih (by omega), cmd_ok_bind]

/-! ### Runs of six 1s (R107, R109) -/

/-- Six consecutive 1 bits. -/
def sixOnes : Bits := List.replicate 6 true

theorem exists_slice_eq_iff {α : Type} {x T : List α} : (∃ i, slice x i (i + T.length) = T) ↔ T <:+: x := by
  constructor
  · rintro ⟨i, hi⟩
    rw [slice, Nat.add_sub_cancel_left] at hi
    rw [← hi]
    exact (List.take_prefix ..).isInfix.trans (List.drop_suffix ..).isInfix
  · rintro ⟨A, B, rfl⟩
    exact ⟨A.length, by rw [List.append_assoc, slice_append_mid]⟩

theorem exists_slice_eq_sixOnes {x : Bits} :
    (∃ i, slice x i (i + 6) = List.replicate 6 true) ↔ sixOnes <:+: x :=
  exists_slice_eq_iff (T := sixOnes)

/-- A 0 ends a run that is too short: six 1s in a row lie behind it. -/
theorem sixOnes_append_false_iff {c : Nat} (hc : c ≤ 5) (t : Bits) :
    sixOnes <:+: List.replicate c true ++ false :: t ↔ sixOnes <:+: t := by
  have hpre : ∀ k ≤ 5, ¬ sixOnes <+: List.replicate k true ++ false :: t := by
    intro k hk h
    have hbit := h.getElem (i := k) (by simp [sixOnes]; omega)
    simp only [sixOnes, List.getElem_replicate, List.getElem_append_right, List.length_replicate, Nat.sub_self,
      List.getElem_cons_zero, le_refl, reduceCtorEq] at hbit
  induction c with
  | zero => exact List.infix_cons_iff.trans (or_iff_right (hpre 0 hc))
  | succ c ih => exact List.infix_cons_iff.trans ((or_iff_right (hpre (c + 1) hc)).trans (ih (by omega)))

/-- The destuffer, c 1s into a run, fails exactly when those 1s and its input hold six 1s in a row. -/
theorem destuffFrom_eq_raise_iff (x : Bits) {c : Nat} (hc : c ≤ 5) :
    destuffFrom c x = raise .destuffViolation ↔ sixOnes <:+: List.replicate c true ++ x := by
  induction x generalizing c with
  | nil =>
    refine iff_of_false nofun fun h => ?_
    have := h.length_le
    simp [sixOnes] at this
    omega
  | cons b t ih =>
    by_cases h5 : c = 5
    · subst h5
      rw [destuffFrom_five]
      cases b with
      | true => exact iff_of_true rfl ⟨[], t, rfl⟩
      | false => exact (ih (Nat.zero_le 5)).trans (sixOnes_append_false_iff hc t).symm
    · have hbind : destuffFrom c (b :: t) = raise .destuffViolation ↔
          destuffFrom (if b then c + 1 else 0) t = raise .destuffViolation := by
        rw [destuffFrom_cons h5, raise, cmd_bind_error]
        exact or_iff_left (by rintro ⟨r, -, ⟨⟩⟩)
      rw [hbind]
      cases b with
      | true =>
        have hrun : List.replicate c true ++ true :: t = List.replicate (c + 1) true ++ t := by
          rw [List.replicate_succ', List.append_assoc, List.singleton_append]
        rw [hrun, if_pos rfl]
        exact ih (by omega)
      | false => exact (ih (Nat.zero_le 5)).trans (sixOnes_append_false_iff hc t).symm

theorem destuff_eq_raise_iff {x : Bits} : destuff x = raise .destuffViolation ↔ sixOnes <:+: x :=
  destuffFrom_eq_raise_iff x (Nat.zero_le 5)

theorem exists_destuff_ok_iff {x : Bits} : (∃ y, destuff x = .ok y) ↔ ¬ sixOnes <:+: x := by
  rw [← destuff_eq_raise_iff]
  constructor
  · rintro ⟨y, hy⟩ h
    cases hy.symm.trans h
  · exact (destuff_ok_or_raise x).resolve_right

/-! ### The statements -/

/-- Settles O35: the destuffer's counter follows the stuffer's, and a fifth 1 brings both to the stuffed 0. -/
theorem destuffInvertsStuff : Obligations.DestuffInvertsStuff := fun x => destuffFrom_stuffFrom x (Nat.zero_le 4)

/-- Settles O37: a violation is a sixth 1 behind a run of five. -/
theorem destuffFailsExactlyOnSixOnes : Obligations.DestuffFailsExactlyOnSixOnes := fun _ =>
  ⟨exists_slice_eq_sixOnes.trans destuff_eq_raise_iff.symm,
    not_exists.symm.trans ((not_congr exists_slice_eq_sixOnes).trans exists_destuff_ok_iff.symm)⟩

/-- Settles O36: stuffed bits destuff, so they hold no six 1s; the coded 0111110 of five 1s, from level 0, does. -/
theorem stuffedBitsHaveNoSixOnes : Obligations.StuffedBitsHaveNoSixOnes := by
  refine ⟨fun x i hi => ?_, [false, true, true, true, true, true], false, 0, rfl⟩
  exact exists_destuff_ok_iff.1 ⟨x, destuffInvertsStuff x⟩ (exists_slice_eq_sixOnes.1 ⟨i, hi⟩)

end Sys2Proof.Machine
end

section
/-! PROOFS. The stuffer, the flag search and the frame builder as commands: what each commits over a written input, and
how it fails (R116 to R122). -/

namespace Sys2Proof.Machine

/-! ### Results under the check that they fit (R64, R174) -/

section
variable {s u : State} {n cap : Nat} {e : CmdError}

theorem commit_fits_ok (h : n ≤ cap) :
    commit s (fits n cap e >>= fun _ => .ok u) = .next (u.setStatus statusOk) := by
  rw [fits_ok h, cmd_ok_bind, commit_ok]

theorem commit_fits_raise (h : cap < n) :
    commit s (fits n cap e >>= fun _ => .ok u) = .next (s.setStatus e.status) := by
  rw [fits_raise h, raise_bind, commit_raise]

end

/-- A block write of OUT from 0 sets OUT_LEN to the number of bits, when a word can hold it. -/
theorem putOut_zero_outLen (s : State) {y : Bits} {w : Word} (h : y.length ≤ w.toNat) :
    (s.putOut 0 y).outLen.toNat = y.length := by
  rw [State.putOut_outLen, Nat.zero_add, toNat_ofNat_of_le_toNat h]

/-! ### One bit (R116 to R118) -/

section
variable {s : State} {imm : Byte}

theorem exec_stuffBit {emit : Bits} {c : BitVec 3} (h : stuffStep s.stuffCnt (immBit imm) = (emit, c)) :
    exec (.stuffBit imm) s = commit s (do
      fits (s.outLen.toNat + emit.length) s.caps.bits.toNat .capBits
      .ok { s.putOut s.outLen.toNat emit with stuffCnt := c }) := by
  show execStuffBit imm s = _
  rw [execStuffBit, h]
  rfl

/-- With five 1s behind it the bit is a stuffed 0, which is dropped, or a violation. -/
theorem exec_destuffBit_stuffed (h5 : s.destuffCnt = 5) :
    exec (.destuffBit imm) s =
      commit s (if immBit imm then raise .destuffViolation else .ok { s with destuffCnt := 0 }) := by
  show execDestuffBit imm s = _
  rw [execDestuffBit, if_pos h5]

theorem exec_destuffBit (h5 : s.destuffCnt ≠ 5) :
    exec (.destuffBit imm) s = commit s (do
      fits (s.outLen.toNat + 1) s.caps.bits.toNat .capBits
      .ok { s.putOut s.outLen.toNat [immBit imm] with
        destuffCnt := if immBit imm then s.destuffCnt + 1 else 0 }) := by
  show execDestuffBit imm s = _
  rw [execDestuffBit, if_neg h5]
  rfl

end

/-- R117's three cases are the stuffer's step. -/
theorem stuffStep_of_cases {c0 c : BitVec 3} {b : Bool} {emit : Bits}
    (h : (b = true ∧ c0 = 4 ∧ emit = [true, false] ∧ c = 0) ∨ (b = true ∧ c0 ≠ 4 ∧ emit = [true] ∧ c = c0 + 1) ∨
      (b = false ∧ emit = [false] ∧ c = 0)) : stuffStep c0 b = (emit, c) := by
  rcases h with ⟨rfl, h4, rfl, rfl⟩ | ⟨rfl, h4, rfl, rfl⟩ | ⟨rfl, rfl, rfl⟩
  · rw [stuffStep, if_pos rfl, if_pos h4]
  · rw [stuffStep, if_pos rfl, if_neg h4]
  · rfl

/-- Settles O32: a unit reset commits the registers it loads. -/
theorem unitResetCommands : Obligations.UnitResetCommands :=
  ⟨decode_eq_ok_iff_encode.2 (by decide), decode_eq_ok_iff_encode.2 (by decide), fun s => commit_ok s _,
    fun s => commit_ok s _⟩

/-- Settles O33: a block write at OUT_LEN of what the step emits, under the check that it fits; with five 1s behind it
the destuffer writes nothing. -/
theorem stuffAndDestuffOneBit : Obligations.StuffAndDestuffOneBit := by
  refine ⟨fun s imm emit c hstep => ?_, fun s imm => ⟨fun h5 hb => ?_, fun h5 hb => ?_, fun h5 hcap => ?_,
    fun h5 hcap => ?_⟩⟩
  · have hexec := exec_stuffBit (imm := imm) (stuffStep_of_cases hstep)
    exact ⟨fun hcap => ⟨_, hexec.trans (commit_fits_ok hcap), writes_bufPut .., toNat_ofNat_of_le_toNat hcap, rfl⟩,
      fun hcap => hexec.trans (commit_fits_raise hcap)⟩
  · rw [exec_destuffBit_stuffed h5, immBit, hb, if_neg Bool.false_ne_true, commit_ok]
    rfl
  · apply failsWith_of_raise (e := .destuffViolation)
    rw [exec_destuffBit_stuffed h5, immBit, hb, if_pos rfl]
  · exact ⟨_, (exec_destuffBit h5).trans (commit_fits_ok hcap), writes_bufPut ..,
      toNat_ofNat_of_le_toNat hcap, rfl⟩
  · exact (exec_destuffBit h5).trans (commit_fits_raise hcap)

/-! ### Whole buffers (R119, R120, R122) -/

section
variable {s : State} {x : Bits}

theorem exec_stuffBuf (hx : InputBits s x) : exec .stuffBuf s = commit s (do
    fits (stuff x).length s.caps.bits.toNat .capBits
    .ok (s.putOut 0 (stuff x))) := by
  show execStuffBuf s = _
  rw [execStuffBuf, inBits_eq_ok.2 hx, cmd_ok_bind]
  rfl

theorem exec_destuffBuf (hx : InputBits s x) :
    exec .destuffBuf s = commit s (destuff x >>= fun y => .ok (s.putOut 0 y)) := by
  show execDestuffBuf s = _
  rw [execDestuffBuf, inBits_eq_ok.2 hx, cmd_ok_bind]

theorem exec_buildFrame (hx : InputBits s x) : exec .buildFrame s = commit s (do
    fits (frameBits s.cfg x).length s.caps.bits.toNat .capBits
    .ok (s.putOut 0 (frameBits s.cfg x))) := by
  show execBuildFrame s = _
  rw [execBuildFrame, inBits_eq_ok.2 hx, cmd_ok_bind]
  rfl

end

theorem trainBits_eq : trainBits = (List.range 24).map fun j => decide (j % 2 = 1) := rfl

/-- Settles O39: the frame of R111 is written whole, under the check that it fits. -/
theorem buildFrameAssemblesTheFrame : Obligations.BuildFrameAssemblesTheFrame := by
  intro s x hx train flag c p f
  have hp : withCrc s.cfg.crcXorout x = p := congrArg (x ++ ·) (ubits_toNat _)
  have hf : f = frameBits s.cfg x := by
    rw [frameBits, frameBody, trainBits_eq, hp]
    rfl
  rw [hf]
  exact ⟨fun hcap => ⟨_, (exec_buildFrame hx).trans (commit_fits_ok hcap), writes_bufPut ..,
    putOut_zero_outLen s hcap, rfl⟩, fun hcap => (exec_buildFrame hx).trans (commit_fits_raise hcap)⟩

/-- Settles O34: a block write of the stuffed or destuffed input; an input that does not destuff is a violation. -/
theorem stuffAndDestuffBuffers : Obligations.StuffAndDestuffBuffers := by
  refine ⟨fun s x hx => ⟨fun hcap => ?_, fun hcap => (exec_stuffBuf hx).trans (commit_fits_raise hcap)⟩,
    fun s x hx => ⟨fun y hy => ?_, fun hno => ?_⟩⟩
  · exact ⟨_, (exec_stuffBuf hx).trans (commit_fits_ok hcap), writes_bufPut .., putOut_zero_outLen s hcap, rfl⟩
  · have hlen : y.length ≤ x.length := (ends_destuff (E := fun _ => True) x trivial).1 y hy
    have hexec := exec_destuffBuf hx
    rw [hy, cmd_ok_bind, commit_ok] at hexec
    exact ⟨_, hexec, writes_bufPut .., putOut_zero_outLen s (hlen.trans hx.1.ge), hlen, rfl⟩
  · have hviol : destuff x = raise .destuffViolation :=
      (destuff_ok_or_raise x).resolve_left fun ⟨y, hy⟩ => hno y hy
    apply failsWith_of_raise (e := .destuffViolation)
    rw [exec_destuffBuf hx, hviol, raise_bind]

/-! ### The flag search (R121) -/

/-- The 8 bits from n on agree with FLAG in at least k places (R121). -/
def flagHit (x : Bits) (k n : Nat) : Bool := decide (k ≤ agree (slice x n (n + 8)) flagBits)

/-- Over bits that all hold a value the scan answers the first hit. -/
theorem flagScan_map_some {x : Bits} (k : Nat) {i n : Nat} (h : n = 0 ∨ i + n + 7 ≤ x.length) :
    flagScan (x.map some) k i n = .ok ((List.range' i n).find? (flagHit x k)) := by
  induction n generalizing i with
  | zero => rfl
  | succ n ih =>
    rw [flagScan, airBits_some _ _ _ (by omega), cmd_ok_bind, List.range'_succ, List.find?_cons, flagHit,
      ih (by omega)]
    split_ifs with hk
    · rw [decide_eq_true hk]
    · rw [decide_eq_false hk]

section
variable {s : State} {x : Bits}

theorem findFlagFrom_eq (hx : InputBits s x) (k : Nat) :
    findFlagFrom s k = .ok ((List.range' s.cfg.searchStart.toNat
      (x.length + 1 - (s.cfg.searchStart.toNat + 8))).find? (flagHit x k)) := by
  rw [findFlagFrom, inSnapshot_eq hx, hx.1]
  exact flagScan_map_some k (by omega)

/-- The two forms of the search differ in the number of places that have to agree. -/
theorem exec_flagSearch {i : Instr} {k : Nat} (hi : (i = .findFlag ∧ k = 8) ∨
    (i = .findFlagFuzzy ∧ k = s.cfg.flagMinAgree.toNat ∧ 6 ≤ k ∧ k ≤ 8)) :
    exec i s = endSearch s (findFlagFrom s k) := by
  rcases hi with ⟨rfl, rfl⟩ | ⟨rfl, rfl, hlo, hhi⟩
  · rfl
  · show execFindFlagFuzzy s = _
    rw [execFindFlagFuzzy, require_eq_ok (u := ()).2 (by simp [hlo, hhi]), cmd_ok_bind]

theorem findFlagFuzzy_illegal (h : s.cfg.flagMinAgree.toNat < 6 ∨ 8 < s.cfg.flagMinAgree.toNat) :
    FailsWith .findFlagFuzzy s 0x00010E01 := by
  have hcheck : (decide (6 ≤ s.cfg.flagMinAgree.toNat) && decide (s.cfg.flagMinAgree.toNat ≤ 8)) = false := by
    simp only [Bool.and_eq_false_iff, decide_eq_false_iff_not]
    omega
  show execFindFlagFuzzy s = _
  rw [execFindFlagFuzzy, hcheck, require_false, raise_bind]
  rfl

end

/-- Settles O38: the scan runs over the windows that lie at or above SEARCH_START and inside the input, and answers the
first hit. -/
theorem flagSearch : Obligations.FlagSearch := by
  refine ⟨?_, fun s => findFlagFuzzy_illegal⟩
  intro s x i k hx hi flag hit
  rw [exec_flagSearch hi, findFlagFrom_eq hx]
  refine ⟨fun n ⟨hstart, hend, hn⟩ hfirst => ?_, fun hnone => ?_⟩
  · have hfind : (List.range' s.cfg.searchStart.toNat (x.length + 1 - (s.cfg.searchStart.toNat + 8))).find?
        (flagHit x k) = some n := by
      refine List.find?_range'_eq_some.2 ⟨decide_eq_true hn, List.mem_range'_1.2 (by omega), fun m hm hmn => ?_⟩
      rw [Bool.not_eq_true']
      exact decide_eq_false fun hk => hfirst m hmn ⟨hm, by omega, hk⟩
    rw [hfind]
    rfl
  · have hfind : (List.range' s.cfg.searchStart.toNat (x.length + 1 - (s.cfg.searchStart.toNat + 8))).find?
        (flagHit x k) = none := by
      refine List.find?_range'_eq_none.2 fun m hm hmn => ?_
      rw [Bool.not_eq_true']
      exact decide_eq_false fun hk => hnone m ⟨hm, by omega, hk⟩
    rw [hfind]
    rfl

end Sys2Proof.Machine
end

section
/-! PROOFS. The deframer: which offset its search keeps, how `locate` ends from there on, and the commands over it
(R110, R113 to R115, R123, R124). -/

namespace Sys2Proof.Machine

/-! ### Coded regions (R8, R125, R126) -/

/-- Encoding gives back the levels that were decoded. -/
theorem nrziEnc_nrziDec (Y : Bits) (l : Bool) : nrziEnc l (nrziDec l Y) = Y := by
  induction Y generalizing l with
  | nil => rfl
  | cons y t ih =>
    have hnext : nrziNext l (y == l) = y := by cases y <;> cases l <;> rfl
    rw [nrziDec, nrziEnc, hnext, ih]

theorem slice_append_drop {α : Type} (B : List α) {q e : Nat} (h : q ≤ e) : slice B q e ++ B.drop e = B.drop q := by
  have hdrop : B.drop e = (B.drop q).drop (e - q) := by rw [List.drop_drop, Nat.add_sub_cancel' h]
  rw [slice, hdrop, List.take_append_drop]

/-- A region that NRZI-decodes to the stuffing of the bits needed is taken as their payload. -/
theorem takePayload_of_nrziDec {B pay : Bits} {l : Bool} {q e : Nat} (hqe : q ≤ e) (he : e ≤ B.length)
    (h : nrziDec l (slice B q e) = stuff pay) :
    takePayload l 0 pay.length q ((B.drop q).map some) = .ok (pay, e) := by
  have hcoded : B.drop q = nrziEnc l (stuff pay) ++ B.drop e := by
    rw [← h, nrziEnc_nrziDec, slice_append_drop B hqe]
  have hend : q + (stuff pay).length = e := by
    rw [← h, nrziDec_length, slice, List.length_take, List.length_drop]
    omega
  rw [hcoded, List.map_append, ← hend]
  exact takePayload_body pay _ l 0 q (Nat.zero_le 4)

/-- The payload taken is decoded from the region that the loop has passed. -/
theorem takePayload_region {B pay : Bits} {l : Bool} {need q e : Nat}
    (h : takePayload l 0 need q ((B.drop q).map some) = .ok (pay, e)) :
    pay.length = need ∧ q ≤ e ∧ nrziDec l (slice B q e) = stuff pay := by
  obtain ⟨n, -, rfl, hlen, hdec⟩ := takePayload_ok (by omega) h
  rw [if_neg (by omega)] at hdec
  refine ⟨hlen, Nat.le_add_right .., ?_⟩
  rw [slice, Nat.add_sub_cancel_left, hdec, stuff]

/-! ### The best candidate (R114) -/

/-- The offsets at which R114 looks for a frame start: below TRAIN_SPAN, with 32 bits to compare. -/
def inSpan (c : Cfg) (B : Bits) (t : Nat) : Prop := t < c.trainSpan.toNat ∧ t + 32 ≤ B.length

/-- p is the first of the candidates that score highest (R114). -/
structure BestAt (c : Cfg) (B : Bits) (p : Nat) : Prop where
  span : inSpan c B p
  good : goodAt c B p
  best : ∀ t, inSpan c B t → goodAt c B t → scoreAt B t < scoreAt B p ∨ (scoreAt B t = scoreAt B p ∧ p ≤ t)

section
variable {c : Cfg} {B : Bits} {p : Nat}

theorem BestAt.unique {p' : Nat} (h : BestAt c B p) (h' : BestAt c B p') : p = p' := by
  have hle := h.best p' h'.span h'.good
  have hge := h'.best p h.span h.good
  omega

/-- The search runs over the offsets in the span. -/
theorem lt_scanEnd_iff (hc : 1 ≤ c.trainSpan.toNat) (hB : 32 ≤ B.length) (t : Nat) :
    t < min (c.trainSpan.toNat - 1) (B.length - 32) + 1 ↔ inSpan c B t := by
  unfold inSpan
  omega

/-- The search says whether a training window matched, and has the best candidate if there is one. -/
theorem scanFrame_best (hc : 1 ≤ c.trainSpan.toNat) (hB : 32 ≤ B.length) :
    ∃ a, scanFrame c (B.map some) = .ok a ∧ (a.foundTrain = true ↔ ∃ t, inSpan c B t ∧ trainsAt c B t) ∧
      (a.best = none ↔ ∀ t, inSpan c B t → ¬ goodAt c B t) ∧ ∀ p sc, a.best = some (p, sc) → BestAt c B p := by
  obtain ⟨a, ha, htrain, hbest⟩ := scanFrame_spec c B hB
  simp only [lt_scanEnd_iff hc hB] at htrain hbest
  refine ⟨a, ha, htrain, ?_⟩
  cases hb : a.best with
  | none =>
    rw [hb] at hbest
    exact ⟨iff_of_true rfl hbest, nofun⟩
  | some ps =>
    obtain ⟨p, sc⟩ := ps
    rw [hb] at hbest
    obtain ⟨hspan, hgood, rfl, hmax⟩ := hbest
    exact ⟨iff_of_false nofun fun hno => hno p hspan hgood, by rintro _ _ ⟨⟩; exact ⟨hspan, hgood, hmax⟩⟩

theorem scanFrame_of_bestAt (hc : 1 ≤ c.trainSpan.toNat) (hB : 32 ≤ B.length) (hp : BestAt c B p) :
    ∃ a sc, scanFrame c (B.map some) = .ok a ∧ a.best = some (p, sc) := by
  obtain ⟨a, ha, -, hnone, hsome⟩ := scanFrame_best hc hB
  cases hb : a.best with
  | none => exact absurd hp.good (hnone.1 hb p hp.span)
  | some ps =>
    obtain ⟨p', sc⟩ := ps
    rw [(hsome p' sc hb).unique hp] at hb
    exact ⟨a, sc, ha, hb⟩

end

/-! ### How `locate` ends (R114) -/

section
variable {c : Cfg} {B : Bits}

theorem locate_belowMinimum (hB : B.length < 208) : locate c (B.map some) = raise .belowMinimum := by
  rw [locate, List.length_map, decide_eq_false (by omega), require_false, raise_bind]

/-- Without a candidate the search reports what it has not found. -/
theorem locate_of_no_candidate {a : Scan} (hB : 208 ≤ B.length) (ha : scanFrame c (B.map some) = .ok a)
    (hbest : a.best = none) :
    locate c (B.map some) = if a.foundTrain then raise .startFlag else raise .training := by
  rw [locate, List.length_map, require_of _ hB, cmd_ok_bind, ha, cmd_ok_bind, hbest]

theorem locate_training (hc : 1 ≤ c.trainSpan.toNat) (hB : 208 ≤ B.length)
    (hno : ∀ t, inSpan c B t → ¬ trainsAt c B t) : locate c (B.map some) = raise .training := by
  obtain ⟨a, ha, htrain, hnone, -⟩ := scanFrame_best (B := B) hc (by omega)
  have hfound : ¬ a.foundTrain = true := fun h => by
    obtain ⟨t, hspan, ht⟩ := htrain.1 h
    exact hno t hspan ht
  rw [locate_of_no_candidate hB ha (hnone.2 fun t hspan hgood => hno t hspan hgood.1), if_neg hfound]

theorem locate_startFlag (hc : 1 ≤ c.trainSpan.toNat) (hB : 208 ≤ B.length)
    (htrain : ∃ t, inSpan c B t ∧ trainsAt c B t) (hno : ∀ t, inSpan c B t → ¬ goodAt c B t) :
    locate c (B.map some) = raise .startFlag := by
  obtain ⟨a, ha, hfound, hnone, -⟩ := scanFrame_best (B := B) hc (by omega)
  rw [locate_of_no_candidate hB ha (hnone.2 hno), if_pos (hfound.2 htrain)]

section
variable {p : Nat} (hc : 1 ≤ c.trainSpan.toNat) (hB : 208 ≤ B.length) (hp : BestAt c B p)
include hc hB hp

/-- From the best candidate on `locate` decodes the payload behind it and compares the end flag. -/
theorem locate_of_bestAt :
    locate c (B.map some) = (do
      let r ← takePayload c.nrziInit 0 184 (p + 32) ((B.drop (p + 32)).map some)
      require (r.2 + 8 ≤ B.length) .endFlagTruncated
      let fl ← airBits (B.map some) r.2 8
      require (c.flagMinAgree.toNat ≤ agree fl flagBits) .endFlag
      .ok { p := p, q := p + 32, e := r.2, pay := r.1 }) := by
  obtain ⟨a, sc, ha, hbest⟩ := scanFrame_of_bestAt hc (by omega) hp
  rw [locate, List.length_map, require_of _ hB, cmd_ok_bind, ha, cmd_ok_bind, hbest, List.map_drop]

theorem locate_payload_raise {e : CmdError}
    (hpay : takePayload c.nrziInit 0 184 (p + 32) ((B.drop (p + 32)).map some) = raise e) :
    locate c (B.map some) = raise e := by
  rw [locate_of_bestAt hc hB hp, hpay, raise_bind]

section
variable {e : Nat} {pay : Bits}
  (hpay : takePayload c.nrziInit 0 184 (p + 32) ((B.drop (p + 32)).map some) = .ok (pay, e))
include hpay

theorem locate_endFlagTruncated (he : B.length < e + 8) : locate c (B.map some) = raise .endFlagTruncated := by
  rw [locate_of_bestAt hc hB hp, hpay, cmd_ok_bind]
  dsimp only
  rw [decide_eq_false (by omega), require_false, raise_bind]

theorem locate_endFlag (he : e + 8 ≤ B.length) : locate c (B.map some) =
      if c.flagMinAgree.toNat ≤ agree (slice B e (e + 8)) flagBits then
        .ok { p := p, q := p + 32, e := e, pay := pay }
      else raise .endFlag := by
  rw [locate_of_bestAt hc hB hp, hpay, cmd_ok_bind]
  dsimp only
  rw [require_of _ he, cmd_ok_bind, airBits_some _ _ _ he, cmd_ok_bind]
  split_ifs with hend
  · rw [require_of _ hend, cmd_ok_bind]
  · rw [decide_eq_false hend, require_false, raise_bind]

end

end

/-- A frame that is found starts at the best candidate, and its payload and its end flag are decoded behind it. -/
theorem locate_ok (hc : 1 ≤ c.trainSpan.toNat) {l : Located} (h : locate c (B.map some) = .ok l) :
    BestAt c B l.p ∧ l.q = l.p + 32 ∧ l.e + 8 ≤ B.length ∧
      c.flagMinAgree.toNat ≤ agree (slice B l.e (l.e + 8)) flagBits ∧
      takePayload c.nrziInit 0 184 l.q ((B.drop l.q).map some) = .ok (l.pay, l.e) := by
  have hB : 208 ≤ B.length := by
    by_contra hlt
    cases (locate_belowMinimum (by omega)).symm.trans h
  obtain ⟨a, ha, -, -, hsome⟩ := scanFrame_best (B := B) hc (by omega)
  cases hb : a.best with
  | none =>
    rw [locate_of_no_candidate hB ha hb] at h
    split_ifs at h <;> cases h
  | some ps =>
    obtain ⟨p, sc⟩ := ps
    have hp := hsome p sc hb
    obtain ⟨⟨pay, e⟩, hpay, -⟩ := cmd_bind_ok.1 ((locate_of_bestAt hc hB hp).symm.trans h)
    have he : e + 8 ≤ B.length := by
      by_contra hlt
      cases (locate_endFlagTruncated hc hB hp hpay (by omega)).symm.trans h
    rw [locate_endFlag hc hB hp hpay he] at h
    split_ifs at h with hend
    · cases h
      exact ⟨hp, rfl, he, hend, hpay⟩
    · cases h

end

/-! ### The statement about `locate` -/

/-- Settles O40: the search keeps the first of the best candidates, and behind it the payload loop and the check of the
end flag decide. -/
theorem locateFindsTheBestFrame : Obligations.LocateFindsTheBestFrame := by
  intro c B hlegal trains good score best coded
  have hc : 1 ≤ c.trainSpan.toNat := hlegal.1
  have htrains (t) : trains t ↔ inSpan c B t ∧ trainsAt c B t := and_assoc.symm
  have hgood (t) : good t ↔ inSpan c B t ∧ goodAt c B t := (and_congr_left' (htrains t)).trans and_assoc
  have hbest (p) : best p ↔ BestAt c B p :=
    ⟨fun ⟨hg, hmax⟩ => ⟨((hgood p).1 hg).1, ((hgood p).1 hg).2, fun t hs ht => hmax t ((hgood t).2 ⟨hs, ht⟩)⟩,
      fun hp => ⟨(hgood p).2 ⟨hp.span, hp.good⟩, fun t ht => hp.best t ((hgood t).1 ht).1 ((hgood t).1 ht).2⟩⟩
  simp only [htrains, hgood, hbest, not_and]
  refine ⟨locate_belowMinimum, locate_training hc, locate_startFlag hc, fun l hl => ?_,
    fun p hB hp => ⟨fun pay ext hlen hext hcut => ?_, fun n y hn hy hlen hviol => ?_,
      fun e pay hlen hqe he hdec => ?_⟩⟩
  · obtain ⟨hp, hq, he, hend, hpay⟩ := locate_ok hc hl
    obtain ⟨hlen, hqe, hdec⟩ := takePayload_region hpay
    exact ⟨hp, hq, hqe, he, hend, hlen, hdec⟩
  · apply locate_payload_raise hc hB hp
    rw [← hlen]
    exact takePayload_truncated (Nat.zero_le 4) hext hcut
  · rw [nrziDec_length] at hn
    exact locate_payload_raise hc hB hp (takePayload_violation hn hy hlen hviol)
  · have hpay := takePayload_of_nrziDec hqe he hdec
    rw [hlen] at hpay
    refine ⟨locate_endFlagTruncated hc hB hp hpay, fun hroom hend => ?_, fun hroom hend => ?_⟩
    · rw [locate_endFlag hc hB hp hpay hroom, if_neg (Nat.not_le.2 hend)]
    · rw [locate_endFlag hc hB hp hpay hroom, if_pos hend]

/-! ### Deframing (R115, R123, R124) -/

/-- Settles O41: the frame is found at offset 0, and its payload is the message and the message's CRC. -/
theorem deframeInvertsFrame : Obligations.DeframeInvertsFrame := fun _ _ tail hm hc =>
  ⟨_, deframeFn_frameBits tail hm hc, rfl, rfl, rfl, rfl, rfl, rfl⟩

/-- A located frame lies inside the sequence, and its payload is whole. -/
theorem locate_inside {c : Cfg} {B : Bits} {l : Located} (hc : c.searchLegal) (h : locate c (B.map some) = .ok l) :
    l.p ≤ B.length ∧ l.q ≤ l.e ∧ l.e ≤ B.length ∧ l.pay.length = 184 := by
  obtain ⟨-, hq, he, -, hpay⟩ := locate_ok hc.1 h
  obtain ⟨hlen, hqe, -⟩ := takePayload_region hpay
  omega

/-- What `deframe_fn` answers: the first 168 payload bits, where the frame lies, and a CRC field that agrees. -/
theorem deframeFn_inside {c : Cfg} {B : Bits} {d : Deframed} (hc : c.searchLegal)
    (h : deframeFn c (B.map some) = .ok d) :
    (d.p ≤ B.length ∧ d.q ≤ d.e ∧ d.e ≤ B.length ∧ d.msg.length = 168) ∧
      d.crc = crc16 c.crcXorout d.msg ∧ d.rx = d.crc := by
  obtain ⟨l, hl, h⟩ := cmd_bind_ok.1 h
  obtain ⟨_, hcrc, h⟩ := cmd_bind_ok.1 h
  obtain ⟨hp, hqe, he, hpay⟩ := locate_inside hc hl
  cases h
  have hmsg : (l.pay.take 168).length = 168 := by
    rw [List.length_take, hpay]
    rfl
  exact ⟨⟨hp, hqe, he, hmsg⟩, rfl, (of_decide_eq_true (require_eq_ok.1 hcrc)).symm⟩

section
variable {s : State} {x : Bits}

theorem search_illegal (hc : ¬ s.cfg.searchLegal) :
    FailsWith .extractPayload s 0x00010E01 ∧ FailsWith .deframe s 0x00010E01 := by
  constructor
  · apply failsWith_of_raise (e := .thresholdRange)
    show execExtractPayload s = _
    rw [execExtractPayload, frameCfgCheck_raise hc, raise_bind]
  · apply failsWith_of_raise (e := .thresholdRange)
    show execDeframe s = _
    rw [execDeframe, frameCfgCheck_raise hc, raise_bind]

theorem exec_extractPayload (hx : InputBits s x) (hc : s.cfg.searchLegal) :
    exec .extractPayload s = commit s (do
      let l ← locate s.cfg (x.map some)
      let body ← airBits (x.map some) l.q (l.e - l.q)
      .ok ((s.putOut 0 body).putFramePos l.p l.q l.e)) := by
  show execExtractPayload s = _
  rw [execExtractPayload, frameCfgCheck_eq_ok (u := ()).2 hc, cmd_ok_bind, inSnapshot_eq hx]

theorem exec_deframe (hx : InputBits s x) (hc : s.cfg.searchLegal) :
    exec .deframe s = commit s (do
      let d ← deframeFn s.cfg (x.map some)
      .ok { (s.putOut 0 d.msg).putFramePos d.p d.q d.e with crcValue := d.crc, crcRx := d.rx }) := by
  show execDeframe s = _
  rw [execDeframe, frameCfgCheck_eq_ok (u := ()).2 hc, cmd_ok_bind, inSnapshot_eq hx]

end

/-- The frame positions read back as written, when a word can hold the end of the sequence that they lie in. -/
theorem putFramePos_toNat (s : State) {w : Word} {p q e : Nat} (hp : p ≤ w.toNat) (hq : q ≤ e) (he : e ≤ w.toNat) :
    (s.putFramePos p q e).framePos.frameStart.toNat = p ∧ (s.putFramePos p q e).framePos.payloadStart.toNat = q ∧
      (s.putFramePos p q e).framePos.payloadEnd.toNat = e :=
  ⟨toNat_ofNat_of_le_toNat hp, toNat_ofNat_of_le_toNat (hq.trans he), toNat_ofNat_of_le_toNat he⟩

/-- Settles O42: the commands commit what `locate` and `deframe_fn` answer, under the check of their registers. -/
theorem extractPayloadAndDeframe : Obligations.ExtractPayloadAndDeframe := by
  refine ⟨fun s => search_illegal, fun s x hx hc => ⟨fun l hl => ?_, fun e he => ?_, fun d hd => ?_, fun e he => ?_⟩⟩
  · obtain ⟨hp, hqe, he, -⟩ := locate_inside hc hl
    have hbody : airBits (x.map some) l.q (l.e - l.q) = .ok (slice x l.q l.e) := by
      rw [airBits_some _ _ _ (by omega), Nat.add_sub_cancel' hqe]
    have hlen : (slice x l.q l.e).length = l.e - l.q := by
      rw [slice, List.length_take, List.length_drop]
      omega
    rw [← hx.1] at hp he
    obtain ⟨hstart, hq, hend⟩ := putFramePos_toNat s hp hqe he
    have hexec := exec_extractPayload hx hc
    rw [hl, cmd_ok_bind, hbody, cmd_ok_bind, commit_ok] at hexec
    exact ⟨_, hexec, writes_bufPut .., (putOut_zero_outLen s (w := s.inLen) (by omega)).trans hlen, hstart, hq, hend,
      rfl⟩
  · apply failsWith_of_raise
    rw [exec_extractPayload hx hc, he, raise_bind]
  · obtain ⟨⟨hp, hqe, he, hlen⟩, hcrc, hrx⟩ := deframeFn_inside hc hd
    rw [← hx.1] at hp he
    obtain ⟨hstart, hq, hend⟩ := putFramePos_toNat s hp hqe he
    have hexec := exec_deframe hx hc
    rw [hd, cmd_ok_bind, commit_ok] at hexec
    exact ⟨_, hexec, writes_bufPut .., (putOut_zero_outLen s (w := 168) hlen.le).trans hlen, hstart, hq, hend, hrx,
      hcrc, rfl⟩
  · apply failsWith_of_raise
    rw [exec_deframe hx hc, he, raise_bind]

end Sys2Proof.Machine
end

section
/-! PROOFS. The discriminator: what it returns on the ideal baseband, and DEMODULATE, its errors in their order and the
words that its success commits (R156 to R160, R165). -/

namespace Sys2Proof.Machine

/-! ### The loopback of the ideal baseband (R151, R160) -/

theorem abs_nrz (B : Bits) (S n : Nat) : |nrz B S n| = 1 := by
  unfold nrz
  split <;> simp

/-- Neither the levels nor their weighted means leave [−1, 1] (R150). -/
theorem ModJob.abs_level_le_one (j : ModJob) (n : Nat) : |j.level n| ≤ 1 := by
  unfold ModJob.level
  split
  · exact abs_convSame_le _ _ _ _ _ _ _ zero_le_one fun m => (abs_nrz ..).le
  · exact (abs_nrz ..).le

theorem ModJob.phase_succ (j : ModJob) (n : Nat) : j.phase (n + 1) = j.phase n + j.delta (n + 1) :=
  Finset.sum_range_succ ..

/-- A full-scale step turns the phase forward by less than half a turn: at most a quarter turn in the GMSK profile, and
in the FSK profile because the deviation is below half the sample rate. -/
theorem fullStep_mem_Ioo {gmsk : Bool} {S dev fs : Nat} (hS : 1 ≤ S) (hdev : gmsk = false → 0 < dev ∧ 2 * dev < fs) :
    fullStep gmsk S dev fs ∈ Set.Ioo 0 Real.pi := by
  have hpi := Real.pi_pos
  cases gmsk with
  | true =>
    have hS' : (1 : ℝ) ≤ S := by exact_mod_cast hS
    rw [fullStep, if_pos rfl]
    exact ⟨by positivity, (div_lt_iff₀ (by positivity)).2 (by nlinarith)⟩
  | false =>
    obtain ⟨hpos, hlt⟩ := hdev rfl
    have hpos' : (0 : ℝ) < dev := by exact_mod_cast hpos
    have hlt' : (2 * dev : ℝ) < fs := by exact_mod_cast hlt
    have hfs : (0 : ℝ) < fs := by linarith
    rw [fullStep, if_neg Bool.false_ne_true]
    exact ⟨by positivity, (div_lt_iff₀ hfs).2 (by nlinarith)⟩

/-- The phase difference of two points of the unit circle, when it is less than half a turn. -/
theorem arg_exp_mul_conj_exp {x y : ℝ} (h : |x - y| < Real.pi) :
    Complex.arg (Complex.exp (x * Complex.I) * (starRingEnd ℂ) (Complex.exp (y * Complex.I))) = x - y := by
  have hexp : Complex.exp (x * Complex.I) * (starRingEnd ℂ) (Complex.exp (y * Complex.I)) =
      Complex.exp ((x - y : ℝ) * Complex.I) := by
    rw [← Complex.exp_conj, ← Complex.exp_add]
    congr 1
    simp only [map_mul, Complex.conj_ofReal, Complex.conj_I]
    push_cast
    ring
  obtain ⟨hlo, hhi⟩ := abs_lt.1 h
  rw [hexp, Complex.arg_exp_mul_I, toIocMod_eq_self]
  exact ⟨hlo, by linarith⟩

/-- Settles O56: adjacent samples differ by the phase step of the level, which is less than half a turn. -/
theorem idealLoopbackReturnsTheLevel : Obligations.IdealLoopbackReturnsTheLevel := by
  intro j k hk hS hdev z
  obtain ⟨n, rfl⟩ : ∃ n, k = n + 1 := ⟨k - 1, by omega⟩
  obtain ⟨hpos, hlt⟩ := fullStep_mem_Ioo hS hdev
  have hstep : j.phase (n + 1) - j.phase n = j.delta (n + 1) := by rw [j.phase_succ, add_sub_cancel_left]
  have hdelta : |j.phase (n + 1) - j.phase n| < Real.pi := by
    rw [hstep, ModJob.delta, abs_mul, abs_of_pos hpos]
    exact (mul_le_of_le_one_right hpos.le (j.abs_level_le_one _)).trans_lt hlt
  rw [Nat.add_sub_cancel, arg_exp_mul_conj_exp hdelta, hstep, ModJob.delta, mul_div_cancel_left₀ _ hpos.ne']

/-! ### Checks of the registers, in their order (R156) -/

theorem filterCheck_raise_bt {c : Cfg} (h : ¬ (1 ≤ c.btX100.toNat ∧ c.btX100.toNat ≤ 100)) :
    filterCheck c = raise .btRange := by
  have hreq : ¬ (1 ≤ c.btX100.toNat && c.btX100.toNat ≤ 100) = true := by
    simpa only [Bool.and_eq_true, decide_eq_true_eq] using h
  rw [filterCheck, Bool.eq_false_iff.2 hreq, require_false, raise_bind]

theorem filterCheck_raise_span {c : Cfg} (hlo : 1 ≤ c.btX100.toNat) (hhi : c.btX100.toNat ≤ 100)
    (h : ¬ (c.gaussSpan.toNat = 3 ∨ c.gaussSpan.toNat = 4)) : filterCheck c = raise .spanRange := by
  have hreq : ¬ (c.gaussSpan.toNat = 3 || c.gaussSpan.toNat = 4) = true := by
    simpa only [Bool.or_eq_true, decide_eq_true_eq] using h
  rw [filterCheck, decide_eq_true hlo, decide_eq_true hhi, Bool.and_self, require_true, cmd_ok_bind,
    Bool.eq_false_iff.2 hreq, require_false]

theorem discCfgCheck_raise_sps {c : Cfg} (h : ∀ S, ¬ c.hasSps S) : discCfgCheck c = raise .spsNonInteger := by
  rw [discCfgCheck, spsCheck_raise h, raise_bind]

section
variable {c : Cfg} {S : Nat}

theorem discCfgCheck_raise_fsk (hS : c.hasSps S) (hg : c.gmsk = false) (h : c.fskDevHz.toNat = 0) :
    discCfgCheck c = raise .fskDevRange := by
  have hfsk : fskCheck c = raise .fskDevRange := require_eq_error.2 ⟨decide_eq_false (not_not.2 h), rfl⟩
  rw [discCfgCheck, spsCheck_eq_ok.2 hS, cmd_ok_bind, hg, if_neg Bool.false_ne_true, hfsk, raise_bind]

/-- Behind a legal profile the filter's registers are checked, when the filter is on. -/
theorem discCfgCheck_raise_filter {e : CmdError} (hS : c.hasSps S) (hp : c.gmsk = false → c.fskDevHz.toNat ≠ 0)
    (hl : c.lpfEn = true) (h : filterCheck c = raise e) : discCfgCheck c = raise e := by
  rw [discCfgCheck, spsCheck_eq_ok.2 hS, cmd_ok_bind, hl, if_pos rfl, h]
  cases hg : c.gmsk with
  | true => rw [if_pos rfl, cmd_ok_bind, raise_bind]
  | false => rw [if_neg Bool.false_ne_true, fskCheck_eq_ok (u := ()).2 (hp hg), cmd_ok_bind, raise_bind]

end

theorem finiteSample_eq_false_iff {z : Sample} : finiteSample z = false ↔ finite32 z.1 = false ∨ finite32 z.2 = false :=
  Bool.and_eq_false_iff

theorem finiteSample_eq_true_iff {z : Sample} : finiteSample z = true ↔ finite32 z.1 = true ∧ finite32 z.2 = true :=
  Bool.and_eq_true_iff

/-! ### Exact zeros (R165) -/

theorem allValued_eq_true_iff {v : ℚ × ℚ} {zs : List Sample} : allValued v zs = true ↔ ∀ z ∈ zs, sampleValue z = v := by
  simp only [allValued, List.all_eq_true, beq_iff_eq]

section
variable {c : Cfg} {zs : List Sample}

theorem quietInput_of_silent (h : ∀ z ∈ zs, val32 z.1 = 0 ∧ val32 z.2 = 0) : quietInput c zs = true := by
  have hall : allValued (0, 0) zs = true := allValued_eq_true_iff.2 fun z hz => Prod.ext (h z hz).1 (h z hz).2
  rw [quietInput, hall, Bool.true_or, Bool.true_or]

theorem quietInput_of_constant (hd : c.dcRemove = true) (h : ∀ z ∈ zs, ∀ z' ∈ zs, z = z') : quietInput c zs = true := by
  have hall : allValued (sampleValue (zs.headD (0, 0))) zs = true := by
    refine allValued_eq_true_iff.2 fun z hz => ?_
    cases zs with
    | nil => cases hz
    | cons z0 zs => rw [h z hz z0 List.mem_cons_self, List.headD_cons]
  rw [quietInput, hd, hall, Bool.and_self, Bool.or_true, Bool.true_or]

theorem quietInput_of_single (hn : zs.length = 1) (hl : c.lpfEn = false) : quietInput c zs = true := by
  rw [quietInput, hn, hl, beq_self_eq_true, Bool.not_false, Bool.and_self, Bool.or_true]

end

theorem val32_zero : val32 0 = 0 := by decide +kernel

theorem val32_discriminated_of_quiet {hw : Config.Analog} {s : State} {zs : List Sample}
    (h : quietInput s.cfg zs = true) : ∀ w ∈ discriminated hw s zs, val32 w = 0 := by
  intro w hmem
  rw [discriminated, if_pos h] at hmem
  rw [List.eq_of_mem_replicate hmem, val32_zero]

/-! ### The command (R165) -/

section
variable {s : State}

theorem demodulate_cfg_raise {e : CmdError} (he : discCfgCheck s.cfg = raise e) : FailsWith .demodulate s e.status := by
  apply failsWith_of_raise
  show execDemodulate s = _
  rw [execDemodulate, he, raise_bind]

/-- Behind the configuration check and the read of SIN, DEMODULATE is the check of the samples and the
discriminator. -/
theorem exec_demodulate {S : Nat} {zs : List Sample} (hS : s.cfg.hasSps S) (hc : s.cfg.discLegal)
    (hz : InputSamples s zs) : exec .demodulate s = commit s (do
      finiteCheck finiteSample zs
      .ok (s.putDisc (discriminated Config.hw s zs))) := by
  show execDemodulate s = _
  rw [execDemodulate, discCfgCheck_eq_ok.2 ⟨hS, hc⟩, cmd_ok_bind, sinSamples_eq_ok.2 hz, cmd_ok_bind]

end

/-- Settles O57: the errors are the checks that fail, in the order of R156 and R157; a success is a block write of the
words drawn, one for each sample, and on a quiet input these are zeros. -/
theorem demodulateWritesTheDiscriminator : Obligations.DemodulateWritesTheDiscriminator := by
  refine ⟨fun s h => demodulate_cfg_raise (discCfgCheck_raise_sps h), fun s S hS =>
    ⟨fun hg h0 => demodulate_cfg_raise (discCfgCheck_raise_fsk hS hg h0), fun hp hl =>
      ⟨fun h => demodulate_cfg_raise (discCfgCheck_raise_filter hS hp hl (filterCheck_raise_bt h)),
        fun hlo hhi h => demodulate_cfg_raise (discCfgCheck_raise_filter hS hp hl (filterCheck_raise_span hlo hhi h))⟩,
      fun zs hz hc => ⟨fun hf => ?_, fun hf => ?_⟩⟩⟩
  · have hbad : ∃ z ∈ zs, finiteSample z = false := hf.imp fun _ h => h.imp_right finiteSample_eq_false_iff.2
    apply failsWith_of_raise (e := .nonfiniteSample)
    rw [exec_demodulate hS hc hz, finiteCheck_raise hbad, raise_bind]
  · have hfin : ∀ z ∈ zs, finiteSample z = true := fun z hmem => finiteSample_eq_true_iff.2 (hf z hmem)
    have hexec := exec_demodulate hS hc hz
    rw [finiteCheck_of_all hfin, cmd_ok_bind, commit_ok] at hexec
    refine ⟨_, _, hexec, discriminated_length .., writes_bufPut .., discriminated_within Config.hw s zs,
      fun h => val32_discriminated_of_quiet (quietInput_of_silent h),
      fun hd h => val32_discriminated_of_quiet (quietInput_of_constant hd h),
      fun hn hl => val32_discriminated_of_quiet (quietInput_of_single hn hl), ?_⟩
    rw [State.putDisc, discriminated_length, ofNat_eq_of_toNat hz.1]
    rfl

end Sys2Proof.Machine
end

section
/-! PROOFS. Clock recovery: the sums of R163 written out, the test of a lag and a polarity, and which candidate the
search answers (R162, R163). -/

namespace Sys2Proof.Machine

/-! ### The scores of the candidate lags (R163) -/

theorem getD_drop (D : List ℚ) (m k : Nat) : (D.drop m).getD k 0 = D.getD (m + k) 0 := by
  rw [List.getD_eq_getElem?_getD, List.getElem?_drop, List.getD_eq_getElem?_getD]

theorem lagOffset_eq_sum (S : Nat) (D : List ℚ) (m : Nat) :
    lagOffset S D m = (∑ k ∈ Finset.range (24 * S), D.getD (m + k) 0) / (24 * S : Nat) := by
  simp only [lagOffset, sum_take_eq, getD_drop]

/-- The correlation at a lag whose window lies inside D. -/
theorem lagScore_eq_sum {S : Nat} {D : List ℚ} {m : Nat} (h : m + 32 * S ≤ D.length) :
    lagScore S D m = (∑ k ∈ Finset.range (32 * S), levelOf ((trainBits ++ flagBits).getD (k / S) false) *
      (D.getD (m + k) 0 - lagOffset S D m)) / (32 * S : Nat) := by
  have hlen : (template S).length ≤ (D.drop m).length := by
    rw [template_length, List.length_drop]
    omega
  rw [lagScore, sum_zipWith_eq _ _ _ hlen, template_length]
  congr 1
  refine Finset.sum_congr rfl fun k hk => ?_
  rw [template_getD S k (Finset.mem_range.1 hk), getD_drop]

/-- The number of candidate lags in n samples: those of the search window whose template lies inside (R163). -/
def lagCount (c : Cfg) (S n : Nat) : Nat := min c.acqWindow.toNat (n - 32 * S + 1)

/-- θ, the least score of a peak (R36). -/
def peakThreshold (c : Cfg) : ℚ := (c.acqThreshold.toNat : ℚ) / 65536

/-- The scores of the candidate lags. -/
def lagScores (c : Cfg) (S : Nat) (D : List ℚ) : List ℚ := (List.range (lagCount c S D.length)).map (lagScore S D)

section
variable {c : Cfg} {S m : Nat} {D : List ℚ}

theorem lagScores_getD (h : m < lagCount c S D.length) : (lagScores c S D).getD m 0 = lagScore S D m := by
  rw [lagScores, List.getD_eq_getElem _ _ (by simpa using h), List.getElem_map, List.getElem_range]

theorem add_le_length_of_lt_lagCount (hK : 32 * S ≤ D.length) (h : m < lagCount c S D.length) :
    m + 32 * S ≤ D.length := by
  have := lt_of_lt_of_le h (min_le_right ..)
  omega

/-- The scores of the candidate lags within one template length of lag m. -/
theorem mem_slice_lagScores {x : ℚ} {K : Nat} : x ∈ slice (lagScores c S D) (m - K) (m + K + 1) ↔
    ∃ m', m' < lagCount c S D.length ∧ m ≤ m' + K ∧ m' ≤ m + K ∧ lagScore S D m' = x := by
  simp only [slice, lagScores, List.mem_take_iff_getElem, List.getElem_drop, List.getElem_map, List.getElem_range,
    List.length_drop, List.length_map, List.length_range]
  constructor
  · rintro ⟨i, hi, rfl⟩
    exact ⟨m - K + i, by omega, by omega, by omega, rfl⟩
  · rintro ⟨m', hm', hlo, hhi, rfl⟩
    exact ⟨m' - (m - K), by omega, by congr 1; omega⟩

/-- R163's peak at lag m under a polarity: a candidate lag whose score passes the threshold and is not beaten within
one template length. -/
def PeakAt (c : Cfg) (S : Nat) (D : List ℚ) (m : Nat) (inverted : Bool) : Prop :=
  m < lagCount c S D.length ∧ peakThreshold c ≤ signed inverted (lagScore S D m) ∧
    ∀ m', m' < lagCount c S D.length → m ≤ m' + 32 * S → m' ≤ m + 32 * S →
      |lagScore S D m'| ≤ signed inverted (lagScore S D m)

theorem isPeak_eq_true_iff {inverted : Bool} (h : m < lagCount c S D.length) :
    isPeak S (peakThreshold c) (lagScores c S D) m inverted = true ↔ PeakAt c S D m inverted := by
  simp only [isPeak, lagScores_getD h, Bool.and_eq_true, decide_eq_true_eq, List.all_eq_true, mem_slice_lagScores,
    PeakAt, h, true_and]
  refine and_congr_right fun _ => ⟨fun hall m' hm' hlo hhi => hall _ ⟨m', hm', hlo, hhi, rfl⟩, ?_⟩
  rintro hall _ ⟨m', hm', hlo, hhi, rfl⟩
  exact hall m' hm' hlo hhi

end

/-! ### The order of the search (R163) -/

/-- Candidate x stands before y: at an earlier lag, or at the same lag with normal polarity before inverted. -/
def Before (x y : Nat × Bool) : Prop := x.1 < y.1 ∨ (x.1 = y.1 ∧ x.2 = false ∧ y.2 = true)

theorem mem_candidates {M : Nat} {x : Nat × Bool} : x ∈ candidates M ↔ x.1 < M := by
  refine ⟨lag_lt_of_mem_candidates, fun h => ?_⟩
  obtain ⟨m, p⟩ := x
  refine List.mem_flatMap.2 ⟨m, List.mem_range.2 h, ?_⟩
  cases p
  · exact List.mem_cons_self
  · exact List.mem_cons_of_mem _ List.mem_cons_self

theorem candidates_pairwise (M : Nat) : (candidates M).Pairwise Before := by
  have hpair (m : Nat) : [(m, false), (m, true)].Pairwise Before := List.pairwise_pair.2 (.inr ⟨rfl, rfl, rfl⟩)
  refine List.pairwise_flatMap.2 ⟨fun m _ => hpair m, List.pairwise_lt_range.imp fun {a b} hab x hx y hy => ?_⟩
  simp only [List.mem_cons, List.not_mem_nil, or_false] at hx hy
  rcases hx with rfl | rfl <;> rcases hy with rfl | rfl <;> exact .inl hab

/-- In an ordered list the search answers the one element that passes the test with none that passes it before. -/
theorem find?_eq_some_of_first {α : Type} {l : List α} {R : α → α → Prop} {p : α → Bool} {x : α}
    (hl : l.Pairwise R) (hx : x ∈ l) (hp : p x = true) (hfirst : ∀ y ∈ l, p y = true → ¬ R y x) :
    l.find? p = some x := by
  obtain ⟨as, bs, rfl⟩ := List.append_of_mem hx
  refine List.find?_eq_some_iff_append.2 ⟨hp, as, bs, rfl, fun a ha => ?_⟩
  have hR : R a x := (List.pairwise_append.1 hl).2.2 a ha x List.mem_cons_self
  have hnot : ¬ p a = true := fun hpa => hfirst a (List.mem_append_left _ ha) hpa hR
  simpa using hnot

/-! ### What `recover` answers (R163) -/

section
variable {c : Cfg} {cap S : Nat} {D : List ℚ}

theorem recover_tooShort (h : D.length < 32 * S) : recover c cap S D = raise .tooShort := by
  rw [recover, decide_eq_false (by omega), require_false, raise_bind]

/-- What `recover` answers at the lag and polarity that the search found, when the bits fit (R163). -/
def acquisitionAt (S : Nat) (D : List ℚ) (m : Nat) (inverted : Bool) : Acquired :=
  { bits := sliceBits S D m inverted (lagOffset S D m), lag := m, inverted := inverted,
    score := signed inverted (lagScore S D m), offset := lagOffset S D m }

theorem recover_noPeak (hK : 32 * S ≤ D.length) (h : ∀ m p, ¬ PeakAt c S D m p) :
    recover c cap S D = raise .noPeak := by
  have hfind : (candidates (lagCount c S D.length)).find?
      (fun mp => isPeak S (peakThreshold c) (lagScores c S D) mp.1 mp.2) = none :=
    List.find?_eq_none.2 fun mp hmp hpeak => h _ _ ((isPeak_eq_true_iff (mem_candidates.1 hmp)).1 hpeak)
  simp only [lagScores, lagCount, peakThreshold] at hfind
  simp only [recover, hK, decide_true, require_true, cmd_ok_bind, hfind]

/-- A peak with no peak before it is the one that the search answers. -/
theorem recover_of_first_peak {m : Nat} {p : Bool} (hK : 32 * S ≤ D.length) (hpeak : PeakAt c S D m p)
    (hfirst : ∀ m' p', PeakAt c S D m' p' → ¬ Before (m', p') (m, p)) :
    recover c cap S D =
      fits (symbolCount S D.length m) cap .capBits >>= fun _ => .ok (acquisitionAt S D m p) := by
  have hfind : (candidates (lagCount c S D.length)).find?
      (fun mp => isPeak S (peakThreshold c) (lagScores c S D) mp.1 mp.2) = some (m, p) :=
    find?_eq_some_of_first (candidates_pairwise _) (mem_candidates.2 hpeak.1) ((isPeak_eq_true_iff hpeak.1).2 hpeak)
      fun mp hmp h => hfirst _ _ ((isPeak_eq_true_iff (mem_candidates.1 hmp)).1 h)
  have hscore := lagScores_getD hpeak.1
  simp only [lagScores, lagCount, peakThreshold] at hfind hscore
  simp only [recover, hK, decide_true, require_true, cmd_ok_bind, hfind, hscore, acquisitionAt]

end

theorem signed_eq_mul (p : Bool) (x : ℚ) : signed p x = (if p then -1 else 1) * x := by
  cases p <;> simp [signed]

theorem sliceBits_length (S : Nat) (D : List ℚ) (m : Nat) (p : Bool) (o : ℚ) :
    (sliceBits S D m p o).length = symbolCount S D.length m := by
  rw [sliceBits, List.length_map, List.length_range]

/-- The hard bits are the signs at the symbol centres. -/
theorem sliceBits_getD {S m j : Nat} {D : List ℚ} {p : Bool} {o : ℚ} (h : j < symbolCount S D.length m) :
    (sliceBits S D m p o).getD j false =
      decide (0 < (if p then -1 else 1) * (D.getD (m + j * S + S / 2) 0 - o)) := by
  rw [sliceBits, List.getD_eq_getElem _ _ (by simpa using h), List.getElem_map, List.getElem_range, signed_eq_mul]

/-- Settles O58: the search runs over the candidates in the rule's order, and its test is the rule's. -/
theorem recoverTakesTheEarliestPeak : Obligations.RecoverTakesTheEarliestPeak := by
  intro c cap S D hS hc K M off T cor g peak J
  have hoff (m) : lagOffset S D m = off m := lagOffset_eq_sum S D m
  have hcor {m} (hK : K ≤ D.length) (hm : m < M) : lagScore S D m = cor m := by
    rw [lagScore_eq_sum (add_le_length_of_lt_lagCount hK hm), hoff]
    rfl
  have hpeak (hK : K ≤ D.length) (m p) : peak m p ↔ PeakAt c S D m p := by
    refine and_congr_right fun hm => ?_
    have hg : signed p (lagScore S D m) = g m p := by rw [hcor hK hm]; rfl
    rw [hg]
    refine and_congr_right fun _ => forall₂_congr fun m' hm' => ?_
    rw [hcor hK hm']
  refine ⟨recover_tooShort, fun hK hno => recover_noPeak hK fun m p h => hno m p ((hpeak hK m p).2 h),
    fun m p hK hm hfirst => ?_⟩
  have hexec := recover_of_first_peak (cap := cap) hK ((hpeak hK m p).1 hm) fun m' p' h hbefore => by
    have hle := hfirst m' p' ((hpeak hK m' p').2 h)
    rcases hbefore with hlt | ⟨heq, rfl, rfl⟩
    · have hlt' : m' < m := hlt
      omega
    · have heq' : m' = m := heq
      simp [heq'] at hle
  refine ⟨fun hcap => ?_, fun hcap => ?_⟩
  · exact hexec.trans (congrArg (· >>= _) (fits_raise hcap))
  · replace hexec := hexec.trans (congrArg (· >>= _) (fits_ok hcap))
    exact ⟨_, hexec, rfl, rfl, congrArg (signed p) (hcor hK hm.1), hoff m, sliceBits_length .., fun j hj =>
      (sliceBits_getD hj).trans (by rw [hoff])⟩

end Sys2Proof.Machine
end

section
/-! PROOFS. RECEIVE: its errors in the order of its stages, what it commits, and that it decodes every frame whose
levels the admitted discriminator words keep near (R167). -/

namespace Sys2Proof.Machine

/-! ### The message type (R141, R167) -/

theorem typeCheck_ok {f : PosFields} (h : f.type = 1 ∨ f.type = 2 ∨ f.type = 3) : typeCheck f = .ok () :=
  require_eq_ok.2 (by simpa only [Bool.or_eq_true, decide_eq_true_eq, or_assoc] using h)

theorem typeCheck_raise {f : PosFields} (h : ¬ (f.type = 1 ∨ f.type = 2 ∨ f.type = 3)) :
    typeCheck f = raise (.unsupportedType (BitVec.ofNat 8 f.type)) :=
  require_eq_error.2 ⟨by simpa only [Bool.eq_false_iff, ne_eq, Bool.or_eq_true, decide_eq_true_eq, or_assoc] using h,
    rfl⟩

theorem unsupportedType_status {n : Nat} (h : n < 64) :
    (CmdError.unsupportedType (BitVec.ofNat 8 n)).status = 0x00010007 ||| (BitVec.ofNat 32 n <<< 8) := by
  revert n
  decide

/-! ### The stages behind the discriminator (R167) -/

/-- What RECEIVE commits for the discriminator words ws, the acquisition q and the frame d, STATUS apart. -/
def State.received (s : State) (ws : List Word) (q : Acq) (d : Deframed) : State :=
  { ((s.putDisc ws).putOut 0 d.msg).putFramePos d.p d.q d.e with
    acq := q, crcValue := d.crc, crcRx := d.rx, rx := (posFields d.msg).report }

section
variable {s : State} {S : Nat} {ws : List Word} {a : Acquired} {d : Deframed} {e : CmdError}

theorem receiveFrom_recover_raise (h : recover s.cfg s.bitCap S (ws.map val32) = raise e) :
    receiveFrom s S ws = raise e := by
  rw [receiveFrom, h, raise_bind]

variable (ha : recover s.cfg s.bitCap S (ws.map val32) = .ok a)
include ha

theorem receiveFrom_deframe_raise (h : deframeFn s.cfg (a.bits.map some) = raise e) :
    receiveFrom s S ws = raise e := by
  rw [receiveFrom, ha, cmd_ok_bind, h, raise_bind]

variable (hd : deframeFn s.cfg (a.bits.map some) = .ok d)
include hd

theorem receiveFrom_type_raise
    (h : ¬ ((posFields d.msg).type = 1 ∨ (posFields d.msg).type = 2 ∨ (posFields d.msg).type = 3)) :
    receiveFrom s S ws = raise (.unsupportedType (BitVec.ofNat 8 (posFields d.msg).type)) := by
  rw [receiveFrom, ha, cmd_ok_bind, hd, cmd_ok_bind]
  simp only [typeCheck_raise h, raise_bind]

theorem receiveFrom_ok
    (h : (posFields d.msg).type = 1 ∨ (posFields d.msg).type = 2 ∨ (posFields d.msg).type = 3) :
    receiveFrom s S ws = .ok (s.received ws a.acq d) := by
  rw [receiveFrom, ha, cmd_ok_bind, hd, cmd_ok_bind]
  simp only [typeCheck_ok h, cmd_ok_bind]
  rfl

/-- The commit is everything that R167 lists; the frame lies inside the bits acquired, so its positions fit in their
words. -/
theorem receives_received (hc : s.cfg.searchLegal) (hn : s.sinLen.toNat = ws.length) :
    Receives s ((s.received ws a.acq d).setStatus statusOk) ws a.acq d := by
  obtain ⟨-, -, hcap⟩ := recover_eq_ok ha
  obtain ⟨⟨hp, hqe, he, hlen⟩, -, -⟩ := deframeFn_inside hc hd
  obtain ⟨hstart, hq, hend⟩ := putFramePos_toNat s (hp.trans hcap) hqe (he.trans hcap)
  refine ⟨writes_bufPut .., writes_bufPut .., hstart, hq, hend, ?_⟩
  rw [State.received, State.putOut, State.putDisc, hlen, ofNat_eq_of_toNat hn]
  rfl

end

/-! ### Words near the levels of a frame (R159, R163) -/

/-- Words drawn near the levels of B, whichever of the admitted ones they are. -/
theorem nearLevels_discriminated {hw : Config.Analog} {s : State} {zs : List Sample} {S : Nat} {B : Bits}
    (hlen : zs.length = B.length * S) (hpos : 0 < zs.length)
    (h : ∀ k w, k < zs.length → Within hw.epsDisc ((discJob s.cfg zs).ideal k) w →
      |val32 w - levelOf (B.getD (k / S) false)| ≤ if k = 0 then 9 / 4 else 1 / 4) :
    NearLevels S B ((discriminated hw s zs).map val32) := by
  have hD : ((discriminated hw s zs).map val32).length = zs.length := by rw [List.length_map, discriminated_length]
  have hnear (k) (hk : k < zs.length) :
      |((discriminated hw s zs).map val32).getD k 0 - levelOf (B.getD (k / S) false)| ≤
        if k = 0 then 9 / 4 else 1 / 4 := by
    rw [List.getD_eq_getElem _ _ (hD ▸ hk), List.getElem_map]
    exact h k _ hk (discriminated_within hw s zs k _)
  refine ⟨hD.trans hlen, ?_, fun k h1 hk => ?_⟩
  · simpa using hnear 0 hpos
  · rw [hD] at hk
    have := hnear k hk
    rwa [if_neg (by omega)] at this

/-! ### The command (R167) -/

section
variable {s : State}

theorem receive_cfg_raise {e : CmdError} (he : discCfgCheck s.cfg = raise e) : FailsWith .receive s e.status := by
  apply failsWith_of_raise
  show execReceive s = _
  rw [execReceive, he, raise_bind]

variable {S : Nat} {zs : List Sample} (hS : s.cfg.hasSps S) (hc : s.cfg.discLegal)
include hS hc

theorem receive_threshold (h : ¬ (s.cfg.acqLegal ∧ s.cfg.searchLegal)) : FailsWith .receive s 0x00010E01 := by
  apply failsWith_of_raise (e := .thresholdRange)
  show execReceive s = _
  rw [execReceive, discCfgCheck_eq_ok.2 ⟨hS, hc⟩, cmd_ok_bind]
  by_cases ha : s.cfg.acqLegal
  · rw [acqCfgCheck_eq_ok.2 ⟨hS, ha⟩, cmd_ok_bind, frameCfgCheck_raise fun hf => h ⟨ha, hf⟩, raise_bind]
  · rw [acqCfgCheck_raise_threshold hS ha, raise_bind]

variable (ha : s.cfg.acqLegal) (hf : s.cfg.searchLegal) (hz : InputSamples s zs)
include ha hf hz

/-- Behind the checks of its registers and the read of SIN, RECEIVE is the check of the samples and the later stages. -/
theorem exec_receive : exec .receive s = commit s (do
    finiteCheck finiteSample zs
    receiveFrom s S (discriminated Config.hw s zs)) := by
  show execReceive s = _
  rw [execReceive, discCfgCheck_eq_ok.2 ⟨hS, hc⟩, cmd_ok_bind, acqCfgCheck_eq_ok.2 ⟨hS, ha⟩, cmd_ok_bind,
    frameCfgCheck_eq_ok (u := ()).2 hf, cmd_ok_bind, sinSamples_eq_ok.2 hz, cmd_ok_bind]

theorem receive_nonfinite (h : ∃ z ∈ zs, finiteSample z = false) : FailsWith .receive s 0x00010F01 := by
  apply failsWith_of_raise (e := .nonfiniteSample)
  rw [exec_receive hS hc ha hf hz, finiteCheck_raise h, raise_bind]

variable (hfin : ∀ z ∈ zs, finiteSample z = true)
include hfin

theorem exec_receive_finite : exec .receive s = commit s (receiveFrom s S (discriminated Config.hw s zs)) := by
  rw [exec_receive hS hc ha hf hz, finiteCheck_of_all hfin, cmd_ok_bind]

theorem receive_stage_raise {e : CmdError} (h : receiveFrom s S (discriminated Config.hw s zs) = raise e) :
    FailsWith .receive s e.status :=
  failsWith_of_raise (by rw [exec_receive_finite hS hc ha hf hz hfin, h])

/-- RECEIVE completes when the later stages decode the words drawn to a report. -/
theorem receive_completes {a : Acquired} {d : Deframed}
    (hrec : recover s.cfg s.caps.bits.toNat S ((discriminated Config.hw s zs).map val32) = .ok a)
    (hd : deframeFn s.cfg (a.bits.map some) = .ok d)
    (htype : (posFields d.msg).type = 1 ∨ (posFields d.msg).type = 2 ∨ (posFields d.msg).type = 3) :
    ∃ t, exec .receive s = .next t ∧ Receives s t (discriminated Config.hw s zs) a.acq d := by
  refine ⟨_, ?_, receives_received hrec hd hf (by rw [discriminated_length, hz.1])⟩
  rw [exec_receive_finite hS hc ha hf hz hfin, receiveFrom_ok hrec hd htype, commit_ok]

end

/-- Settles O60: the errors are the first check or stage that fails; a success commits what the stages answer, and near
the levels of a frame at lag 0 they answer that frame, whichever of the admitted words are drawn. -/
theorem receiveRunsTheChain : Obligations.ReceiveRunsTheChain := by
  refine ⟨fun s h => receive_cfg_raise (discCfgCheck_raise_sps h), fun s S hS =>
    ⟨fun hg h0 => receive_cfg_raise (discCfgCheck_raise_fsk hS hg h0), fun hp hl =>
      ⟨fun h => receive_cfg_raise (discCfgCheck_raise_filter hS hp hl (filterCheck_raise_bt h)),
        fun hlo hhi h => receive_cfg_raise (discCfgCheck_raise_filter hS hp hl (filterCheck_raise_span hlo hhi h))⟩,
      fun hc h => receive_threshold hS hc h, fun zs hc ha hf hz => ?_⟩⟩
  refine ⟨fun h => receive_nonfinite hS hc ha hf hz
    (h.imp fun _ hbad => hbad.imp_right finiteSample_eq_false_iff.2), fun h => ?_⟩
  have hfin : ∀ z ∈ zs, finiteSample z = true := fun z hmem => finiteSample_eq_true_iff.2 (h z hmem)
  have hraise {e} := receive_stage_raise hS hc ha hf hz hfin (e := e)
  refine ⟨⟨discriminated_length .., discriminated_within Config.hw s zs⟩,
    fun e he => hraise (receiveFrom_recover_raise he), fun a hrec =>
      ⟨fun e he => hraise (receiveFrom_deframe_raise hrec he), fun d hd =>
        ⟨fun h => ?_, receive_completes hS hc ha hf hz hfin hrec hd⟩⟩,
    fun B d hS2 hwin hthr hlen hcap hpre hd htype hnear => ?_⟩
  · rw [← unsupportedType_status (posFields_type_lt d.msg)]
    exact hraise (receiveFrom_type_raise hrec hd h)
  · have hB := length_of_preamble hpre
    have hpos : 0 < zs.length := hlen ▸ Nat.mul_pos (by omega) (by omega)
    obtain ⟨a, hrec, rfl, hlag, hpol⟩ :=
      recover_near hS2 (nearLevels_discriminated hlen hpos hnear) hpre hwin hthr hcap
    obtain ⟨t, hexec, ht⟩ := receive_completes hS hc ha hf hz hfin hrec hd htype
    exact ⟨t, a.acq, hexec, ht, congrArg (BitVec.ofNat 32) hlag, hpol⟩

end Sys2Proof.Machine
end

section
/-! PROOFS. Errors and STATUS: what a command that fails leaves, that no command reads STATUS, and which host actions
write it (R27, R172, R176, R179, R180). -/

namespace Sys2Proof.Machine

variable {s t u : State} {i : Instr} {a : HostAction}

/-! ### What a command that fails leaves (R172) -/

/-- Only the flag searches have an error that leaves more than STATUS changed. -/
theorem Leaves.eq_of_not_search (h : Leaves s i u) (hi : ¬ (i = .findFlag ∨ i = .findFlagFuzzy)) : u = s := by
  cases h with
  | same => rfl
  | findFlag => exact absurd (.inl rfl) hi
  | findFlagFuzzy => exact absurd (.inr rfl) hi

/-- A flag search that fails has found nothing and marked FLAG_POS, or has changed STATUS only (R121). -/
theorem endSearch_fails {r : Cmd (Option Nat)} (h : endSearch s r = .next t) (hst : t.status ≠ statusOk) :
    t = s.setStatus t.status ∨ t = { s with status := CmdError.search.status, flagPos := 0xFFFFFFFF } := by
  rcases endSearch_eq_next.1 h with ⟨k, -, rfl⟩ | ⟨-, rfl⟩ | ⟨e, -, rfl⟩
  · exact absurd rfl hst
  · exact .inr rfl
  · exact .inl rfl

/-- Settles O17: a flag search is the one command whose error may leave a second register written. -/
theorem errorsCommitOnlyStatus : Obligations.ErrorsCommitOnlyStatus := by
  intro i s t h hst
  by_cases hi : i = .findFlag ∨ i = .findFlagFuzzy
  · have hsearch : ∃ r, endSearch s r = .next t := by
      rcases hi with rfl | rfl
      · exact ⟨_, h⟩
      · exact ⟨_, h⟩
    obtain ⟨r, hr⟩ := hsearch
    exact (endSearch_fails hr hst).imp_right fun ht => ⟨hi, ht⟩
  · cases exec_endsIn h with
    | success u _ => exact absurd rfl hst
    | error e _ u hu =>
      rw [hu.eq_of_not_search hi]
      exact .inl rfl

/-! ### No command reads STATUS (R176) -/

/-- Two computations whose first part is the same commit alike from states that differ in STATUS only, when their
second parts do: an error or a fault of the first part is the same in both. -/
theorem commit_setStatus_bind {α : Type} {w : Word} {x : Cmd α} {f g : α → Cmd State}
    (h : ∀ a, commit (s.setStatus w) (f a) = commit s (g a)) :
    commit (s.setStatus w) (x >>= f) = commit s (x >>= g) := by
  cases x with
  | ok a => exact h a
  | error e =>
    cases e with
    | raise e => rfl
    | fault f => rfl

/-- A choice that does not look at STATUS commits alike when both of its branches do. -/
theorem commit_setStatus_ite {c : Prop} [Decidable c] {w : Word} {x x' y y' : Cmd State}
    (hx : commit (s.setStatus w) x = commit s x') (hy : commit (s.setStatus w) y = commit s y') :
    commit (s.setStatus w) (if c then x else y) = commit s (if c then x' else y') := by
  split_ifs
  · exact hx
  · exact hy

theorem endSearch_setStatus (s : State) (w : Word) (r : Cmd (Option Nat)) :
    endSearch (s.setStatus w) r = endSearch s r := by
  rcases r with (e | f) | _ | k <;> rfl

theorem receiveFrom_setStatus (s : State) (w : Word) (sps : Nat) (ws : List Word) :
    commit (s.setStatus w) (receiveFrom (s.setStatus w) sps ws) = commit s (receiveFrom s sps ws) :=
  commit_setStatus_bind fun _ => commit_setStatus_bind fun _ => commit_setStatus_bind fun _ => rfl

/-- The outcome of a command is the same whatever STATUS held.  The cases are grouped by how many parts (reads and
checks) of the command can end it before its commit. -/
theorem exec_setStatus (i : Instr) (s : State) (w : Word) : exec i (s.setStatus w) = exec i s := by
  cases i with
  | nop | crcInit | crcBit | crcByte | stuffReset | nrziReset | six2ascii => rfl
  | moveOutIn | moveSoutSin | crcBuf | stuffBit | nrziEncBit | nrziDecBit | nrziEncBuf | nrziDecBuf | encodePos
  | ascii2six => exact commit_setStatus_bind fun _ => rfl
  | unpackBytes | reverseBytes | crcBufBytes | crcAppend | stuffBuf | destuffBuf | buildFrame | deframe
  | armor => exact commit_setStatus_bind fun _ => commit_setStatus_bind fun _ => rfl
  | packBytes | selftestLoopback | crcCheck | crcSelftest | extractPayload | decodePos | dearmor | modulate
  | demodulate => exact commit_setStatus_bind fun _ => commit_setStatus_bind fun _ => commit_setStatus_bind fun _ => rfl
  | transmit | recoverClock =>
    exact commit_setStatus_bind fun _ => commit_setStatus_bind fun _ => commit_setStatus_bind fun _ =>
      commit_setStatus_bind fun _ => rfl
  | destuffBit => exact commit_setStatus_ite (commit_setStatus_ite rfl rfl) (commit_setStatus_bind fun _ => rfl)
  | findFlag | findFlagFuzzy => exact endSearch_setStatus s w _
  | receive =>
    exact commit_setStatus_bind fun sps => commit_setStatus_bind fun _ => commit_setStatus_bind fun _ =>
      commit_setStatus_bind fun zs => commit_setStatus_bind fun _ => receiveFrom_setStatus s w sps _

/-! ### Which host actions write STATUS (R27) -/

theorem statusWord_done (err detail : Byte) : (statusWord err detail).getLsbD 16 = true := by
  simp [statusWord]

/-- DONE is set when a command ends, in success or in error (R171, R172). -/
theorem EndsIn.statusDone (h : EndsIn s i t) : t.statusDone = true := by
  cases h with
  | success u _ => exact statusWord_done 0 0
  | error e _ u _ => exact statusWord_done e.err e.detail

/-- STATUS is read-only to the host (R23). -/
theorem regWrite_status (s : State) (w : Word) (r : Reg) : (regWrite s w r).status = s.status := by
  cases r <;> rfl

/-- Of the host's actions, a reset apart, only a CMD write changes STATUS, and it sets DONE. -/
theorem Performs.status (h : Performs s a t) (ha : a ≠ .reset) :
    t.status = s.status ∨ (∃ w, a = .write cmdAddr 32 w) ∧ t.statusDone = true := by
  cases h with
  | read | unlisted | window => exact .inl rfl
  | register r => exact .inl (regWrite_status s _ r)
  | command w i _ _ ht => exact .inr ⟨⟨w, rfl⟩, (exec_endsIn ht).statusDone⟩
  | illegal w e => exact .inr ⟨⟨w, rfl⟩, statusWord_done ..⟩
  | reset => exact absurd rfl ha

/-- Settles O19: the outcome of a command is computed without STATUS, and a host action that writes STATUS is a CMD
write, which sets DONE. -/
theorem commandsDoNotReadStatus : Obligations.CommandsDoNotReadStatus := by
  refine ⟨exec_setStatus, fun s t a rest hport ha hstep => ?_⟩
  rw [step_perform hport] at hstep
  rcases (performs_of_next hstep).status ha with hsame | ⟨⟨w, hw⟩, hdone⟩
  · exact ⟨fun _ => hsame, fun h => (congrArg (·.getLsbD 16) hsame).trans h⟩
  · exact ⟨fun hne => absurd hw (hne w), fun _ => hdone⟩

end Sys2Proof.Machine
end

section
/-! PROOFS. Reset: the register values, the cleared buffers and the invariant's base case (R189, R191). -/

namespace Sys2Proof.Machine

/-- The spec's build lies in the legal range of the build parameters (R7). -/
theorem caps_build_legal : Caps.build.legal := by decide

/-- Settles O7: reset meets the invariant in every legal build, and the spec's build is one. -/
theorem resetMeetsTheInvariant : Obligations.ResetMeetsTheInvariant := resetOf_inv caps_build_legal

/-! ### The platform reset -/

section
variable (s : State)

@[simp] theorem platformReset_caps : (platformReset s).caps = s.caps := rfl

@[simp] theorem platformReset_mem : (platformReset s).mem = Memory.empty := rfl

@[simp] theorem perform_reset : perform .reset s = .next (platformReset s) := rfl

end

/-- The start of a run is a platform reset too: a reset of the reset state changes nothing. -/
theorem platformReset_reset : platformReset State.reset = State.reset := rfl

theorem eq_platformReset_of_reset {t : State} (h : t = State.reset ∨ ∃ s, perform .reset s = .next t) :
    ∃ s, t = platformReset s := by
  rcases h with rfl | ⟨s, hs⟩
  · exact ⟨State.reset, platformReset_reset.symm⟩
  · rw [perform_reset] at hs
    injection hs with ht
    exact ⟨s, ht.symm⟩

/-! ### What the registers and the buffers hold after it -/

/-- After a platform reset the fields that the registers read as hold R23's reset column. -/
theorem resetTable_eq_registerFields (s : State) : resetTable s.caps = registerFields (platformReset s) := by
  simp [resetTable, registerFields, platformReset, State.resetOf, Cfg.reset]

/-- In every state an offset that R23's table does not list reads 0 (R55). -/
theorem readsAs_unlisted (s : State) {c : Caps} {off : Nat} (hlt : off < 0x1000) (h4 : off % 4 = 0)
    (h : off ∉ (resetTable c).map Prod.fst) : ReadsAs s off 0 := by
  rw [readsAs_iff hlt h4, State.readAt, regAt_eq_none h]
  rfl

theorem platformReset_readsAs (s : State) : ∀ p ∈ resetTable s.caps, ReadsAs (platformReset s) p.1 p.2 := by
  rw [resetTable_eq_registerFields]
  exact hostReadsArePureAndIdempotent.2 (platformReset s)

/-- No element of the empty memory holds a value (R189). -/
theorem bufGet_empty (k : Nat) :
    bufGet Memory.empty.inp k = none ∧ bufGet Memory.empty.out k = none ∧ bufGet Memory.empty.chr k = none ∧
      bufGet Memory.empty.sin k = none ∧ bufGet Memory.empty.sout k = none ∧
      bufGet Memory.empty.disc k = none := ⟨rfl, rfl, rfl, rfl, rfl, rfl⟩

/-- Settles O6: both kinds of reset are a platform reset, behind which each register reads as the table's reset
column, an unlisted offset as in every state, and the memory is empty. -/
theorem resetValues : Obligations.ResetValues := by
  refine ⟨fun t ht => ?_, fun s => ⟨platformReset s, perform_reset s, platformReset_caps s⟩⟩
  obtain ⟨s, rfl⟩ := eq_platformReset_of_reset ht
  exact ⟨platformReset_readsAs s, fun off hlt h4 hoff => readsAs_unlisted _ hlt h4 hoff, bufGet_empty⟩

end Sys2Proof.Machine
end

section
/-! PROOFS. The NRZI coder: what each symbol of a coded sequence is, that the two codings are inverse, and the commands
(R125 to R133). -/

namespace Sys2Proof.Machine

/-! ### Coded sequences (R125 to R128) -/

/-- Decoding gives back the bits that were encoded. -/
theorem nrziDec_nrziEnc (x : Bits) (l : Bool) : nrziDec l (nrziEnc l x) = x := by
  induction x generalizing l with
  | nil => rfl
  | cons b t ih =>
    have hbit : (nrziNext l b == l) = b := by cases b <;> cases l <;> rfl
    rw [nrziEnc, nrziDec, hbit, ih]

/-- The decoder compares neighbours only, so it reads inverted symbols behind an inverted level alike. -/
theorem nrziDec_map_not (y : Bits) (l : Bool) : nrziDec (!l) (y.map (!·)) = nrziDec l y := by
  induction y generalizing l with
  | nil => rfl
  | cons b t ih =>
    have hbit : ((!b) == !l) = (b == l) := by cases b <;> cases l <;> rfl
    rw [List.map_cons, nrziDec, nrziDec, hbit, ih]

/-- Each level is the one before it, toggled by a 0; level 0 stands before the first (R125). -/
theorem nrziEnc_getD {x : Bits} {k : Nat} (l : Bool) (hk : k < x.length) :
    (nrziEnc l x).getD k false = nrziNext ((l :: nrziEnc l x).getD k false) (x.getD k false) := by
  induction x generalizing l k with
  | nil => simp at hk
  | cons b t ih =>
    cases k with
    | zero => rfl
    | succ k => exact ih (nrziNext l b) (by simpa using hk)

/-- Each bit says whether a symbol equals the one before it (R126). -/
theorem nrziDec_getD {y : Bits} {k : Nat} (l : Bool) (hk : k < y.length) :
    (nrziDec l y).getD k false = (y.getD k false == (l :: y).getD k false) := by
  induction y generalizing l k with
  | nil => simp at hk
  | cons b t ih =>
    cases k with
    | zero => rfl
    | succ k => exact ih b (by simpa using hk)

/-- Settles O44: at each element the one coding undoes the other. -/
theorem nrziRoundTrip : Obligations.NrziRoundTrip := fun x l => ⟨nrziDec_nrziEnc x l, nrziEnc_nrziDec x l⟩

/-- Settles O45: only the first symbol is compared with the initial level; behind it the decoder compares symbols, which
a wrong level leaves as they are and which an inversion changes in pairs. -/
theorem nrziMismatchCorruptsOneBit : Obligations.NrziMismatchCorruptsOneBit := by
  refine fun b x l => ⟨?_, fun y => ?_⟩
  · have hfirst : (nrziNext l b == !l) = !b := by cases b <;> cases l <;> rfl
    rw [nrziEnc, nrziDec, hfirst, nrziDec_nrziEnc]
  · have hfirst : ((!y) == l) = !(y == l) := by cases y <;> cases l <;> rfl
    rw [List.map_cons, nrziDec, hfirst, nrziDec_map_not]
    rfl

/-! ### The commands (R130 to R133) -/

section
variable {s : State}

theorem exec_nrziEncBit (imm : Byte) : exec (.nrziEncBit imm) s = commit s (do
    fits (s.outLen.toNat + 1) s.caps.bits.toNat .capBits
    .ok { s.putOut s.outLen.toNat [nrziNext s.nrziEncLevel (immBit imm)] with
      nrziEncLevel := nrziNext s.nrziEncLevel (immBit imm) }) := rfl

theorem exec_nrziDecBit (imm : Byte) : exec (.nrziDecBit imm) s = commit s (do
    fits (s.outLen.toNat + 1) s.caps.bits.toNat .capBits
    .ok { s.putOut s.outLen.toNat [immBit imm == s.nrziDecPrev] with nrziDecPrev := immBit imm }) := rfl

variable {x : Bits}

theorem exec_nrziEncBuf (hx : InputBits s x) :
    exec .nrziEncBuf s = .next ((s.putOut 0 (nrziEnc s.cfg.nrziInit x)).setStatus statusOk) := by
  show execNrziEncBuf s = _
  rw [execNrziEncBuf, inBits_eq_ok.2 hx, cmd_ok_bind, commit_ok]

theorem exec_nrziDecBuf (hx : InputBits s x) :
    exec .nrziDecBuf s = .next ((s.putOut 0 (nrziDec s.cfg.nrziInit x)).setStatus statusOk) := by
  show execNrziDecBuf s = _
  rw [execNrziDecBuf, inBits_eq_ok.2 hx, cmd_ok_bind, commit_ok]

/-- A result of as many bits as the input sets OUT_LEN to IN_LEN. -/
theorem putOut_inputLength {y : Bits} (hx : InputBits s x) (hy : y.length = x.length) :
    s.putOut 0 y = { s with outLen := s.inLen, mem := { s.mem with out := bufPut s.mem.out 0 y } } := by
  rw [State.putOut, hy, Nat.zero_add, ofNat_eq_of_toNat hx.1]

end

/-- Settles O43: a block write of the level or bit at OUT_LEN, under the check that it fits; a block write from 0 of the
coded input, whose symbols are those of R125 and R126. -/
theorem nrziCommands : Obligations.NrziCommands := by
  refine ⟨fun s imm => ⟨fun hcap => ⟨?_, ?_⟩, fun hcap => ⟨?_, ?_⟩⟩, fun s x hx => ⟨?_, ?_⟩⟩
  · exact ⟨_, (exec_nrziEncBit imm).trans (commit_fits_ok hcap), writes_bufPut ..,
      toNat_ofNat_of_le_toNat hcap, rfl⟩
  · exact ⟨_, (exec_nrziDecBit imm).trans (commit_fits_ok hcap), writes_bufPut ..,
      toNat_ofNat_of_le_toNat hcap, rfl⟩
  · exact (exec_nrziEncBit imm).trans (commit_fits_raise hcap)
  · exact (exec_nrziDecBit imm).trans (commit_fits_raise hcap)
  · refine ⟨_, nrziEnc s.cfg.nrziInit x, exec_nrziEncBuf hx, nrziEnc_length .., fun k => nrziEnc_getD _,
      writes_bufPut .., ?_⟩
    rw [putOut_inputLength hx (nrziEnc_length ..)]
    rfl
  · refine ⟨_, nrziDec s.cfg.nrziInit x, exec_nrziDecBuf hx, nrziDec_length .., fun k => nrziDec_getD _,
      writes_bufPut .., ?_⟩
    rw [putOut_inputLength hx (nrziDec_length ..)]
    rfl

end Sys2Proof.Machine
end

section
/-! PROOFS. The position report: ENCODE_POS with its checks in their order, DECODE_POS, and that the fields of a packed
report are the values packed (R134 to R136, R140, R141). -/

namespace Sys2Proof.Machine

/-! ### Packing (R134, R135) -/

/-- Settles O51: a legal vessel passes the checks, and the fields of the bits packed are the values written. -/
theorem posFieldsInvertPosEncode : Obligations.PosFieldsInvertPosEncode := fun v hv =>
  ⟨posBits v, posEncode_eq_ok.2 ⟨hv, rfl⟩, posBits_length v, posFields_posBits hv⟩

/-- The last 25 bits, four fields of R134 that are written 0, are zeros. -/
theorem slice_posBits_tail (v : Vessel) : slice (posBits v) 143 168 = ubits 25 0 := by
  have hzeros : ubits 2 0 ++ (ubits 3 0 ++ (ubits 1 0 ++ ubits 19 0)) = ubits 25 0 := rfl
  rw [posBits, List.append_assoc, List.append_assoc, List.append_assoc, hzeros]
  exact slice_append_last (a := 143) (w := 25) (by simp) (ubits_length ..)

theorem require_eq_ite {c : Bool} {p : Prop} [Decidable p] (hc : c = true ↔ p) (e : CmdError) :
    require c e = if ¬ p then raise e else .ok () := by
  by_cases h : p
  · rw [if_neg (not_not.2 h), hc.2 h, require_true]
  · rw [if_pos h, Bool.eq_false_iff.2 fun hct => h (hc.1 hct), require_false]

/-- A check and what comes behind it (R175). -/
theorem require_bind_eq_ite {α : Type} {c : Bool} {p : Prop} [Decidable p] (hc : c = true ↔ p) (e : CmdError)
    (k : Unit → Cmd α) : (require c e >>= k) = if ¬ p then raise e else k () := by
  rw [require_eq_ite hc]
  split_ifs <;> rfl

section
variable {p q : Prop} [Decidable p] [Decidable q]

theorem decide_and_decide_iff : (decide p && decide q) = true ↔ p ∧ q := by
  rw [Bool.and_eq_true, decide_eq_true_eq, decide_eq_true_eq]

theorem decide_or_decide_iff : (decide p || decide q) = true ↔ p ∨ q := by
  rw [Bool.or_eq_true, decide_eq_true_eq, decide_eq_true_eq]

end

/-- `pos_encode()`'s checks in their order, the first that fails named (R135). -/
theorem posCheck_eq (v : Vessel) : posCheck v =
    if ¬ (100000000 ≤ v.mmsi.toNat ∧ v.mmsi.toNat ≤ 999999999) then raise .vsMmsi
    else if ¬ v.nav.toNat ≤ 15 then raise .vsNav
    else if ¬ (-108000000 ≤ v.lon.toInt ∧ v.lon.toInt ≤ 108000000) then raise .vsLon
    else if ¬ (-54000000 ≤ v.lat.toInt ∧ v.lat.toInt ≤ 54000000) then raise .vsLat
    else if ¬ v.cog.toNat ≤ 3600 then raise .vsCog
    else if ¬ (v.hdg.toNat ≤ 359 ∨ v.hdg.toNat = 511) then raise .vsHdg
    else .ok () := by
  rw [posCheck, require_bind_eq_ite decide_and_decide_iff, require_bind_eq_ite decide_eq_true_iff,
    require_bind_eq_ite decide_and_decide_iff, require_bind_eq_ite decide_and_decide_iff,
    require_bind_eq_ite decide_eq_true_iff, require_eq_ite decide_or_decide_iff]
  rfl

section
variable {s : State}

theorem exec_encodePos (hv : s.vs.legal) :
    exec .encodePos s = .next ((s.putOut 0 (posBits s.vs)).setStatus statusOk) := by
  show execEncodePos s = _
  rw [execEncodePos, posEncode_eq_ok.2 ⟨hv, rfl⟩, cmd_ok_bind, commit_ok]

theorem encodePos_raise {e : CmdError} (h : posCheck s.vs = raise e) : FailsWith .encodePos s e.status := by
  apply failsWith_of_raise
  show execEncodePos s = _
  rw [execEncodePos, posEncode, h, raise_bind, raise_bind]

end

/-- Settles O46: a block write of the packed report, whose fields are the values written; the errors are the checks that
fail, in the order of R135. -/
theorem encodePosPacksTheReport : Obligations.EncodePosPacksTheReport := by
  refine ⟨fun s hv => ?_, fun s => ⟨fun h1 => ?_, fun h1 h2 => ?_, fun h1 h2 h3 => ?_, fun h1 h2 h3 h4 => ?_,
    fun h1 h2 h3 h4 h5 => ?_, fun h1 h2 h3 h4 h5 h6 => ?_⟩⟩
  · have hexec := exec_encodePos hv
    have hlen := posBits_length s.vs
    have hfields := posFields_posBits hv
    have htail : uval (slice (posBits s.vs) 143 168) = 0 := by rw [slice_posBits_tail, uval_ubits, Nat.zero_mod]
    generalize posBits s.vs = m at hexec hlen hfields htail
    refine ⟨_, m, hexec, hlen, writes_bufPut ..,
      congrArg PosFields.type hfields, congrArg PosFields.repeatInd hfields, congrArg PosFields.mmsi hfields,
      congrArg PosFields.nav hfields, congrArg PosFields.rot hfields, congrArg PosFields.sog hfields,
      congrArg PosFields.pa hfields, congrArg PosFields.lon hfields, congrArg PosFields.lat hfields,
      congrArg PosFields.cog hfields, congrArg PosFields.hdg hfields, congrArg PosFields.ts hfields, htail, ?_⟩
    rw [State.putOut, hlen]
    rfl
  · exact encodePos_raise (e := .vsMmsi) (by rw [posCheck_eq, if_pos h1])
  · exact encodePos_raise (e := .vsNav) (by rw [posCheck_eq, if_neg (not_not.2 h1), if_pos h2])
  · exact encodePos_raise (e := .vsLon)
      (by rw [posCheck_eq, if_neg (not_not.2 h1), if_neg (not_not.2 h2), if_pos h3])
  · exact encodePos_raise (e := .vsLat)
      (by rw [posCheck_eq, if_neg (not_not.2 h1), if_neg (not_not.2 h2), if_neg (not_not.2 h3), if_pos h4])
  · exact encodePos_raise (e := .vsCog)
      (by rw [posCheck_eq, if_neg (not_not.2 h1), if_neg (not_not.2 h2), if_neg (not_not.2 h3),
        if_neg (not_not.2 h4), if_pos h5])
  · exact encodePos_raise (e := .vsHdg)
      (by rw [posCheck_eq, if_neg (not_not.2 h1), if_neg (not_not.2 h2), if_neg (not_not.2 h3),
        if_neg (not_not.2 h4), if_neg (not_not.2 h5), if_pos h6])

/-! ### Unpacking (R136, R141) -/

theorem slice_take {α : Type} (S : List α) {a b n : Nat} (h : b ≤ n) : slice (S.take n) a b = slice S a b := by
  rw [slice, slice, List.drop_take, List.take_take, Nat.min_eq_left (by omega)]

/-- The fields lie in the first 168 bits. -/
theorem posFields_take (x : Bits) : posFields (x.take 168) = posFields x := by
  simp [posFields, field, sfield, slice_take]

section
variable {s : State} {x : Bits}

/-- The first n bits of a written input (R14). -/
theorem inFirst_eq {n : Nat} (hx : InputBits s x) (h : n ≤ x.length) : s.inFirst n = .ok (x.take n) := by
  have hlen : (x.take n).length = n := List.length_take_of_le h
  refine readSeq_memRead.2 ⟨hlen.symm, fun k hk => ?_⟩
  rw [List.getElem_take]
  exact hx.2 k _

theorem exec_decodePos (hx : InputBits s x) (h : 168 ≤ x.length) : exec .decodePos s = commit s (do
    typeCheck (posFields x)
    .ok { s with rx := (posFields x).report }) := by
  show execDecodePos s = _
  rw [execDecodePos, require_of _ (hx.1 ▸ h), cmd_ok_bind, inFirst_eq hx h, cmd_ok_bind]
  dsimp only
  rw [posFields_take]

end

/-- Settles O47: behind the length check and the type check the RX registers take the fields of the first 168 bits. -/
theorem decodePosExtractsTheFields : Obligations.DecodePosExtractsTheFields := by
  refine ⟨fun s x hx h => ⟨fun htype => ?_, fun htype => ?_⟩, fun s h => ?_⟩
  · rw [exec_decodePos hx h, typeCheck_ok htype, cmd_ok_bind, commit_ok]
    rfl
  · have hfail := failsWith_of_raise (i := .decodePos) (s := s)
      (by rw [exec_decodePos hx h, typeCheck_raise htype, raise_bind])
    rw [unsupportedType_status (posFields_type_lt x)] at hfail
    exact hfail
  · apply failsWith_of_raise (e := .inputTooShort)
    show execDecodePos s = _
    rw [execDecodePos, decide_eq_false (Nat.not_le.2 h), require_false, raise_bind]

end Sys2Proof.Machine
end

section
/-! PROOFS. The six-bit armor: the mapping and its inverse, the text of a bit sequence and back, and the commands
(R138, R139, R142 to R145). -/

namespace Sys2Proof.Machine

/-! ### One character (R138) -/

theorem ascii2six_low {c : Byte} (hlo : 48 ≤ c.toNat) (hhi : c.toNat ≤ 87) : ascii2six c = some (c.toNat - 48) :=
  if_pos ⟨hlo, hhi⟩

theorem ascii2six_high {c : Byte} (hlo : 96 ≤ c.toNat) (hhi : c.toNat ≤ 119) :
    ascii2six c = some (c.toNat - 56) := by
  rw [ascii2six, if_neg (by omega), if_pos ⟨hlo, hhi⟩]

theorem ascii2six_invalid {c : Byte} (h : c.toNat < 48 ∨ (87 < c.toNat ∧ c.toNat < 96) ∨ 119 < c.toNat) :
    ascii2six c = none := by
  rw [ascii2six, if_neg (by omega), if_neg (by omega)]

theorem six2ascii_toNat {v : Nat} (h : v < 64) : (six2ascii v).toNat = if v ≤ 39 then v + 48 else v + 56 := by
  rw [six2ascii, BitVec.toNat_ofNat]
  split_ifs <;> omega

theorem ascii2six_six2ascii {v : Nat} (h : v < 64) : ascii2six (six2ascii v) = some v := by
  have hc := six2ascii_toNat h
  by_cases hv : v ≤ 39
  · rw [if_pos hv] at hc
    rw [ascii2six_low (by omega) (by omega), hc, Nat.add_sub_cancel]
  · rw [if_neg hv] at hc
    rw [ascii2six_high (by omega) (by omega), hc, Nat.add_sub_cancel]

/-- A valid code is the character of its value. -/
theorem eq_six2ascii_of_ascii2six {c : Byte} {v : Nat} (h : ascii2six c = some v) : v < 64 ∧ six2ascii v = c := by
  have hval : v < 64 ∧ c.toNat = if v ≤ 39 then v + 48 else v + 56 := by
    unfold ascii2six at h
    split_ifs at h with hlow hhigh
    · cases h
      rw [if_pos (by omega)]
      omega
    · cases h
      rw [if_neg (by omega)]
      omega
  exact ⟨hval.1, BitVec.eq_of_toNat_eq ((six2ascii_toNat hval.1).trans hval.2.symm)⟩

theorem sixOf_ok {c : Byte} {v : Nat} (h : ascii2six c = some v) : sixOf c = .ok v := by rw [sixOf, h]

theorem sixOf_raise {c : Byte} (h : ascii2six c = none) : sixOf c = raise .invalidChar := by rw [sixOf, h]

theorem exec_ascii2six (s : State) {c : Byte} {v : Nat} (h : ascii2six c = some v) : exec (.ascii2six c) s =
    .next { s with status := 0x00010000, result := BitVec.ofNat 32 v } := by
  show execAscii2six c s = _
  rw [execAscii2six, sixOf_ok h, cmd_ok_bind, commit_ok]
  rfl

/-- Settles O48: the value or the character of the mapping is committed to RESULT; a code outside it is an error. -/
theorem sixBitMappingCommands : Obligations.SixBitMappingCommands := by
  refine ⟨fun s imm => ?_, fun s c => ⟨fun hlo hhi => exec_ascii2six s (ascii2six_low hlo hhi),
    fun hlo hhi => exec_ascii2six s (ascii2six_high hlo hhi), fun h => ?_⟩⟩
  · have hv : immSix imm = imm.toNat % 64 := by simp [immSix]
    have hlt : imm.toNat % 64 < 64 := Nat.mod_lt _ (by omega)
    have hword : (six2ascii (immSix imm)).setWidth 32 =
        BitVec.ofNat 32 (if imm.toNat % 64 ≤ 39 then imm.toNat % 64 + 48 else imm.toNat % 64 + 56) := by
      rw [hv, ← six2ascii_toNat hlt, BitVec.ofNat_toNat]
    show execSix2ascii imm s = _
    rw [execSix2ascii, hword, commit_ok]
    rfl
  · apply failsWith_of_raise (e := .invalidChar)
    show execAscii2six c s = _
    rw [execAscii2six, sixOf_raise (ascii2six_invalid h), raise_bind]

/-! ### Groups of six bits (R10, R139) -/

theorem sixBits_length (vs : List Nat) : (sixBits vs).length = 6 * vs.length := by
  induction vs with
  | nil => rfl
  | cons v vs ih => simp [sixBits] at ih ⊢; omega

/-- The six bits of value k. -/
theorem slice_sixBits {vs : List Nat} {k : Nat} (h : k < vs.length) :
    slice (sixBits vs) (6 * k) (6 * k + 6) = ubits 6 vs[k] := by
  induction vs generalizing k with
  | nil => simp at h
  | cons v vs ih =>
    have hcons : sixBits (v :: vs) = ubits 6 v ++ sixBits vs := List.flatMap_cons
    cases k with
    | zero => rw [hcons, slice_left _ _ _ _ (by simp), slice_all _ _ (by simp)]; rfl
    | succ k =>
      rw [hcons, slice_right _ _ _ _ _ (ubits_length ..) (by omega), show 6 * (k + 1) - 6 = 6 * k by omega,
        show 6 * (k + 1) + 6 - 6 = 6 * k + 6 by omega, ih (by simpa using h)]
      rfl

/-- The values of the whole groups of six bits of P, in order. -/
def sixGroups (P : Bits) : List Nat :=
  (List.range (P.length / 6)).map fun k => uval (slice P (6 * k) (6 * k + 6))

@[simp] theorem sixGroups_length (P : Bits) : (sixGroups P).length = P.length / 6 := by simp [sixGroups]

theorem sixGroups_lt {P : Bits} {v : Nat} (h : v ∈ sixGroups P) : v < 64 := by
  obtain ⟨k, -, rfl⟩ := List.mem_map.1 h
  have hlen : (slice P (6 * k) (6 * k + 6)).length ≤ 6 := by simp [slice]
  exact (uval_lt _).trans_le (Nat.pow_le_pow_right (by omega) hlen)

/-- Values below 64 are the groups of their bits. -/
theorem sixGroups_sixBits {vs : List Nat} (h : ∀ v ∈ vs, v < 64) : sixGroups (sixBits vs) = vs := by
  have hlen : (sixGroups (sixBits vs)).length = vs.length := by rw [sixGroups_length, sixBits_length]; omega
  refine List.ext_getElem hlen fun k h1 h2 => ?_
  simp only [sixGroups, List.getElem_map, List.getElem_range]
  rw [slice_sixBits h2, uval_ubits]
  exact Nat.mod_eq_of_lt (h _ (List.getElem_mem h2))

/-- Whole groups of six bits are the bits of their values. -/
theorem sixBits_sixGroups {P : Bits} (h : P.length % 6 = 0) : sixBits (sixGroups P) = P := by
  have hgroups (n : Nat) (hn : 6 * n ≤ P.length) :
      sixBits ((List.range n).map fun k => uval (slice P (6 * k) (6 * k + 6))) = P.take (6 * n) := by
    induction n with
    | zero => rfl
    | succ n ih =>
      have hlen : (slice P (6 * n) (6 * n + 6)).length = 6 := by simp [slice]; omega
      have hbits := ubits_uval (slice P (6 * n) (6 * n + 6))
      rw [hlen] at hbits
      rw [sixBits] at ih ⊢
      rw [List.range_succ, List.map_append, List.flatMap_append, ih (by omega), List.map_singleton,
        List.flatMap_singleton, hbits, slice, Nat.add_sub_cancel_left, ← List.take_add]
      rfl
  rw [sixGroups, hgroups _ (by omega), List.take_of_length_le (by omega)]

/-! ### Texts (R139) -/

/-- S with the zeros that fill its last group of six bits. -/
def filled (S : Bits) : Bits := S ++ List.replicate (fillOf S.length) false

@[simp] theorem filled_length (S : Bits) : (filled S).length = S.length + fillOf S.length := by simp [filled]

theorem filled_length_mod (S : Bits) : (filled S).length % 6 = 0 := by
  rw [filled_length, fillOf]
  omega

theorem armorChars_eq (S : Bits) : armorChars S = (sixGroups (filled S)).map six2ascii := by
  rw [sixGroups, List.map_map]
  rfl

/-- Dearmoring the groups of a filled sequence drops the fill. -/
theorem dearmorBits_sixGroups (S : Bits) : dearmorBits (sixGroups (filled S)) (fillOf S.length) = S := by
  have hlen : 6 * (sixGroups (filled S)).length - fillOf S.length = S.length := by
    have := filled_length_mod S
    rw [sixGroups_length]
    rw [filled_length] at this ⊢
    omega
  rw [dearmorBits, sixBits_sixGroups (filled_length_mod S), hlen, filled, List.take_left]

theorem map_ascii2six_map_six2ascii {vs : List Nat} (h : ∀ v ∈ vs, v < 64) :
    (vs.map six2ascii).map ascii2six = vs.map some := by
  rw [List.map_map]
  exact List.map_congr_left fun v hv => ascii2six_six2ascii (h v hv)

/-- A text of valid characters is the text of its values. -/
theorem map_six2ascii_of_map_ascii2six {cs : List Byte} {vs : List Nat} (h : cs.map ascii2six = vs.map some) :
    (∀ v ∈ vs, v < 64) ∧ vs.map six2ascii = cs := by
  induction cs generalizing vs with
  | nil =>
    cases vs with
    | nil => simp
    | cons v vs => simp at h
  | cons c cs ih =>
    cases vs with
    | nil => simp at h
    | cons v vs =>
      obtain ⟨hc, hcs⟩ := List.cons_eq_cons.1 h
      obtain ⟨hv, rfl⟩ := eq_six2ascii_of_ascii2six hc
      obtain ⟨hvs, rfl⟩ := ih hcs
      exact ⟨List.forall_mem_cons.2 ⟨hv, hvs⟩, rfl⟩

section
variable {vs : List Nat} {f : Nat}

theorem dearmorBits_length (vs : List Nat) (f : Nat) : (dearmorBits vs f).length = 6 * vs.length - f := by
  rw [dearmorBits, List.length_take, sixBits_length]
  omega

/-- The fill dropped is the fill that armoring adds again. -/
theorem fillOf_dearmorBits_length (hf : f ≤ 5) (h0 : 0 < vs.length ∨ f = 0) :
    fillOf (dearmorBits vs f).length = f := by
  rw [dearmorBits_length, fillOf]
  omega

/-- Where the bits dropped are zeros, filling puts them back. -/
theorem filled_dearmorBits (hf : f ≤ 5) (h0 : 0 < vs.length ∨ f = 0)
    (hdrop : (sixBits vs).drop (6 * vs.length - f) = List.replicate f false) :
    filled (dearmorBits vs f) = sixBits vs := by
  rw [filled, fillOf_dearmorBits_length hf h0, ← hdrop, dearmorBits, List.take_append_drop]

end

/-- Settles O52: a character and its value determine each other, a filled sequence and the values of its groups do, and
the fill is what makes the groups whole. -/
theorem dearmorInvertsArmor : Obligations.DearmorInvertsArmor := by
  refine ⟨fun v => ascii2six_six2ascii, fun c v => eq_six2ascii_of_ascii2six, fun S => ⟨sixGroups (filled S), ?_,
    dearmorBits_sixGroups S⟩, fun cs vs f hcs hf h0 hdrop => ?_⟩
  · rw [armorChars_eq]
    exact map_ascii2six_map_six2ascii fun v => sixGroups_lt
  · obtain ⟨hvs, rfl⟩ := map_six2ascii_of_map_ascii2six hcs
    rw [List.length_map] at h0 hdrop
    refine ⟨?_, fillOf_dearmorBits_length hf h0⟩
    rw [armorChars_eq, filled_dearmorBits hf h0 hdrop, sixGroups_sixBits hvs]

/-! ### ARMOR (R144) -/

@[simp] theorem armorChars_length (S : Bits) : (armorChars S).length = (filled S).length / 6 := by
  rw [armorChars_eq, List.length_map, sixGroups_length]

section
variable {s : State}

theorem exec_armor {x : Bits} (hx : InputBits s x) : exec .armor s = commit s (do
    fits (armorChars x).length s.caps.chr.toNat .capChr
    .ok { s.putChr (armorChars x) with fillBits := BitVec.ofNat 3 (fillOf x.length) }) := by
  show execArmor s = _
  rw [execArmor, inBits_eq_ok.2 hx, cmd_ok_bind]
  rfl

end

/-- Settles O49: a block write of the text of the filled input, under the check that it fits, and the fill count. -/
theorem armorWritesTheText : Obligations.ArmorWritesTheText := by
  refine fun s x hx => ⟨fun hcap => ?_, fun hcap => ?_⟩
  · have hlen : (armorChars x).length ≤ s.caps.chr.toNat := (armorChars_length x).trans_le hcap
    refine ⟨_, armorChars x, (exec_armor hx).trans (commit_fits_ok hlen), armorChars_length x, fun k hk => ?_,
      writes_bufPut .., toNat_ofNat_of_le_toNat hlen, ?_, rfl⟩
    · rw [List.getD_eq_getElem _ _ hk]
      simp only [armorChars_eq, sixGroups, List.getElem_map, List.getElem_range]
      rfl
    · exact Nat.mod_eq_of_lt (show (6 - x.length % 6) % 6 < 8 by omega)
  · exact (exec_armor hx).trans (commit_fits_raise (hcap.trans_eq (armorChars_length x).symm))

/-! ### DEARMOR (R145) -/

section
variable {s : State} {cs : List Byte}

theorem chrSix_eq (hc : InputChars s cs) {k : Nat} (hk : k < cs.length) : chrSix s k = sixOf cs[k] := by
  rw [chrSix, memRead_eq_ok.2 (hc.2 k hk), cmd_ok_bind]

theorem readSeq_chrSix_ok (hc : InputChars s cs) {vs : List Nat} (h : cs.map ascii2six = vs.map some) :
    readSeq (chrSix s) 0 cs.length = .ok vs := by
  have hlen : vs.length = cs.length := by simpa using (congrArg List.length h).symm
  refine readSeq_eq_ok.2 ⟨hlen, fun k hk => ?_⟩
  have hval : ascii2six cs[k] = some vs[k] := by
    simpa [hk, hlen ▸ hk] using congrArg (·[k]?) h
  rw [Nat.zero_add, chrSix_eq hc (hlen ▸ hk), sixOf_ok hval]

/-- The read stops at an invalid character: the characters before it are written. -/
theorem readSeq_chrSix_raise (hc : InputChars s cs) (h : ∃ c ∈ cs, ascii2six c = none) :
    readSeq (chrSix s) 0 cs.length = raise .invalidChar := by
  cases hr : readSeq (chrSix s) 0 cs.length with
  | ok vs =>
    obtain ⟨c, hmem, hnone⟩ := h
    obtain ⟨k, hk, rfl⟩ := List.getElem_of_mem hmem
    obtain ⟨hlen, hget⟩ := readSeq_eq_ok.1 hr
    have hok := hget k (hlen ▸ hk)
    rw [Nat.zero_add, chrSix_eq hc hk, sixOf_raise hnone] at hok
    exact absurd hok (raise_ne_ok _ _)
  | error e =>
    obtain ⟨k, hk, hget⟩ := readSeq_eq_error hr
    rw [Nat.zero_add, chrSix_eq hc hk] at hget
    cases hval : ascii2six cs[k] with
    | none => rw [sixOf_raise hval] at hget; cases hget; rfl
    | some v => rw [sixOf_ok hval] at hget; cases hget

theorem dearmor_fillRange (h : 5 < s.fillBits.toNat ∨ (s.chrLen.toNat = 0 ∧ 0 < s.fillBits.toNat)) :
    FailsWith .dearmor s 0x00010D01 := by
  have hreq : (s.fillBits.toNat ≤ 5 && !(s.chrLen.toNat = 0 && 0 < s.fillBits.toNat)) = false := by
    rcases h with h | ⟨hn, hf⟩
    · rw [decide_eq_false (Nat.not_le.2 h), Bool.false_and]
    · rw [decide_eq_true hn, decide_eq_true hf, Bool.and_self, Bool.not_true, Bool.and_false]
  apply failsWith_of_raise (e := .fillRange)
  show execDearmor s = _
  rw [execDearmor]
  dsimp only
  rw [hreq, require_false, raise_bind]

variable (hc : InputChars s cs) (hf : s.fillBits.toNat ≤ 5) (h0 : 0 < cs.length ∨ s.fillBits.toNat = 0)
include hc hf h0

/-- Behind the check of FILL_BITS, DEARMOR is the read of the text, the check that its bits fit, and the write. -/
theorem exec_dearmor : exec .dearmor s = commit s (do
    let vs ← readSeq (chrSix s) 0 cs.length
    fits (6 * cs.length - s.fillBits.toNat) s.caps.bits.toNat .capBits
    .ok (s.putOut 0 (dearmorBits vs s.fillBits.toNat))) := by
  have hreq : (s.fillBits.toNat ≤ 5 && !(s.chrLen.toNat = 0 && 0 < s.fillBits.toNat)) = true := by
    have hno : ¬ (s.chrLen.toNat = 0 ∧ 0 < s.fillBits.toNat) := by rw [hc.1]; omega
    rw [decide_eq_true hf, Bool.true_and, Bool.not_eq_true', Bool.eq_false_iff]
    exact fun h => hno (decide_and_decide_iff.1 h)
  show execDearmor s = _
  rw [execDearmor]
  dsimp only
  rw [hreq, require_true, cmd_ok_bind, hc.1]
  rfl

theorem exec_dearmor_valid {vs : List Nat} (h : cs.map ascii2six = vs.map some) : exec .dearmor s = commit s (do
    fits (6 * cs.length - s.fillBits.toNat) s.caps.bits.toNat .capBits
    .ok (s.putOut 0 (dearmorBits vs s.fillBits.toNat))) := by
  rw [exec_dearmor hc hf h0, readSeq_chrSix_ok hc h, cmd_ok_bind]

end

/-- Settles O50: the checks fail in the order of R145; behind them the bits of the values are written less the fill. -/
theorem dearmorWritesTheBits : Obligations.DearmorWritesTheBits := by
  refine ⟨fun s => dearmor_fillRange, fun s cs hc hf h0 => ⟨fun h => ?_, fun vs hvs => ?_⟩⟩
  · apply failsWith_of_raise (e := .invalidChar)
    rw [exec_dearmor hc hf h0, readSeq_chrSix_raise hc h, raise_bind]
  · have hexec := exec_dearmor_valid hc hf h0 hvs
    have hlen : vs.length = cs.length := by simpa using (congrArg List.length hvs).symm
    have hbits : (dearmorBits vs s.fillBits.toNat).length = 6 * cs.length - s.fillBits.toNat := by
      rw [dearmorBits_length, hlen]
    refine ⟨fun hcap => ?_, fun hcap => hexec.trans (commit_fits_raise hcap)⟩
    refine ⟨_, hexec.trans (commit_fits_ok hcap), ?_,
      (putOut_zero_outLen s (hbits.trans_le hcap)).trans hbits, rfl⟩
    rw [← hlen]
    exact writes_bufPut ..

end Sys2Proof.Machine
end

section
/-! PROOFS. The modulator: how far its phase steps, MODULATE, and TRANSMIT, which packs and frames a report in front of
it (R146 to R155). -/

namespace Sys2Proof.Machine

/-! ### The ideal phase (R150 to R152) -/

theorem ModJob.abs_phase_step (j : ModJob) (n : Nat) : |j.phase (n + 1) - j.phase n| =
    |fullStep j.gmsk j.sps j.fskDevHz.toNat j.sampleRate.toNat| * |j.level (n + 1)| := by
  rw [j.phase_succ, add_sub_cancel_left, ModJob.delta, abs_mul]

/-- Settles O55: a phase step is the full step times the level, which is at most 1 and in the FSK profile ±1. -/
theorem phaseStepsAreBounded : Obligations.PhaseStepsAreBounded := by
  refine fun j n => ⟨j.abs_level_le_one n, fun hg => ?_, fun hg => ?_⟩
  · have hstep : 0 ≤ Real.pi / (2 * j.sps) := div_nonneg Real.pi_pos.le (by positivity)
    rw [j.abs_phase_step, hg, fullStep, if_pos rfl, abs_of_nonneg hstep]
    exact mul_le_of_le_one_right hstep (j.abs_level_le_one _)
  · have hlevel : |j.level (n + 1)| = 1 := by rw [ModJob.level, hg, if_neg Bool.false_ne_true, abs_nrz]
    rw [j.abs_phase_step, hlevel, mul_one, hg, fullStep, if_neg Bool.false_ne_true]
    exact abs_of_nonneg (by positivity)

/-! ### Checks of the registers, in their order (R147) -/

section
variable {c : Cfg} {S : Nat} {e : CmdError}

theorem modCfgCheck_raise_sps (h : ∀ S, ¬ c.hasSps S) : modCfgCheck c = raise .spsNonInteger := by
  rw [modCfgCheck, spsCheck_raise h, raise_bind]

theorem modCfgCheck_raise_filter (hS : c.hasSps S) (hg : c.gmsk = true) (h : filterCheck c = raise e) :
    modCfgCheck c = raise e := by
  rw [modCfgCheck, spsCheck_eq_ok.2 hS, cmd_ok_bind, hg, if_pos rfl, h, raise_bind]

theorem modCfgCheck_raise_fsk (hS : c.hasSps S) (hg : c.gmsk = false) (h : c.fskDevHz.toNat = 0) :
    modCfgCheck c = raise .fskDevRange := by
  have hfsk : fskCheck c = raise .fskDevRange := require_eq_error.2 ⟨decide_eq_false (not_not.2 h), rfl⟩
  rw [modCfgCheck, spsCheck_eq_ok.2 hS, cmd_ok_bind, hg, if_neg Bool.false_ne_true, hfsk, raise_bind]

end

/-! ### MODULATE (R154) -/

section
variable {s : State}

theorem modulate_cfg_raise {e : CmdError} (he : modCfgCheck s.cfg = raise e) : FailsWith .modulate s e.status := by
  apply failsWith_of_raise
  show execModulate s = _
  rw [execModulate, he, raise_bind]

variable {S : Nat} (hS : s.cfg.hasSps S) (hc : s.cfg.modLegal)
include hS hc

/-- Behind the configuration check MODULATE checks that the samples fit, reads IN and writes the baseband. -/
theorem exec_modulate : exec .modulate s = commit s (do
    fits (s.inLen.toNat * S) s.caps.smp.toNat .capSamples
    let B ← s.inBits
    .ok (s.putSout (modulated Config.hw s B S))) := by
  show execModulate s = _
  rw [execModulate, modCfgCheck_eq_ok.2 ⟨hS, hc⟩, cmd_ok_bind]
  rfl

theorem modulate_capSamples (h : s.caps.smp.toNat < s.inLen.toNat * S) : FailsWith .modulate s 0x00010308 := by
  apply failsWith_of_raise (e := .capSamples)
  rw [exec_modulate hS hc, fits_raise h, raise_bind]

theorem exec_modulate_completes {x : Bits} (hx : InputBits s x) (h : x.length * S ≤ s.caps.smp.toNat) :
    exec .modulate s = .next ((s.putSout (modulated Config.hw s x S)).setStatus statusOk) := by
  rw [exec_modulate hS hc, hx.1, fits_ok h, cmd_ok_bind, inBits_eq_ok.2 hx, cmd_ok_bind, commit_ok]

end

/-- A block write of SOUT sets SOUT_LEN to the number of samples, when a word can hold it. -/
theorem putSout_soutLen (s : State) {zs : List Sample} {w : Word} (h : zs.length ≤ w.toNat) :
    (s.putSout zs).soutLen.toNat = zs.length := by
  rw [State.putSout_soutLen, toNat_ofNat_of_le_toNat h]

/-- Settles O53: the errors are the checks that fail, in the order of R154; a success is a block write of the words
drawn, one pair for each sample. -/
theorem modulateWritesTheBaseband : Obligations.ModulateWritesTheBaseband := by
  refine ⟨fun s h => modulate_cfg_raise (modCfgCheck_raise_sps h), fun s S hS =>
    ⟨fun hg h => modulate_cfg_raise (modCfgCheck_raise_filter hS hg (filterCheck_raise_bt h)),
      fun hg hlo hhi h => modulate_cfg_raise (modCfgCheck_raise_filter hS hg (filterCheck_raise_span hlo hhi h)),
      fun hg h => modulate_cfg_raise (modCfgCheck_raise_fsk hS hg h), fun hc h => modulate_capSamples hS hc h,
      fun x hx hc hcap => ?_⟩⟩
  have hlen : (modulated Config.hw s x S).length ≤ s.caps.smp.toNat := (modulated_length ..).trans_le hcap
  exact ⟨_, _, exec_modulate_completes hS hc hx hcap, modulated_length .., writesSamples_bufPut ..,
    modulated_within Config.hw s x S, putSout_soutLen s hlen, rfl⟩

/-! ### TRANSMIT (R155) -/

theorem frameBits_length (c : Cfg) (m : Bits) : (frameBits c m).length =
    32 + (stuff (withCrc c.crcXorout m)).length + 8 + if c.bufferBits then 8 else 0 := by
  have happend := frameBits_append c m []
  rw [List.append_nil, List.append_nil] at happend
  rw [happend, airFrame_length]
  split_ifs <;> rfl

/-- The 184 bits of a report and its CRC are stuffed with at most 36 zeros. -/
theorem frameBits_length_bounds {c : Cfg} {m : Bits} (hm : m.length = 168) :
    224 ≤ (frameBits c m).length ∧ (frameBits c m).length ≤ 268 := by
  have hpay : (withCrc c.crcXorout m).length = 184 := by rw [withCrc_length, hm]
  have hlo := stuffFrom_length_le (withCrc c.crcXorout m) 0
  have hhi := stuffFrom_length_le_div (withCrc c.crcXorout m) 0 (by omega)
  rw [frameBits_length, stuff]
  split_ifs <;> omega

/-- What TRANSMIT commits for the frame f: its bits in OUT and its baseband in SOUT. -/
def State.transmitted (s : State) (f : Bits) (S : Nat) : State :=
  (s.putOut 0 f).putSout (modulated Config.hw s f S)

/-- The parts that the statement speaks of, when the frame and its samples fit. -/
theorem transmitted_spec (s : State) {f : Bits} {S : Nat} (hf : f.length ≤ 268)
    (hcap : f.length * S ≤ s.caps.smp.toNat) :
    Writes s.mem.out 0 f (s.transmitted f S).mem.out ∧ (s.transmitted f S).outLen.toNat = f.length ∧
      WritesSamples s.mem.sout (modulated Config.hw s f S) (s.transmitted f S).mem.sout ∧
      (s.transmitted f S).soutLen.toNat = (modulated Config.hw s f S).length :=
  ⟨writes_bufPut .., putOut_zero_outLen s (w := 268) hf, writesSamples_bufPut ..,
    putSout_soutLen _ ((modulated_length ..).trans_le hcap)⟩

section
variable {s : State}

theorem transmit_cfg_raise {e : CmdError} (he : modCfgCheck s.cfg = raise e) : FailsWith .transmit s e.status := by
  apply failsWith_of_raise
  show execTransmit s = _
  rw [execTransmit, he, raise_bind]

variable {S : Nat} (hS : s.cfg.hasSps S) (hc : s.cfg.modLegal)
include hS hc

/-- Where `pos_encode` fails, ENCODE_POS and TRANSMIT end alike. -/
theorem exec_transmit_eq_encodePos (hv : ¬ s.vs.legal) : exec .transmit s = exec .encodePos s := by
  show execTransmit s = execEncodePos s
  cases he : posEncode s.vs with
  | ok m => exact absurd (posEncode_eq_ok.1 he).1 hv
  | error e =>
    rw [execTransmit, modCfgCheck_eq_ok.2 ⟨hS, hc⟩, execEncodePos, he, cmd_ok_bind, cmd_error_bind, cmd_error_bind]

/-- A legal build has room for the frame of every report, so that only the samples can fail to fit. -/
theorem exec_transmit (hcaps : s.caps.legal) (hv : s.vs.legal) : exec .transmit s = commit s (do
    fits ((frameBits s.cfg (posBits s.vs)).length * S) s.caps.smp.toNat .capSamples
    .ok (s.transmitted (frameBits s.cfg (posBits s.vs)) S)) := by
  have hroom : (frameBits s.cfg (posBits s.vs)).length ≤ s.bitCap := by
    obtain ⟨⟨-, hbits, -⟩, -⟩ := hcaps
    exact (frameBits_length_bounds (posBits_length _)).2.trans (le_trans (by omega) hbits)
  show execTransmit s = _
  rw [execTransmit, modCfgCheck_eq_ok.2 ⟨hS, hc⟩, cmd_ok_bind, posEncode_eq_ok.2 ⟨hv, rfl⟩, cmd_ok_bind]
  dsimp only
  rw [fits_ok hroom, cmd_ok_bind]
  rfl

end

/-- Settles O54: the errors are the checks that fail, in the order of R155; a success is a block write of the frame and
one of the words drawn for it. -/
theorem transmitWritesFrameAndBaseband : Obligations.TransmitWritesFrameAndBaseband := by
  refine ⟨fun s h => transmit_cfg_raise (modCfgCheck_raise_sps h), fun s S hS =>
    ⟨fun hg h => transmit_cfg_raise (modCfgCheck_raise_filter hS hg (filterCheck_raise_bt h)),
      fun hg hlo hhi h => transmit_cfg_raise (modCfgCheck_raise_filter hS hg (filterCheck_raise_span hlo hhi h)),
      fun hg h => transmit_cfg_raise (modCfgCheck_raise_fsk hS hg h),
      fun st hc hv hf => (exec_transmit_eq_encodePos hS hc hv).trans hf, fun hcaps hc hv => ?_⟩⟩
  have hexec := exec_transmit hS hc hcaps hv
  obtain ⟨hlo, hhi⟩ := frameBits_length_bounds (c := s.cfg) (posBits_length s.vs)
  refine ⟨fun hcap => hexec.trans (commit_fits_raise hcap), fun hcap => ?_⟩
  have hdone := hexec.trans (commit_fits_ok hcap)
  generalize frameBits s.cfg (posBits s.vs) = f at hdone hlo hhi hcap ⊢
  obtain ⟨hout, houtLen, hsout, hsoutLen⟩ := transmitted_spec s hhi hcap
  exact ⟨_, _, hdone, hout, houtLen, hlo, hhi, modulated_length .., hsout, hsoutLen,
    modulated_within Config.hw s f S, rfl⟩

end Sys2Proof.Machine
end
